-- ==== Sys2Proof/Word.lean ====
section
/-! DEFINITION. The units of the three memories (20 R70): a byte of IN and OUT, a 16-bit sample cell of PIX. -/

namespace Sys2Proof

/-- The unit of IN and of OUT (20 R70). -/
abbrev Byte := BitVec 8

/-- The unit of PIX, one sample cell (20 R70). -/
abbrev Sample := BitVec 16

end Sys2Proof
end

