-- ==== Sys2Proof/Config.lean ====
section
/-! DEFINITION. The parameters the model takes (00 R7) and the one family of free values. -/

namespace Sys2Proof

/-- The parameters of 00 R7, each a natural number or infinity (`none`).
They stand in `State.cap`, which no move changes, so a statement about every state is a statement
about every choice of them. DESIGN CHOICE (entry 8), safe. -/
structure Capacities where
  /-- IN_CAP: the largest IN_LEN the host may write, and the number of cells of IN. -/
  inCap    : Option Nat
  /-- OUT_CAP: the capacity of OUT in bytes. -/
  outCap   : Option Nat
  /-- PIX_CAP: the capacity of PIX in samples. -/
  pixCap   : Option Nat
  /-- WIDTH_MAX: the largest WIDTH. -/
  widthMax : Option Nat
  deriving DecidableEq, Repr

/-- The defaults of D14: infinity, infinity, infinity, 2^32 - 1. -/
def Capacities.default : Capacities :=
  { inCap := none, outCap := none, pixCap := none, widthMax := some 4294967295 }

/-- `n` is within a limit that may be infinite. -/
def withinLimit (n : Nat) : Option Nat → Bool
  | none => true
  | some m => decide (n ≤ m)

/-- What a host read returns where the spec leaves the value unspecified (60 R352: every register but
STATUS and ERR, and every memory cell, while STATE = FAULT). It has no body: nothing constrains it.
The argument is `State.freeCount`, a fresh number for each such read. DESIGN CHOICE (entry 6), safe. -/
opaque Config.freeReading : Nat → Nat

end Sys2Proof
end

