-- ==== Sys2Proof/Machine/State.lean ====
section
/-! DEFINITION. The state of the CORE (10 R20 to R47) as plain data, the reasons a step can stop, and the state after reset. -/

namespace Sys2Proof.Machine

open Sys2Proof

/-- Reasons the MODEL stops with a fault. None is a fault of the CORE: those are next states with STATE = FAULT (60 R352). -/
inductive Fault where
  /-- A cell nothing has written is read: of IN by READBIT, of OUT by COPY or the scanline step, of PRIOR or CUR by a filter
  or an unpack element, of IN, OUT or PIX by the host. The cells at or beyond IN_LEN, OUT_LEN and PIX_LEN are unwritten. 10
  R46: "A model should make a read of an unwritten cell a model fault, never a zero". Safe. -/
  | unwrittenCell
  /-- The host writes a cell of IN at or beyond IN_CAP, which does not exist (10 R43). Safe. -/
  | outsideIn
  /-- The number that selects an element selects none: an unpack with a BITDEPTH that "can[not] occur" (45 R320), or a symbol
  beyond its alphabet. Only in states no run reaches. Safe. -/
  | noElement
  deriving DecidableEq, Repr

/-- Reasons the model refuses a move. -/
inductive Refusal where
  /-- An element without a meaning; raised by no arm. Safe. -/
  | notModelled (mnemonic : String)
  /-- The host reads or writes where the spec does not let it (70 R387, 93 U8: "no such move"). Safe. -/
  | hostAccess
  /-- The host writes a value the register does not take: IN_LEN above IN_CAP, WIDTH above WIDTH_MAX (93 U9). Safe. -/
  | valueTooWide
  deriving DecidableEq, Repr

/-- STATE (10 R28). -/
inductive EngineState where
  | idle | inflate | scan | done | fault
  deriving DecidableEq, Repr

/-- The error kinds (60 R341), code 0 to 14. The CORE raises seven of them; the others keep a number for host software. -/
inductive ErrKind where
  | none
  | unexpectedEof | invalidSignature | invalidChunkType | chunkTooLarge | missingRequiredChunk | invalidChunkLength
  | truncatedImageData | invalidFilterType | invalidBlockType | malformedBitstream | invalidSignificantBits
  | truncatedInput | invalidConfig | capacityExceeded
  deriving DecidableEq, Repr

/-- Which element the engine's rules read next: the place reached in the nested pseudocode of 42 R170, R171, R174, R181,
43 R200, R204 and 44 R291. The model's own field. DESIGN CHOICE (entry 3), safe. -/
inductive Point where
  /-- a BHDR (42 R170) -/
  | header
  /-- the DYNHDR after a BHDR.DYN (42 R174) -/
  | dynHeader
  /-- the CLCLEN after a DYNHDR (42 R174) -/
  | clcLengths
  /-- a CL.* element, or the end of the list (42 R181) -/
  | codeLengths
  /-- a literal/length symbol (43 R200) -/
  | symbols
  /-- the distance symbol of a length (43 R204) -/
  | distance
  /-- a scanline, or the end of the scanlines (44 R291) -/
  | scanline
  /-- the UNPACK of the row just reconstructed (44 R291) -/
  | unpack
  deriving DecidableEq, Repr

/-- The host registers by name (10 R31). -/
inductive HostReg where
  | ctrl | status | err | inLen | mode | width | bitdepth | planes | outLen | rows | pixLen
  deriving DecidableEq, Repr

/-- The moves of the host (60 R359). A write takes a value of the register's width (93 U9); a read-only register has no
write; `elapse` lets the engine make one move. -/
inductive HostAction where
  /-- Write CTRL: bit 0 START, bit 1 RESET (10 R32). -/
  | ctrl (v : BitVec 2)
  | writeInLen (n : Nat)
  | writeMode (v : BitVec 1)
  | writeWidth (n : Nat)
  | writeBitdepth (v : BitVec 5)
  | writePlanes (v : BitVec 3)
  /-- Write IN[a]. -/
  | writeIn (a : Nat) (b : Byte)
  | readReg (r : HostReg)
  | readIn (a : Nat)
  | readOut (a : Nat)
  | readPix (a : Nat)
  /-- The host lets the engine make one move. -/
  | elapse
  deriving DecidableEq, Repr

/-- A memory of cells `α`: the written cells as (address, value), addresses strictly rising. An unlisted cell holds no
value (10 R46). -/
abbrev Memory (α : Type) := List (Nat × α)

/-- The addresses of `m` are strictly rising and not below `lo`. -/
def risingFrom {α : Type} (lo : Nat) : Memory α → Bool
  | [] => true
  | (a, _) :: m => decide (lo ≤ a) && risingFrom (a + 1) m

/-- The canonical form of a memory: addresses strictly rising. -/
def Memory.wf {α : Type} (m : Memory α) : Bool := risingFrom 0 m

/-- The whole state (10 R20). -/
structure State where
  -- the bit cursor (10 R21)
  pos    : Nat
  la     : Byte
  bitoff : Nat
  -- working registers of phase INFLATE (10 R26)
  bfinal  : BitVec 1
  btype   : BitVec 2
  hlit    : BitVec 5
  hdist   : BitVec 5
  hclen   : BitVec 4
  nlit    : BitVec 9
  ndist   : BitVec 6
  ncl     : BitVec 5
  lidx    : Nat
  prevlen : Option (BitVec 4)
  lens    : List (BitVec 4)
  sym     : BitVec 9
  len     : BitVec 9
  dsym    : BitVec 5
  dist    : BitVec 16
  code    : BitVec 15
  clen    : BitVec 4
  -- working registers of phase SCAN (10 R27)
  rptr     : Nat
  ft       : Byte
  rowbytes : Nat
  fu       : Nat
  col      : Nat
  -- status (10 R28)
  status : EngineState
  err    : ErrKind
  -- code-length tables and row buffers (10 R29, R30)
  cllen : List (BitVec 3)
  lllen : List (BitVec 4)
  dlen  : List (BitVec 4)
  prior : List Byte
  cur   : List Byte
  -- host registers 3 to 10 (10 R31)
  inLen    : Nat
  mode     : BitVec 1
  width    : Nat
  bitdepth : BitVec 5
  planes   : BitVec 3
  outLen   : Nat
  rows     : Nat
  pixLen   : Nat
  -- memories (10 R43)
  inMem : Memory Byte
  out   : Memory Byte
  pix   : Memory Sample
  -- the parameters (00 R7)
  cap : Capacities
  -- the model's own
  point     : Point
  hostQueue : List HostAction
  hostReply : Option Nat
  freeCount : Nat
  deriving DecidableEq, Repr

/-- The machine right after reset (10 R47, 70 R380). STATE, ERR, the host registers, POS and BITOFF have the spec's values.
The spec leaves every other register unspecified: they are 0, NONE or empty. DESIGN CHOICE (entry 1), unsafe. The memories list
nothing: their cells hold no value (entry 2). The parameters have the spec's defaults (D14, entry 8). -/
def State.reset : State :=
  { pos := 0, la := 0, bitoff := 8
    bfinal := 0, btype := 0, hlit := 0, hdist := 0, hclen := 0, nlit := 0, ndist := 0, ncl := 0
    lidx := 0, prevlen := none, lens := List.replicate 320 0
    sym := 0, len := 0, dsym := 0, dist := 0, code := 0, clen := 0
    rptr := 0, ft := 0, rowbytes := 0, fu := 0, col := 0
    status := .idle, err := .none
    cllen := List.replicate 19 0, lllen := List.replicate 288 0, dlen := List.replicate 32 0
    prior := [], cur := []
    inLen := 0, mode := 0, width := 0, bitdepth := 0, planes := 0, outLen := 0, rows := 0, pixLen := 0
    inMem := [], out := [], pix := []
    cap := Capacities.default
    point := .header, hostQueue := [], hostReply := none, freeCount := 0 }

end Sys2Proof.Machine
end

