-- ==== Sys2Proof/Machine/Flags.lean ====
section
/-! DEFINITION. The status flags: the numbering of STATE and ERR (10 R28, 60 R341), the BFINAL and SCAN_EN tests, CONFIG_OK
(60 R347). The CORE has no arithmetic flags (10 R28). -/

namespace Sys2Proof.Machine

open Sys2Proof

/-- The number of STATE in STATUS[2:0] (10 R28, R32). -/
def EngineState.number : EngineState → BitVec 3
  | .idle => 0 | .inflate => 1 | .scan => 2 | .done => 3 | .fault => 4

/-- The code of an error kind in ERR[3:0] (60 R341). -/
def ErrKind.code : ErrKind → BitVec 4
  | .none => 0
  | .unexpectedEof => 1 | .invalidSignature => 2 | .invalidChunkType => 3 | .chunkTooLarge => 4
  | .missingRequiredChunk => 5 | .invalidChunkLength => 6 | .truncatedImageData => 7 | .invalidFilterType => 8
  | .invalidBlockType => 9 | .malformedBitstream => 10 | .invalidSignificantBits => 11
  | .truncatedInput => 12 | .invalidConfig => 13 | .capacityExceeded => 14

/-- The number of a host register (10 R31). -/
def HostReg.number : HostReg → Nat
  | .ctrl => 0 | .status => 1 | .err => 2 | .inLen => 3 | .mode => 4 | .width => 5 | .bitdepth => 6 | .planes => 7
  | .outLen => 8 | .rows => 9 | .pixLen => 10

/-- MODE.SCAN_EN (10 R35). -/
def scanEnabled (s : State) : Bool := s.mode == 1

/-- The block just ended is the final one (42 R170). -/
def finalBlock (s : State) : Bool := s.bfinal == 1

/-- The engine is running: STATE is INFLATE or SCAN. -/
def running (s : State) : Bool := s.status == .inflate || s.status == .scan

/-- BITDEPTH is 1, 2, 4, 8 or 16 (10 R37). -/
def legalDepth (d : BitVec 5) : Bool := d == 1 || d == 2 || d == 4 || d == 8 || d == 16

/-- CONFIG_OK (60 R347): WIDTH ≥ 1, a legal BITDEPTH, 1 ≤ PLANES ≤ 4, and one plane when BITDEPTH < 8. -/
def configOk (s : State) : Bool :=
  decide (1 ≤ s.width) && legalDepth s.bitdepth &&
  (decide (1 ≤ s.planes.toNat) && decide (s.planes.toNat ≤ 4)) &&
  (decide (8 ≤ s.bitdepth.toNat) || s.planes == 1)

/-- BPPBITS (10 R45). -/
def bppBits (s : State) : Nat := s.bitdepth.toNat * s.planes.toNat

/-- ROWBYTES as the host registers give it: ceil(WIDTH * BPPBITS / 8) (10 R45). -/
def rowBytesOf (s : State) : Nat := (s.width * bppBits s + 7) / 8

/-- FU as the host registers give it: max(1, BPPBITS div 8) (10 R45). -/
def filterUnitOf (s : State) : Nat := max 1 (bppBits s / 8)

/-- SPR, samples per row (10 R45). -/
def samplesPerRow (s : State) : Nat := s.width * s.planes.toNat

/-- BITPOS, the absolute index of the next bit (10 R22). -/
def bitpos (s : State) : Nat := 8 * s.pos + s.bitoff - 8

end Sys2Proof.Machine
end

