-- ==== Sys2Proof/Machine/Huffman.lean ====
section
/-! DEFINITION. The canonical prefix-code builder BUILD (41 R150 to R155). A table is a list of code lengths, entry `s`
the length of symbol `s`, 0 for a symbol without a code (10 R29). -/

namespace Sys2Proof.Machine

/-- One symbol's code: `code` is read as a bit string of exactly `len` bits, most significant bit first (41 R150). -/
structure CodeWord where
  sym  : Nat
  len  : Nat
  code : Nat
  deriving DecidableEq, Repr

/-- How many entries of `T` equal `l`. -/
def countLen (l : Nat) : List Nat → Nat
  | [] => 0
  | t :: T => if t = l then countLen l T + 1 else countLen l T

/-- BLCOUNT[L] (41 R151): 0 for L = 0 whatever the number of zero entries. -/
def blCount (T : List Nat) (L : Nat) : Nat := if L = 0 then 0 else countLen L T

/-- The symbols with code length `l`, in ascending order; `s` is the symbol of the list's first entry. -/
def symbolsOfLen (l : Nat) : List Nat → Nat → List Nat
  | [], _ => []
  | t :: T, s => if t = l then s :: symbolsOfLen l T (s + 1) else symbolsOfLen l T (s + 1)

/-- "Consecutive codes of each length are allocated in ascending symbol order" (41 R150): the symbols of one length `l`
get the codes `c`, `c + 1`, ... -/
def consecutiveCodes (l : Nat) : List Nat → Nat → List CodeWord
  | [], _ => []
  | s :: ss, c => { sym := s, len := l, code := c } :: consecutiveCodes l ss (c + 1)

/-- The codes of the lengths `L`, `L + 1`, ..., `n` of them, the first code of length `L` being `c`; the first code of the
next length is `(c + BLCOUNT[L]) * 2` (41 R152). -/
def assignFrom (T : List Nat) : Nat → Nat → Nat → List CodeWord
  | 0, _, _ => []
  | n + 1, L, c => consecutiveCodes L (symbolsOfLen L T 0) c ++ assignFrom T n (L + 1) ((c + blCount T L) * 2)

/-- The code BUILD gives for `T` (41 R150 to R153), in the order of the codes: length by length from 1 to MAXL, NEXT[1] = 0,
and within a length by ascending symbol. -/
def codeWords (T : List Nat) (maxl : Nat) : List CodeWord := assignFrom T maxl 1 0

/-- `sum over L in 1..n of BLCOUNT[L] * 2^(MAXL - L)` (41 R154). -/
def kraftSum (T : List Nat) (maxl : Nat) : Nat → Nat
  | 0 => 0
  | n + 1 => kraftSum T maxl n + blCount T (n + 1) * 2 ^ (maxl - (n + 1))

/-- The over-subscription test of BUILD (41 R154). -/
def overSubscribed (T : List Nat) (maxl : Nat) : Bool := decide (2 ^ maxl < kraftSum T maxl maxl)

/-- A table of bit-vector lengths as the lengths BUILD works on. -/
def lengthsOf {n : Nat} (T : List (BitVec n)) : List Nat := T.map BitVec.toNat

/-- MAXL of the code-length code (41 R150). -/
def maxCl : Nat := 7

/-- MAXL of the literal/length and distance codes (41 R150). -/
def maxSym : Nat := 15

end Sys2Proof.Machine
end

