-- ==== Sys2Proof/Machine/Tables.lean ====
section
/-! DEFINITION. The constants of the design (10 R44): the permutation ORDER (30 R106), the length and distance
tables (30 R109, R110), the fixed code lengths (42 R176, R177). -/

namespace Sys2Proof.Machine

/-- ORDER (30 R106). -/
def order : List Nat := [16, 17, 18, 0, 8, 7, 9, 6, 10, 5, 11, 4, 12, 3, 13, 2, 14, 1, 15]

/-- (XL, BASEL) of the symbols 257 to 285 (30 R109). -/
def lengthTable : List (Nat × Nat) :=
  [(0, 3), (0, 4), (0, 5), (0, 6), (0, 7), (0, 8), (0, 9), (0, 10)] ++
  [(1, 11), (1, 13), (1, 15), (1, 17), (2, 19), (2, 23), (2, 27), (2, 31)] ++
  [(3, 35), (3, 43), (3, 51), (3, 59), (4, 67), (4, 83), (4, 99), (4, 115)] ++
  [(5, 131), (5, 163), (5, 195), (5, 227), (0, 258)]

/-- (XD, BASED) of the symbols 0 to 29 (30 R110). -/
def distanceTable : List (Nat × Nat) :=
  [(0, 1), (0, 2), (0, 3), (0, 4), (1, 5), (1, 7), (2, 9), (2, 13)] ++
  [(3, 17), (3, 25), (4, 33), (4, 49), (5, 65), (5, 97), (6, 129), (6, 193)] ++
  [(7, 257), (7, 385), (8, 513), (8, 769), (9, 1025), (9, 1537), (10, 2049), (10, 3073)] ++
  [(11, 4097), (11, 6145), (12, 8193), (12, 12289), (13, 16385), (13, 24577)]

/-- XL(s): the extra bits after literal/length symbol `s`, 0 for a symbol that is no length class (30 R108). -/
def lengthExtra (s : Nat) : Nat :=
  if s < 257 then 0 else ((lengthTable[s - 257]?).getD (0, 0)).1

/-- XD(d): the extra bits after distance symbol `d`, 0 for the symbols 30 and 31 (43 R280: none is read). -/
def distanceExtra (d : Nat) : Nat := ((distanceTable[d]?).getD (0, 0)).1

/-- FIXLL(s) (42 R176). -/
def fixLL (s : Nat) : Nat :=
  if s < 144 then 8 else if s < 256 then 9 else if s < 280 then 7 else 8

/-- FIXD(d) (42 R177). -/
def fixD (d : Nat) : Nat := if d < 30 then 5 else 0

/-- LLLEN of a fixed block (42 R173). -/
def fixedLL : List (BitVec 4) := (List.range 288).map fun s => BitVec.ofNat 4 (fixLL s)

/-- DLEN of a fixed block (42 R173). -/
def fixedD : List (BitVec 4) := (List.range 32).map fun d => BitVec.ofNat 4 (fixD d)

end Sys2Proof.Machine
end

