-- ==== Sys2Proof/Machine/Ops.lean ====
section
/-! DEFINITION. The shared operations: memory cells, taking a fault (60 R352) and the reset that is the only way out of one
(60 R354), APPEND, COPY, EMIT, the code-length list, BUILD's fault, and the moves between elements. -/

namespace Sys2Proof.Machine

open Sys2Proof

/-! ### Memory cells -/

/-- MemRead: the value of cell `a`, none where nothing has written it (00 R11, 10 R46). -/
def memRead {α : Type} : Memory α → Nat → Option α
  | [], _ => none
  | (b, v) :: m, a => if a = b then some v else memRead m a

/-- A read of cell `a` of a memory whose cells at or beyond `n` are unwritten whatever was stored there: IN beyond IN_LEN, OUT
beyond OUT_LEN, PIX beyond PIX_LEN (10 R46, 93 U4). -/
def readBelow {α : Type} (n : Nat) (m : Memory α) (a : Nat) : Option α := if a < n then memRead m a else none

/-- MemWrite: cell `a` takes the value `v`; the list stays sorted (00 R11). -/
def memWrite {α : Type} : Memory α → Nat → α → Memory α
  | [], a, v => [(a, v)]
  | (b, w) :: m, a, v =>
    if a < b then (a, v) :: (b, w) :: m
    else if a = b then (a, v) :: m
    else (b, w) :: memWrite m a v

/-! ### Faults of the CORE and reset -/

/-- `raise K` (60 R352): STATE <- FAULT, ERR <- K, and nothing else is written. What every other register and memory holds
after a fault is unspecified; the model leaves it as the rules left it, as R352 allows. DESIGN CHOICE (entry 7), unsafe. -/
def raise (k : ErrKind) (s : State) : State := { s with status := .fault, err := k }

/-- The reset of CTRL.RESET (70 R380), the only way out of FAULT (60 R354): every register takes its value after reset, and
the cells of IN, OUT and PIX, whose contents are unspecified, hold no value (entries 1, 2, 12). The parameters and the host's
own fields stay. -/
def resetCore (s : State) : State :=
  { State.reset with cap := s.cap, hostQueue := s.hostQueue, hostReply := s.hostReply, freeCount := s.freeCount }

/-- What a micro-operation does: it goes on, it raises a fault of the CORE, or the model stops. -/
inductive Act where
  | go    (s : State)
  | raise (k : ErrKind) (s : State)
  | stop  (f : Fault)
  deriving DecidableEq, Repr

/-- Go on with the next micro-operation; "no rule continues after a raise" (00 R12). -/
def Act.andThen (a : Act) (f : State → Act) : Act :=
  match a with
  | .go s => f s
  | .raise k s => .raise k s
  | .stop r => .stop r

/-- The outcome of an element: a raised fault is entered here. -/
def Act.outcome : Act → Host.Outcome State Fault Refusal
  | .go s => .next s
  | .raise k s => .next (Sys2Proof.Machine.raise k s)
  | .stop f => .fault f

/-! ### Writing OUT and PIX -/

/-- APPEND(b) (43 R201). -/
def append (b : Byte) (s : State) : Act :=
  if s.cap.outCap = some s.outLen then .raise .capacityExceeded s
  else .go { s with out := memWrite s.out s.outLen b, outLen := s.outLen + 1 }

/-- `n` steps of COPY: each reads OUT[OUT_LEN - DIST] with the OUT_LEN of that moment and appends it (43 R285). -/
def copySteps : Nat → State → Act
  | 0, s => .go s
  | n + 1, s =>
    match readBelow s.outLen s.out (s.outLen - s.dist.toNat) with
    | none => .stop .unwrittenCell
    | some b => (append b s).andThen (copySteps n)

/-- COPY (43 R285, R286). -/
def copy (s : State) : Act :=
  if s.outLen < s.dist.toNat then .raise .malformedBitstream s else copySteps s.len.toNat s

/-- EMIT(v) (45 R327). -/
def emit (v : Sample) (s : State) : Act :=
  if s.cap.pixCap = some s.pixLen then .raise .capacityExceeded s
  else .go { s with pix := memWrite s.pix s.pixLen v, pixLen := s.pixLen + 1 }

/-- EMIT the samples `f j`, `f (j + 1)`, ..., `n` of them; a sample of an unwritten byte of CUR is none. -/
def emitFrom (f : Nat → Option Sample) : Nat → Nat → State → Act
  | 0, _, s => .go s
  | n + 1, j, s =>
    match f j with
    | none => .stop .unwrittenCell
    | some v => (emit v s).andThen (emitFrom f n (j + 1))

/-! ### The code-length list -/

/-- NLIT + NDIST, the length of the list (42 R181). -/
def listTotal (s : State) : Nat := s.nlit.toNat + s.ndist.toNat

/-- `repeat r times: LENS[LIDX] <- v ; LIDX <- LIDX + 1` (42 R183 to R185). -/
def fillLens (v : BitVec 4) : Nat → State → State
  | 0, s => s
  | r + 1, s => fillLens v r { s with lens := s.lens.set s.lidx v, lidx := s.lidx + 1 }

/-- A run of `r` lengths `v`, with the overrun test before anything is written (42 R186). -/
def lensRun (r : Nat) (v : BitVec 4) (s : State) : Act :=
  if listTotal s < s.lidx + r then .raise .malformedBitstream s else .go (fillLens v r s)

/-- The tables of the fixed block (42 R173). -/
def installFixed (s : State) : State := { s with lllen := fixedLL, dlen := fixedD }

/-- The split of LENS into LLLEN and DLEN (42 R187). -/
def splitLens (s : State) : State :=
  { s with
    lllen := (List.range 288).map fun i => if i < s.nlit.toNat then s.lens.getD i 0 else 0
    dlen := (List.range 32).map fun d => if d < s.ndist.toNat then s.lens.getD (s.nlit.toNat + d) 0 else 0 }

/-- BUILD(LLLEN, 288, 15) ; BUILD(DLEN, 32, 15), then SYMBOLS (42 R173, R174, R188). The codes themselves are functions of
the tables (41 R160) and no state. -/
def buildSymbols (s : State) : Act :=
  if overSubscribed (lengthsOf s.lllen) maxSym then .raise .malformedBitstream s
  else if overSubscribed (lengthsOf s.dlen) maxSym then .raise .malformedBitstream s
  else .go { s with point := .symbols }

/-- BUILD(CLLEN, 19, 7), then CLLIST with LIDX <- 0, PREVLEN <- NONE (42 R174, R180, R181). -/
def buildCodeLengths (s : State) : Act :=
  if overSubscribed (lengthsOf s.cllen) maxCl then .raise .malformedBitstream s
  else .go { s with lidx := 0, prevlen := none, point := .codeLengths }

/-- The move after the last code length: split, build, go on to the symbols (42 R174). -/
def listEnd (s : State) : Act := buildSymbols (splitLens s)

/-! ### The ends of a block and of a phase -/

/-- Entry to phase SCAN (44 R290). -/
def scanEntry (s : State) : State :=
  { s with
    status := .scan, rowbytes := rowBytesOf s, fu := filterUnitOf s
    prior := List.replicate (rowBytesOf s) 0, rptr := 0, point := .scanline }

/-- The block loop after a block's EOB (42 R170): the next BHDR, or the end of phase INFLATE. -/
def blockEnd (s : State) : State :=
  if finalBlock s then
    if scanEnabled s then scanEntry s else { s with status := .done }
  else { s with point := .header }

/-- A complete scanline remains: RPTR + ROWBYTES + 1 <= OUT_LEN (44 R291). -/
def scanlineLeft (s : State) : Bool := decide (s.rptr + s.rowbytes + 1 ≤ s.outLen)

/-- The end of the scanline loop: the residual check, then DONE (44 R291, R300). -/
def scanEnd (s : State) : State :=
  if s.rptr = s.outLen then { s with status := .done } else raise .truncatedImageData s

/-- The end of a scanline after its UNPACK: PRIOR <- CUR, RPTR and ROWS advance (44 R291, R299). -/
def rowEnd (s : State) : State :=
  { s with prior := s.cur, rptr := s.rptr + s.rowbytes + 1, rows := s.rows + 1, point := .scanline }

/-- START while IDLE (70 R384, 60 R347). -/
def start (s : State) : State :=
  if scanEnabled s && !configOk s then raise .invalidConfig s
  else { s with status := .inflate, point := .header }

end Sys2Proof.Machine
end

