-- ==== Sys2Proof/Machine/BlockHeader.lean ====
section
/-! DEFINITION. The meanings of BHDR.STORED, BHDR.FIXED, BHDR.DYN, BHDR.RSV (42 R171 to R175). -/

namespace Sys2Proof.Machine

open Sys2Proof

/-- BFINAL and BTYPE as BHDR writes them (42 R171). -/
def setHeader (final : BitVec 1) (btype : BitVec 2) (s : State) : State := { s with bfinal := final, btype := btype }

/-- BHDR.STORED (42 R172): InvalidBlockType. -/
def execBhdrStored (final : BitVec 1) (s : State) : Host.Outcome State Fault Refusal :=
  .next (raise .invalidBlockType (setHeader final 0 s))

/-- BHDR.FIXED (42 R173): the fixed tables, BUILD (which "neither can fault"), then the symbols. -/
def execBhdrFixed (final : BitVec 1) (s : State) : Host.Outcome State Fault Refusal :=
  .next { installFixed (setHeader final 1 s) with point := .symbols }

/-- BHDR.DYN (42 R174): a DYNHDR follows. -/
def execBhdrDyn (final : BitVec 1) (s : State) : Host.Outcome State Fault Refusal :=
  .next { setHeader final 2 s with point := .dynHeader }

/-- BHDR.RSV (42 R175): InvalidBlockType. -/
def execBhdrRsv (final : BitVec 1) (s : State) : Host.Outcome State Fault Refusal :=
  .next (raise .invalidBlockType (setHeader final 3 s))

end Sys2Proof.Machine
end

