-- ==== Sys2Proof/Machine/CodeLength.lean ====
section
/-! DEFINITION. The meanings of CL.LEN, CL.REP, CL.Z3, CL.Z11 (42 R182 to R186). -/

namespace Sys2Proof.Machine

open Sys2Proof

/-- CL.LEN n (42 R182): LENS[LIDX] <- n, PREVLEN <- n. -/
def execClLen (n : BitVec 4) (s : State) : Host.Outcome State Fault Refusal :=
  .next { fillLens n 1 s with prevlen := some n }

/-- CL.REP (42 R183): the previous length 3 + e times; with no previous length MalformedBitstream. PREVLEN is unchanged. -/
def execClRep (e : BitVec 2) (s : State) : Host.Outcome State Fault Refusal :=
  match s.prevlen with
  | none => .next (raise .malformedBitstream s)
  | some v => (lensRun (3 + e.toNat) v s).outcome

/-- A run of zero lengths, after which the previous length is 0 (42 R184, R185). -/
def zeroRun (r : Nat) (s : State) : Act := (lensRun r 0 s).andThen fun t => .go { t with prevlen := some 0 }

/-- CL.Z3 (42 R184): 3 + e zero lengths. -/
def execClZ3 (e : BitVec 3) (s : State) : Host.Outcome State Fault Refusal := (zeroRun (3 + e.toNat) s).outcome

/-- CL.Z11 (42 R185): 11 + e zero lengths. -/
def execClZ11 (e : BitVec 7) (s : State) : Host.Outcome State Fault Refusal := (zeroRun (11 + e.toNat) s).outcome

end Sys2Proof.Machine
end

