-- ==== Sys2Proof/Machine/Distance.lean ====
section
/-! DEFINITION. The meanings of DIST0 to DIST29, DRSV30, DRSV31 (43 R205, R250 to R288). -/

namespace Sys2Proof.Machine

open Sys2Proof

/-- DIST <- `d`, then COPY (43 R205, R285); the symbol loop goes on (43 R200). -/
def copyFrom (d : Nat) (s : State) : Act :=
  (copy { s with dist := BitVec.ofNat 16 d }).andThen fun t => .go { t with point := .symbols }

/-- DIST0 (43 R250). -/
def execDist0 (s : State) : Host.Outcome State Fault Refusal := (copyFrom 1 s).outcome

/-- DIST1 (43 R251). -/
def execDist1 (s : State) : Host.Outcome State Fault Refusal := (copyFrom 2 s).outcome

/-- DIST2 (43 R252). -/
def execDist2 (s : State) : Host.Outcome State Fault Refusal := (copyFrom 3 s).outcome

/-- DIST3 (43 R253). -/
def execDist3 (s : State) : Host.Outcome State Fault Refusal := (copyFrom 4 s).outcome

/-- DIST4 (43 R254). -/
def execDist4 (e : BitVec 1) (s : State) : Host.Outcome State Fault Refusal :=
  (copyFrom (5 + e.toNat) s).outcome

/-- DIST5 (43 R255). -/
def execDist5 (e : BitVec 1) (s : State) : Host.Outcome State Fault Refusal :=
  (copyFrom (7 + e.toNat) s).outcome

/-- DIST6 (43 R256). -/
def execDist6 (e : BitVec 2) (s : State) : Host.Outcome State Fault Refusal :=
  (copyFrom (9 + e.toNat) s).outcome

/-- DIST7 (43 R257). -/
def execDist7 (e : BitVec 2) (s : State) : Host.Outcome State Fault Refusal :=
  (copyFrom (13 + e.toNat) s).outcome

/-- DIST8 (43 R258). -/
def execDist8 (e : BitVec 3) (s : State) : Host.Outcome State Fault Refusal :=
  (copyFrom (17 + e.toNat) s).outcome

/-- DIST9 (43 R259). -/
def execDist9 (e : BitVec 3) (s : State) : Host.Outcome State Fault Refusal :=
  (copyFrom (25 + e.toNat) s).outcome

/-- DIST10 (43 R260). -/
def execDist10 (e : BitVec 4) (s : State) : Host.Outcome State Fault Refusal :=
  (copyFrom (33 + e.toNat) s).outcome

/-- DIST11 (43 R261). -/
def execDist11 (e : BitVec 4) (s : State) : Host.Outcome State Fault Refusal :=
  (copyFrom (49 + e.toNat) s).outcome

/-- DIST12 (43 R262). -/
def execDist12 (e : BitVec 5) (s : State) : Host.Outcome State Fault Refusal :=
  (copyFrom (65 + e.toNat) s).outcome

/-- DIST13 (43 R263). -/
def execDist13 (e : BitVec 5) (s : State) : Host.Outcome State Fault Refusal :=
  (copyFrom (97 + e.toNat) s).outcome

/-- DIST14 (43 R264). -/
def execDist14 (e : BitVec 6) (s : State) : Host.Outcome State Fault Refusal :=
  (copyFrom (129 + e.toNat) s).outcome

/-- DIST15 (43 R265). -/
def execDist15 (e : BitVec 6) (s : State) : Host.Outcome State Fault Refusal :=
  (copyFrom (193 + e.toNat) s).outcome

/-- DIST16 (43 R266). -/
def execDist16 (e : BitVec 7) (s : State) : Host.Outcome State Fault Refusal :=
  (copyFrom (257 + e.toNat) s).outcome

/-- DIST17 (43 R267). -/
def execDist17 (e : BitVec 7) (s : State) : Host.Outcome State Fault Refusal :=
  (copyFrom (385 + e.toNat) s).outcome

/-- DIST18 (43 R268). -/
def execDist18 (e : BitVec 8) (s : State) : Host.Outcome State Fault Refusal :=
  (copyFrom (513 + e.toNat) s).outcome

/-- DIST19 (43 R269). -/
def execDist19 (e : BitVec 8) (s : State) : Host.Outcome State Fault Refusal :=
  (copyFrom (769 + e.toNat) s).outcome

/-- DIST20 (43 R270). -/
def execDist20 (e : BitVec 9) (s : State) : Host.Outcome State Fault Refusal :=
  (copyFrom (1025 + e.toNat) s).outcome

/-- DIST21 (43 R271). -/
def execDist21 (e : BitVec 9) (s : State) : Host.Outcome State Fault Refusal :=
  (copyFrom (1537 + e.toNat) s).outcome

/-- DIST22 (43 R272). -/
def execDist22 (e : BitVec 10) (s : State) : Host.Outcome State Fault Refusal :=
  (copyFrom (2049 + e.toNat) s).outcome

/-- DIST23 (43 R273). -/
def execDist23 (e : BitVec 10) (s : State) : Host.Outcome State Fault Refusal :=
  (copyFrom (3073 + e.toNat) s).outcome

/-- DIST24 (43 R274). -/
def execDist24 (e : BitVec 11) (s : State) : Host.Outcome State Fault Refusal :=
  (copyFrom (4097 + e.toNat) s).outcome

/-- DIST25 (43 R275). -/
def execDist25 (e : BitVec 11) (s : State) : Host.Outcome State Fault Refusal :=
  (copyFrom (6145 + e.toNat) s).outcome

/-- DIST26 (43 R276). -/
def execDist26 (e : BitVec 12) (s : State) : Host.Outcome State Fault Refusal :=
  (copyFrom (8193 + e.toNat) s).outcome

/-- DIST27 (43 R277). -/
def execDist27 (e : BitVec 12) (s : State) : Host.Outcome State Fault Refusal :=
  (copyFrom (12289 + e.toNat) s).outcome

/-- DIST28 (43 R278). -/
def execDist28 (e : BitVec 13) (s : State) : Host.Outcome State Fault Refusal :=
  (copyFrom (16385 + e.toNat) s).outcome

/-- DIST29 (43 R279). -/
def execDist29 (e : BitVec 13) (s : State) : Host.Outcome State Fault Refusal :=
  (copyFrom (24577 + e.toNat) s).outcome

/-- DRSV30 (43 R280): MalformedBitstream. -/
def execDrsv30 (s : State) : Host.Outcome State Fault Refusal := .next (raise .malformedBitstream s)

/-- DRSV31 (43 R281): MalformedBitstream. -/
def execDrsv31 (s : State) : Host.Outcome State Fault Refusal := .next (raise .malformedBitstream s)

end Sys2Proof.Machine
end

