-- ==== Sys2Proof/Machine/DynamicHeader.lean ====
section
/-! DEFINITION. The meanings of DYNHDR and CLCLEN (42 R178, R179). -/

namespace Sys2Proof.Machine

open Sys2Proof

/-- DYNHDR (42 R178): HLIT, HDIST, HCLEN and the counts they bias; no value is rejected. CLCLEN follows. -/
def execDynhdr (hlit hdist : BitVec 5) (hclen : BitVec 4) (s : State) : Host.Outcome State Fault Refusal :=
  .next { s with
    hlit := hlit, nlit := BitVec.ofNat 9 (hlit.toNat + 257)
    hdist := hdist, ndist := BitVec.ofNat 6 (hdist.toNat + 1)
    hclen := hclen, ncl := BitVec.ofNat 5 (hclen.toNat + 4)
    point := .clcLengths }

/-- `for j: CLLEN[ORDER[j]] <- field j` (42 R179). -/
def assignClc : List (BitVec 3) → List Nat → List (BitVec 3) → List (BitVec 3)
  | f :: fields, o :: order, T => assignClc fields order (T.set o f)
  | _, _, T => T

/-- CLCLEN (42 R179): all 19 entries of CLLEN, then BUILD of the code-length code (R180) and the start of CLLIST (R181). -/
def execClclen (fields : List (BitVec 3)) (s : State) : Host.Outcome State Fault Refusal :=
  (buildCodeLengths { s with cllen := assignClc fields order (List.replicate 19 0) }).outcome

end Sys2Proof.Machine
end

