-- ==== Sys2Proof/Machine/LiteralLength.lean ====
section
/-! DEFINITION. The meanings of LIT, EOB, LEN257 to LEN285, LLRSV286, LLRSV287 (43 R202 to R248). -/

namespace Sys2Proof.Machine

open Sys2Proof

/-- LIT b (43 R202): APPEND(b). -/
def execLit (b : Byte) (s : State) : Host.Outcome State Fault Refusal := (append b s).outcome

/-- EOB (43 R203): it writes nothing of its own; the block loop goes on (42 R170). -/
def execEob (s : State) : Host.Outcome State Fault Refusal := .next (blockEnd s)

/-- LEN <- `l`; the distance symbol follows (43 R204). -/
def setLength (l : Nat) (s : State) : State := { s with len := BitVec.ofNat 9 l, point := .distance }

/-- LEN257 (43 R220). -/
def execLen257 (s : State) : Host.Outcome State Fault Refusal := .next (setLength 3 s)

/-- LEN258 (43 R221). -/
def execLen258 (s : State) : Host.Outcome State Fault Refusal := .next (setLength 4 s)

/-- LEN259 (43 R222). -/
def execLen259 (s : State) : Host.Outcome State Fault Refusal := .next (setLength 5 s)

/-- LEN260 (43 R223). -/
def execLen260 (s : State) : Host.Outcome State Fault Refusal := .next (setLength 6 s)

/-- LEN261 (43 R224). -/
def execLen261 (s : State) : Host.Outcome State Fault Refusal := .next (setLength 7 s)

/-- LEN262 (43 R225). -/
def execLen262 (s : State) : Host.Outcome State Fault Refusal := .next (setLength 8 s)

/-- LEN263 (43 R226). -/
def execLen263 (s : State) : Host.Outcome State Fault Refusal := .next (setLength 9 s)

/-- LEN264 (43 R227). -/
def execLen264 (s : State) : Host.Outcome State Fault Refusal := .next (setLength 10 s)

/-- LEN265 (43 R228). -/
def execLen265 (e : BitVec 1) (s : State) : Host.Outcome State Fault Refusal :=
  .next (setLength (11 + e.toNat) s)

/-- LEN266 (43 R229). -/
def execLen266 (e : BitVec 1) (s : State) : Host.Outcome State Fault Refusal :=
  .next (setLength (13 + e.toNat) s)

/-- LEN267 (43 R230). -/
def execLen267 (e : BitVec 1) (s : State) : Host.Outcome State Fault Refusal :=
  .next (setLength (15 + e.toNat) s)

/-- LEN268 (43 R231). -/
def execLen268 (e : BitVec 1) (s : State) : Host.Outcome State Fault Refusal :=
  .next (setLength (17 + e.toNat) s)

/-- LEN269 (43 R232). -/
def execLen269 (e : BitVec 2) (s : State) : Host.Outcome State Fault Refusal :=
  .next (setLength (19 + e.toNat) s)

/-- LEN270 (43 R233). -/
def execLen270 (e : BitVec 2) (s : State) : Host.Outcome State Fault Refusal :=
  .next (setLength (23 + e.toNat) s)

/-- LEN271 (43 R234). -/
def execLen271 (e : BitVec 2) (s : State) : Host.Outcome State Fault Refusal :=
  .next (setLength (27 + e.toNat) s)

/-- LEN272 (43 R235). -/
def execLen272 (e : BitVec 2) (s : State) : Host.Outcome State Fault Refusal :=
  .next (setLength (31 + e.toNat) s)

/-- LEN273 (43 R236). -/
def execLen273 (e : BitVec 3) (s : State) : Host.Outcome State Fault Refusal :=
  .next (setLength (35 + e.toNat) s)

/-- LEN274 (43 R237). -/
def execLen274 (e : BitVec 3) (s : State) : Host.Outcome State Fault Refusal :=
  .next (setLength (43 + e.toNat) s)

/-- LEN275 (43 R238). -/
def execLen275 (e : BitVec 3) (s : State) : Host.Outcome State Fault Refusal :=
  .next (setLength (51 + e.toNat) s)

/-- LEN276 (43 R239). -/
def execLen276 (e : BitVec 3) (s : State) : Host.Outcome State Fault Refusal :=
  .next (setLength (59 + e.toNat) s)

/-- LEN277 (43 R240). -/
def execLen277 (e : BitVec 4) (s : State) : Host.Outcome State Fault Refusal :=
  .next (setLength (67 + e.toNat) s)

/-- LEN278 (43 R241). -/
def execLen278 (e : BitVec 4) (s : State) : Host.Outcome State Fault Refusal :=
  .next (setLength (83 + e.toNat) s)

/-- LEN279 (43 R242). -/
def execLen279 (e : BitVec 4) (s : State) : Host.Outcome State Fault Refusal :=
  .next (setLength (99 + e.toNat) s)

/-- LEN280 (43 R243). -/
def execLen280 (e : BitVec 4) (s : State) : Host.Outcome State Fault Refusal :=
  .next (setLength (115 + e.toNat) s)

/-- LEN281 (43 R244). -/
def execLen281 (e : BitVec 5) (s : State) : Host.Outcome State Fault Refusal :=
  .next (setLength (131 + e.toNat) s)

/-- LEN282 (43 R245). -/
def execLen282 (e : BitVec 5) (s : State) : Host.Outcome State Fault Refusal :=
  .next (setLength (163 + e.toNat) s)

/-- LEN283 (43 R246). -/
def execLen283 (e : BitVec 5) (s : State) : Host.Outcome State Fault Refusal :=
  .next (setLength (195 + e.toNat) s)

/-- LEN284 (43 R247). -/
def execLen284 (e : BitVec 5) (s : State) : Host.Outcome State Fault Refusal :=
  .next (setLength (227 + e.toNat) s)

/-- LEN285 (43 R248). -/
def execLen285 (s : State) : Host.Outcome State Fault Refusal := .next (setLength 258 s)

/-- LLRSV286 (43 R210): MalformedBitstream. -/
def execLlrsv286 (s : State) : Host.Outcome State Fault Refusal := .next (raise .malformedBitstream s)

/-- LLRSV287 (43 R211): MalformedBitstream. -/
def execLlrsv287 (s : State) : Host.Outcome State Fault Refusal := .next (raise .malformedBitstream s)

end Sys2Proof.Machine
end

