-- ==== Sys2Proof/Syntax.lean ====
section
/-! DEFINITION. The stream elements (00 R2, 30 R102): one constructor per row of spec/opcode_table.json.
An element carries its operand fields; a register it takes its operands from (the tables, LEN, DIST, the row
in OUT) is state and no field. -/

namespace Sys2Proof

/-- The eight formats of 30 R118. -/
inductive Format where
  | bhdr | dynhdr | clclen | cl | ll | d | scanline | unpack
  deriving DecidableEq, Repr

/-- The 86 stream elements of spec/opcode_table.json, in the table's order. -/
inductive Instr where
  /-- BHDR.STORED: block header with BTYPE = 0 (42 R172); the operand is BFINAL. -/
  | bhdrStored (final : BitVec 1)
  /-- BHDR.FIXED: block header with BTYPE = 1 (42 R173). -/
  | bhdrFixed (final : BitVec 1)
  /-- BHDR.DYN: block header with BTYPE = 2 (42 R174). -/
  | bhdrDyn (final : BitVec 1)
  /-- BHDR.RSV: block header with BTYPE = 3 (42 R175). -/
  | bhdrRsv (final : BitVec 1)
  /-- DYNHDR: the fields HLIT, HDIST, HCLEN (42 R178). -/
  | dynhdr (hlit hdist : BitVec 5) (hclen : BitVec 4)
  /-- CLCLEN: the NCL fields of 3 bits in stream order (42 R179). -/
  | clclen (fields : List (BitVec 3))
  /-- CL.LEN n: code-length symbols 0 to 15 (42 R182). -/
  | clLen (n : BitVec 4)
  /-- CL.REP: code-length symbol 16 with its 2 extra bits (42 R183). -/
  | clRep (e : BitVec 2)
  /-- CL.Z3: code-length symbol 17 with its 3 extra bits (42 R184). -/
  | clZ3 (e : BitVec 3)
  /-- CL.Z11: code-length symbol 18 with its 7 extra bits (42 R185). -/
  | clZ11 (e : BitVec 7)
  /-- LIT b: literal/length symbols 0 to 255 (43 R202). -/
  | lit (b : Byte)
  /-- EOB: literal/length symbol 256 (43 R203). -/
  | eob
  /-- LEN257: length 3 (43 R220). -/
  | len257
  /-- LEN258: length 4 (43 R221). -/
  | len258
  /-- LEN259: length 5 (43 R222). -/
  | len259
  /-- LEN260: length 6 (43 R223). -/
  | len260
  /-- LEN261: length 7 (43 R224). -/
  | len261
  /-- LEN262: length 8 (43 R225). -/
  | len262
  /-- LEN263: length 9 (43 R226). -/
  | len263
  /-- LEN264: length 10 (43 R227). -/
  | len264
  /-- LEN265: base 11, 1 extra bit (43 R228). -/
  | len265 (e : BitVec 1)
  /-- LEN266: base 13, 1 extra bit (43 R229). -/
  | len266 (e : BitVec 1)
  /-- LEN267: base 15, 1 extra bit (43 R230). -/
  | len267 (e : BitVec 1)
  /-- LEN268: base 17, 1 extra bit (43 R231). -/
  | len268 (e : BitVec 1)
  /-- LEN269: base 19, 2 extra bits (43 R232). -/
  | len269 (e : BitVec 2)
  /-- LEN270: base 23, 2 extra bits (43 R233). -/
  | len270 (e : BitVec 2)
  /-- LEN271: base 27, 2 extra bits (43 R234). -/
  | len271 (e : BitVec 2)
  /-- LEN272: base 31, 2 extra bits (43 R235). -/
  | len272 (e : BitVec 2)
  /-- LEN273: base 35, 3 extra bits (43 R236). -/
  | len273 (e : BitVec 3)
  /-- LEN274: base 43, 3 extra bits (43 R237). -/
  | len274 (e : BitVec 3)
  /-- LEN275: base 51, 3 extra bits (43 R238). -/
  | len275 (e : BitVec 3)
  /-- LEN276: base 59, 3 extra bits (43 R239). -/
  | len276 (e : BitVec 3)
  /-- LEN277: base 67, 4 extra bits (43 R240). -/
  | len277 (e : BitVec 4)
  /-- LEN278: base 83, 4 extra bits (43 R241). -/
  | len278 (e : BitVec 4)
  /-- LEN279: base 99, 4 extra bits (43 R242). -/
  | len279 (e : BitVec 4)
  /-- LEN280: base 115, 4 extra bits (43 R243). -/
  | len280 (e : BitVec 4)
  /-- LEN281: base 131, 5 extra bits (43 R244). -/
  | len281 (e : BitVec 5)
  /-- LEN282: base 163, 5 extra bits (43 R245). -/
  | len282 (e : BitVec 5)
  /-- LEN283: base 195, 5 extra bits (43 R246). -/
  | len283 (e : BitVec 5)
  /-- LEN284: base 227, 5 extra bits (43 R247). -/
  | len284 (e : BitVec 5)
  /-- LEN285: length 258 (43 R248). -/
  | len285
  /-- LLRSV286: literal/length symbol 286, which has no meaning (43 R210). -/
  | llrsv286
  /-- LLRSV287: literal/length symbol 287, which has no meaning (43 R211). -/
  | llrsv287
  /-- DIST0: distance 1 (43 R250). -/
  | dist0
  /-- DIST1: distance 2 (43 R251). -/
  | dist1
  /-- DIST2: distance 3 (43 R252). -/
  | dist2
  /-- DIST3: distance 4 (43 R253). -/
  | dist3
  /-- DIST4: base 5, 1 extra bit (43 R254). -/
  | dist4 (e : BitVec 1)
  /-- DIST5: base 7, 1 extra bit (43 R255). -/
  | dist5 (e : BitVec 1)
  /-- DIST6: base 9, 2 extra bits (43 R256). -/
  | dist6 (e : BitVec 2)
  /-- DIST7: base 13, 2 extra bits (43 R257). -/
  | dist7 (e : BitVec 2)
  /-- DIST8: base 17, 3 extra bits (43 R258). -/
  | dist8 (e : BitVec 3)
  /-- DIST9: base 25, 3 extra bits (43 R259). -/
  | dist9 (e : BitVec 3)
  /-- DIST10: base 33, 4 extra bits (43 R260). -/
  | dist10 (e : BitVec 4)
  /-- DIST11: base 49, 4 extra bits (43 R261). -/
  | dist11 (e : BitVec 4)
  /-- DIST12: base 65, 5 extra bits (43 R262). -/
  | dist12 (e : BitVec 5)
  /-- DIST13: base 97, 5 extra bits (43 R263). -/
  | dist13 (e : BitVec 5)
  /-- DIST14: base 129, 6 extra bits (43 R264). -/
  | dist14 (e : BitVec 6)
  /-- DIST15: base 193, 6 extra bits (43 R265). -/
  | dist15 (e : BitVec 6)
  /-- DIST16: base 257, 7 extra bits (43 R266). -/
  | dist16 (e : BitVec 7)
  /-- DIST17: base 385, 7 extra bits (43 R267). -/
  | dist17 (e : BitVec 7)
  /-- DIST18: base 513, 8 extra bits (43 R268). -/
  | dist18 (e : BitVec 8)
  /-- DIST19: base 769, 8 extra bits (43 R269). -/
  | dist19 (e : BitVec 8)
  /-- DIST20: base 1025, 9 extra bits (43 R270). -/
  | dist20 (e : BitVec 9)
  /-- DIST21: base 1537, 9 extra bits (43 R271). -/
  | dist21 (e : BitVec 9)
  /-- DIST22: base 2049, 10 extra bits (43 R272). -/
  | dist22 (e : BitVec 10)
  /-- DIST23: base 3073, 10 extra bits (43 R273). -/
  | dist23 (e : BitVec 10)
  /-- DIST24: base 4097, 11 extra bits (43 R274). -/
  | dist24 (e : BitVec 11)
  /-- DIST25: base 6145, 11 extra bits (43 R275). -/
  | dist25 (e : BitVec 11)
  /-- DIST26: base 8193, 12 extra bits (43 R276). -/
  | dist26 (e : BitVec 12)
  /-- DIST27: base 12289, 12 extra bits (43 R277). -/
  | dist27 (e : BitVec 12)
  /-- DIST28: base 16385, 13 extra bits (43 R278). -/
  | dist28 (e : BitVec 13)
  /-- DIST29: base 24577, 13 extra bits (43 R279). -/
  | dist29 (e : BitVec 13)
  /-- DRSV30: distance symbol 30, which has no meaning (43 R280). -/
  | drsv30
  /-- DRSV31: distance symbol 31, which has no meaning (43 R281). -/
  | drsv31
  /-- FILT.NONE: a scanline with FT = 0 (44 R293). -/
  | filtNone
  /-- FILT.SUB: a scanline with FT = 1 (44 R294). -/
  | filtSub
  /-- FILT.UP: a scanline with FT = 2 (44 R295). -/
  | filtUp
  /-- FILT.AVG: a scanline with FT = 3 (44 R296). -/
  | filtAvg
  /-- FILT.PAETH: a scanline with FT = 4 (44 R297). -/
  | filtPaeth
  /-- FILT.INV: a scanline whose FT is 5 to 255 (44 R298); the operand is FT. -/
  | filtInv (ft : Byte)
  /-- UNPK1: unpack a row at BITDEPTH = 1 (45 R323). -/
  | unpk1
  /-- UNPK2: unpack a row at BITDEPTH = 2 (45 R324). -/
  | unpk2
  /-- UNPK4: unpack a row at BITDEPTH = 4 (45 R325). -/
  | unpk4
  /-- UNPK8: unpack a row at BITDEPTH = 8 (45 R321). -/
  | unpk8
  /-- UNPK16: unpack a row at BITDEPTH = 16 (45 R322). -/
  | unpk16
  deriving DecidableEq, Repr

end Sys2Proof
end

