-- ==== Sys2Proof/WellFormed.lean ====
section
/-! DEFINITION. Which terms of `Instr` are elements of the stream: the two checks the types do not make. -/

namespace Sys2Proof

/-- CLCLEN has NCL = HCLEN + 4 fields, 4 to 19 (30 R105, R106); FILT.INV is FT = 5 to 255 (30 R112).
Every other field is as wide as its type says. -/
def Instr.wellFormed : Instr → Bool
  | .clclen fields => decide (4 ≤ fields.length) && decide (fields.length ≤ 19)
  | .filtInv ft => decide (5 ≤ ft.toNat)
  | _ => true

end Sys2Proof
end

