-- ==== Sys2Proof/Decode.lean ====
section
/-! DEFINITION. The decoder of stream elements and its encoder (30 R100 to R118, 40 R142, 41 R156). The decoder is written
once over a reader of bits; the machine gives it READBIT (40 R141), a test gives it a list of bits. -/

namespace Sys2Proof

open Sys2Proof.Machine

/-! ### Readers of bits -/

/-- Why a read or a decode stops. -/
inductive Stop where
  /-- A bit is wanted and the stream has none (40 R143). -/
  | exhausted
  /-- A bit is wanted from a cell of IN that nothing has written (10 R46). -/
  | unwritten
  /-- The bits read are neither a code nor a proper prefix of a code (41 R157). -/
  | malformed
  /-- The number read selects no element: BITDEPTH other than 1, 2, 4, 8, 16 (45 R320), or a symbol beyond the alphabet. -/
  | noElement
  deriving DecidableEq, Repr

/-- The answer of a reader over sources `σ`: a value and the source behind it, or a stop and the source as the reads left it. -/
inductive Got (σ α : Type) where
  | got  (a : α) (s : σ)
  | stop (why : Stop) (s : σ)
  deriving DecidableEq, Repr

/-- Go on with what was read; a stop stays a stop. -/
def Got.andThen {σ α β : Type} (g : Got σ α) (f : α → σ → Got σ β) : Got σ β :=
  match g with
  | .got a s => f a s
  | .stop w s => .stop w s

/-- READBITS(n) over the reader `rd`: the first bit read is the least significant (30 R101, 40 R142). -/
def readField {σ : Type} (rd : σ → Got σ Bool) : Nat → σ → Got σ Nat
  | 0, s => .got 0 s
  | n + 1, s => (rd s).andThen fun b t => (readField rd n t).andThen fun v u => .got (b.toNat + 2 * v) u

/-- `n` fields of 3 bits in stream order (30 R106). -/
def readLengths {σ : Type} (rd : σ → Got σ Bool) : Nat → σ → Got σ (List (BitVec 3))
  | 0, s => .got [] s
  | n + 1, s => (readField rd 3 s).andThen fun v t =>
      (readLengths rd n t).andThen fun vs u => .got (BitVec.ofNat 3 v :: vs) u

/-- The loop of DECODE (41 R156) with CODE and CLEN as far as they are walked. The number is how many bits may still be
read: MAXL at the start, and after MAXL bits no longer code exists (41 R158). -/
def walkCode {σ : Type} (rd : σ → Got σ Bool) (codes : List CodeWord) : Nat → Nat → Nat → σ → Got σ CodeWord
  | 0, _, _, s => .stop .malformed s
  | n + 1, code, clen, s => (rd s).andThen fun b t =>
      match codes.find? fun w => w.len == clen + 1 && w.code == code * 2 + b.toNat with
      | some w => .got w t
      | none =>
        if codes.any fun w => decide (clen + 1 < w.len) && w.code / 2 ^ (w.len - (clen + 1)) == code * 2 + b.toNat
        then walkCode rd codes n (code * 2 + b.toNat) (clen + 1) t
        else .stop .malformed t

/-- DECODE(T) (41 R156): the symbol, its length and its code. -/
def decodeSymbol {σ : Type} (rd : σ → Got σ Bool) (T : List Nat) (maxl : Nat) (s : σ) : Got σ CodeWord :=
  walkCode rd (codeWords T maxl) maxl 0 0 s

/-! ### From numbers to elements -/

/-- The block header with w = READBITS(3): BFINAL = w[0], BTYPE = w[2:1] (30 R104). -/
def headerInstr (w : Nat) : Instr :=
  let final := BitVec.ofNat 1 w
  if w / 2 % 4 = 0 then .bhdrStored final
  else if w / 2 % 4 = 1 then .bhdrFixed final
  else if w / 2 % 4 = 2 then .bhdrDyn final
  else .bhdrRsv final

/-- The extra bits read after code-length symbol `s` (30 R107). CL.REP with no previous length raises before its extra
bits are read (42 R183), so none is read then. -/
def clExtra (hasPrev : Bool) (s : Nat) : Nat :=
  if s = 16 then (if hasPrev then 2 else 0) else if s = 17 then 3 else if s = 18 then 7 else 0

/-- Code-length symbol `s` with extra value `e` (42 R181). -/
def clInstr (s e : Nat) : Option Instr :=
  if s < 16 then some (.clLen (BitVec.ofNat 4 s))
  else if s = 16 then some (.clRep (BitVec.ofNat 2 e))
  else if s = 17 then some (.clZ3 (BitVec.ofNat 3 e))
  else if s = 18 then some (.clZ11 (BitVec.ofNat 7 e))
  else none

/-- LEN257 to LEN285 with their extra values (43 R220 to R248). -/
def lengthForms : List (Nat → Instr) :=
  [fun _ => .len257, fun _ => .len258, fun _ => .len259, fun _ => .len260] ++
  [fun _ => .len261, fun _ => .len262, fun _ => .len263, fun _ => .len264] ++
  [fun e => .len265 (BitVec.ofNat 1 e), fun e => .len266 (BitVec.ofNat 1 e), fun e => .len267 (BitVec.ofNat 1 e), fun e => .len268 (BitVec.ofNat 1 e)] ++
  [fun e => .len269 (BitVec.ofNat 2 e), fun e => .len270 (BitVec.ofNat 2 e), fun e => .len271 (BitVec.ofNat 2 e), fun e => .len272 (BitVec.ofNat 2 e)] ++
  [fun e => .len273 (BitVec.ofNat 3 e), fun e => .len274 (BitVec.ofNat 3 e), fun e => .len275 (BitVec.ofNat 3 e), fun e => .len276 (BitVec.ofNat 3 e)] ++
  [fun e => .len277 (BitVec.ofNat 4 e), fun e => .len278 (BitVec.ofNat 4 e), fun e => .len279 (BitVec.ofNat 4 e), fun e => .len280 (BitVec.ofNat 4 e)] ++
  [fun e => .len281 (BitVec.ofNat 5 e), fun e => .len282 (BitVec.ofNat 5 e), fun e => .len283 (BitVec.ofNat 5 e), fun e => .len284 (BitVec.ofNat 5 e)] ++
  [fun _ => .len285]

/-- DIST0 to DIST29 with their extra values, DRSV30, DRSV31 (43 R250 to R281). -/
def distanceForms : List (Nat → Instr) :=
  [fun _ => .dist0, fun _ => .dist1, fun _ => .dist2, fun _ => .dist3] ++
  [fun e => .dist4 (BitVec.ofNat 1 e), fun e => .dist5 (BitVec.ofNat 1 e), fun e => .dist6 (BitVec.ofNat 2 e), fun e => .dist7 (BitVec.ofNat 2 e)] ++
  [fun e => .dist8 (BitVec.ofNat 3 e), fun e => .dist9 (BitVec.ofNat 3 e), fun e => .dist10 (BitVec.ofNat 4 e), fun e => .dist11 (BitVec.ofNat 4 e)] ++
  [fun e => .dist12 (BitVec.ofNat 5 e), fun e => .dist13 (BitVec.ofNat 5 e), fun e => .dist14 (BitVec.ofNat 6 e), fun e => .dist15 (BitVec.ofNat 6 e)] ++
  [fun e => .dist16 (BitVec.ofNat 7 e), fun e => .dist17 (BitVec.ofNat 7 e), fun e => .dist18 (BitVec.ofNat 8 e), fun e => .dist19 (BitVec.ofNat 8 e)] ++
  [fun e => .dist20 (BitVec.ofNat 9 e), fun e => .dist21 (BitVec.ofNat 9 e), fun e => .dist22 (BitVec.ofNat 10 e), fun e => .dist23 (BitVec.ofNat 10 e)] ++
  [fun e => .dist24 (BitVec.ofNat 11 e), fun e => .dist25 (BitVec.ofNat 11 e), fun e => .dist26 (BitVec.ofNat 12 e), fun e => .dist27 (BitVec.ofNat 12 e)] ++
  [fun e => .dist28 (BitVec.ofNat 13 e), fun e => .dist29 (BitVec.ofNat 13 e), fun _ => .drsv30, fun _ => .drsv31]

/-- Literal/length symbol `s` with extra value `e` (43 R200). -/
def llInstr (s e : Nat) : Option Instr :=
  if s < 256 then some (.lit (BitVec.ofNat 8 s))
  else if s = 256 then some .eob
  else if s < 286 then (lengthForms[s - 257]?).map fun f => f e
  else if s = 286 then some .llrsv286
  else if s = 287 then some .llrsv287
  else none

/-- Distance symbol `d` with extra value `e` (43 R204). -/
def distanceInstr (d e : Nat) : Option Instr := (distanceForms[d]?).map fun f => f e

/-- The scanline element with filter-type byte `ft` (30 R112). -/
def scanlineInstr (ft : Nat) : Instr :=
  if ft = 0 then .filtNone
  else if ft = 1 then .filtSub
  else if ft = 2 then .filtUp
  else if ft = 3 then .filtAvg
  else if ft = 4 then .filtPaeth
  else .filtInv (BitVec.ofNat 8 ft)

/-- The unpack element BITDEPTH selects (45 R320). -/
def unpackInstr (depth : Nat) : Option Instr :=
  if depth = 1 then some .unpk1
  else if depth = 2 then some .unpk2
  else if depth = 4 then some .unpk4
  else if depth = 8 then some .unpk8
  else if depth = 16 then some .unpk16
  else none

/-! ### The decoder -/

/-- Which element is read next, with what its decoding depends on: the tables of the block (30 R115), NCL, and whether
there is a previous length (42 R183). -/
inductive Context where
  | header
  | dynHeader
  | clcLengths (ncl : Nat)
  | clSymbol (cllen : List Nat) (hasPrev : Bool)
  | llSymbol (lllen : List Nat)
  | distance (dlen : List Nat)
  | scanline
  | unpack
  deriving DecidableEq, Repr

/-- What a decode gives: the element, and the code DECODE walked where the element has a prefix code. -/
structure Decoded where
  instr  : Instr
  walked : Option CodeWord
  deriving DecidableEq, Repr

/-- An element without a prefix code. -/
def plainElement {σ : Type} (i : Instr) (s : σ) : Got σ Decoded := .got { instr := i, walked := none } s

/-- An element selected by a number, if the number selects one. -/
def selected {σ : Type} (i : Option Instr) (w : Option CodeWord) (s : σ) : Got σ Decoded :=
  match i with
  | some i => .got { instr := i, walked := w } s
  | none => .stop .noElement s

/-- An element with a prefix code (30 R107, R108, R110): DECODE(T), then `extra symbol` extra bits. -/
def codedElement {σ : Type} (rd : σ → Got σ Bool) (T : List Nat) (maxl : Nat) (extra : Nat → Nat)
    (form : Nat → Nat → Option Instr) (s : σ) : Got σ Decoded :=
  (decodeSymbol rd T maxl s).andThen fun w t =>
    (readField rd (extra w.sym) t).andThen fun e u => selected (form w.sym e) (some w) u

/-- The decoder: the element the bits of `s` hold in context `c`, read bit by bit through `rd` (30 R102). A scanline is
selected by its 8-bit byte FT, an unpack element by the 5 bits of BITDEPTH (30 R118). -/
def decode {σ : Type} (rd : σ → Got σ Bool) (c : Context) (s : σ) : Got σ Decoded :=
  match c with
  | .header => (readField rd 3 s).andThen fun w t => plainElement (headerInstr w) t
  | .dynHeader => (readField rd 5 s).andThen fun l t => (readField rd 5 t).andThen fun h u =>
      (readField rd 4 u).andThen fun k v =>
        plainElement (.dynhdr (BitVec.ofNat 5 l) (BitVec.ofNat 5 h) (BitVec.ofNat 4 k)) v
  | .clcLengths n => (readLengths rd n s).andThen fun fs t => plainElement (.clclen fs) t
  | .clSymbol T hasPrev => codedElement rd T maxCl (clExtra hasPrev) clInstr s
  | .llSymbol T => codedElement rd T maxSym lengthExtra llInstr s
  | .distance T => codedElement rd T maxSym distanceExtra distanceInstr s
  | .scanline => (readField rd 8 s).andThen fun ft t => plainElement (scanlineInstr ft) t
  | .unpack => (readField rd 5 s).andThen fun d t => selected (unpackInstr d) none t

/-- The reader of a list of bits in stream order. -/
def listReader : List Bool → Got (List Bool) Bool
  | [] => .stop .exhausted []
  | b :: bs => .got b bs

/-- The decoder on a list of bits in stream order: the element and the bits behind it, or why there is none. -/
def decodeBits (c : Context) (bits : List Bool) : Got (List Bool) Decoded := decode listReader c bits

/-! ### The encoder -/

/-- The format of an element (30 R118). -/
def Instr.format : Instr → Format
  | .bhdrStored _ | .bhdrFixed _ | .bhdrDyn _ | .bhdrRsv _ => .bhdr
  | .dynhdr _ _ _ => .dynhdr
  | .clclen _ => .clclen
  | .clLen _ | .clRep _ | .clZ3 _ | .clZ11 _ => .cl
  | .lit _ | .eob | .len257 | .len258 | .len259 | .len260 | .len261 | .len262
  | .len263 | .len264 | .len265 _ | .len266 _ | .len267 _ | .len268 _ | .len269 _ | .len270 _
  | .len271 _ | .len272 _ | .len273 _ | .len274 _ | .len275 _ | .len276 _ | .len277 _ | .len278 _
  | .len279 _ | .len280 _ | .len281 _ | .len282 _ | .len283 _ | .len284 _ | .len285 | .llrsv286
  | .llrsv287 => .ll
  | .dist0 | .dist1 | .dist2 | .dist3 | .dist4 _ | .dist5 _ | .dist6 _ | .dist7 _
  | .dist8 _ | .dist9 _ | .dist10 _ | .dist11 _ | .dist12 _ | .dist13 _ | .dist14 _ | .dist15 _
  | .dist16 _ | .dist17 _ | .dist18 _ | .dist19 _ | .dist20 _ | .dist21 _ | .dist22 _ | .dist23 _
  | .dist24 _ | .dist25 _ | .dist26 _ | .dist27 _ | .dist28 _ | .dist29 _ | .drsv30 | .drsv31 => .d
  | .filtNone | .filtSub | .filtUp | .filtAvg | .filtPaeth | .filtInv _ => .scanline
  | .unpk1 | .unpk2 | .unpk4 | .unpk8 | .unpk16 => .unpack

/-- The number the table's match and mask apply to (30 R118): the header field w, the 14 bits of DYNHDR, the symbol number,
the byte FT, BITDEPTH. CLCLEN has no opcode bits. -/
def Instr.number : Instr → Nat
  | .bhdrStored f => f.toNat
  | .bhdrFixed f => f.toNat + 2
  | .bhdrDyn f => f.toNat + 4
  | .bhdrRsv f => f.toNat + 6
  | .dynhdr l h c => l.toNat + 32 * h.toNat + 1024 * c.toNat
  | .clclen _ => 0
  | .clLen k => k.toNat
  | .clRep _ => 16
  | .clZ3 _ => 17
  | .clZ11 _ => 18
  | .lit b => b.toNat
  | .eob => 256
  | .len257 => 257
  | .len258 => 258
  | .len259 => 259
  | .len260 => 260
  | .len261 => 261
  | .len262 => 262
  | .len263 => 263
  | .len264 => 264
  | .len265 _ => 265
  | .len266 _ => 266
  | .len267 _ => 267
  | .len268 _ => 268
  | .len269 _ => 269
  | .len270 _ => 270
  | .len271 _ => 271
  | .len272 _ => 272
  | .len273 _ => 273
  | .len274 _ => 274
  | .len275 _ => 275
  | .len276 _ => 276
  | .len277 _ => 277
  | .len278 _ => 278
  | .len279 _ => 279
  | .len280 _ => 280
  | .len281 _ => 281
  | .len282 _ => 282
  | .len283 _ => 283
  | .len284 _ => 284
  | .len285 => 285
  | .llrsv286 => 286
  | .llrsv287 => 287
  | .dist0 => 0
  | .dist1 => 1
  | .dist2 => 2
  | .dist3 => 3
  | .dist4 _ => 4
  | .dist5 _ => 5
  | .dist6 _ => 6
  | .dist7 _ => 7
  | .dist8 _ => 8
  | .dist9 _ => 9
  | .dist10 _ => 10
  | .dist11 _ => 11
  | .dist12 _ => 12
  | .dist13 _ => 13
  | .dist14 _ => 14
  | .dist15 _ => 15
  | .dist16 _ => 16
  | .dist17 _ => 17
  | .dist18 _ => 18
  | .dist19 _ => 19
  | .dist20 _ => 20
  | .dist21 _ => 21
  | .dist22 _ => 22
  | .dist23 _ => 23
  | .dist24 _ => 24
  | .dist25 _ => 25
  | .dist26 _ => 26
  | .dist27 _ => 27
  | .dist28 _ => 28
  | .dist29 _ => 29
  | .drsv30 => 30
  | .drsv31 => 31
  | .filtNone => 0
  | .filtSub => 1
  | .filtUp => 2
  | .filtAvg => 3
  | .filtPaeth => 4
  | .filtInv ft => ft.toNat
  | .unpk1 => 1
  | .unpk2 => 2
  | .unpk4 => 4
  | .unpk8 => 8
  | .unpk16 => 16

/-- The value of the element's extra bits, 0 where it has none (30 R114). -/
def Instr.extra : Instr → Nat
  | .clRep e => e.toNat
  | .clZ3 e => e.toNat
  | .clZ11 e => e.toNat
  | .len265 e => e.toNat
  | .len266 e => e.toNat
  | .len267 e => e.toNat
  | .len268 e => e.toNat
  | .len269 e => e.toNat
  | .len270 e => e.toNat
  | .len271 e => e.toNat
  | .len272 e => e.toNat
  | .len273 e => e.toNat
  | .len274 e => e.toNat
  | .len275 e => e.toNat
  | .len276 e => e.toNat
  | .len277 e => e.toNat
  | .len278 e => e.toNat
  | .len279 e => e.toNat
  | .len280 e => e.toNat
  | .len281 e => e.toNat
  | .len282 e => e.toNat
  | .len283 e => e.toNat
  | .len284 e => e.toNat
  | .dist4 e => e.toNat
  | .dist5 e => e.toNat
  | .dist6 e => e.toNat
  | .dist7 e => e.toNat
  | .dist8 e => e.toNat
  | .dist9 e => e.toNat
  | .dist10 e => e.toNat
  | .dist11 e => e.toNat
  | .dist12 e => e.toNat
  | .dist13 e => e.toNat
  | .dist14 e => e.toNat
  | .dist15 e => e.toNat
  | .dist16 e => e.toNat
  | .dist17 e => e.toNat
  | .dist18 e => e.toNat
  | .dist19 e => e.toNat
  | .dist20 e => e.toNat
  | .dist21 e => e.toNat
  | .dist22 e => e.toNat
  | .dist23 e => e.toNat
  | .dist24 e => e.toNat
  | .dist25 e => e.toNat
  | .dist26 e => e.toNat
  | .dist27 e => e.toNat
  | .dist28 e => e.toNat
  | .dist29 e => e.toNat
  | _ => 0

/-- A numeric field of `n` bits, least significant bit first (30 R101). -/
def fieldBits : Nat → Nat → List Bool
  | 0, _ => []
  | n + 1, v => (v % 2 == 1) :: fieldBits n (v / 2)

/-- A prefix code of `n` bits, most significant bit first (30 R103). -/
def codeBits : Nat → Nat → List Bool
  | 0, _ => []
  | n + 1, c => (c / 2 ^ n % 2 == 1) :: codeBits n c

/-- The code of symbol `s` in the code of `T`, most significant bit first; nothing if it has none (41 R150). -/
def symbolBits (T : List Nat) (maxl s : Nat) : List Bool :=
  match (codeWords T maxl).find? fun w => w.sym == s with
  | some w => codeBits w.len w.code
  | none => []

/-- The fields of CLCLEN (30 R106). -/
def Instr.clcFields : Instr → List (BitVec 3)
  | .clclen fields => fields
  | _ => []

/-- The bits of element `i` in stream order, in the context `c` (30 R102 to R113). -/
def encode (c : Context) (i : Instr) : List Bool :=
  match c with
  | .header => fieldBits 3 i.number
  | .dynHeader => fieldBits 14 i.number
  | .clcLengths _ => i.clcFields.flatMap fun f => fieldBits 3 f.toNat
  | .clSymbol T hasPrev => symbolBits T maxCl i.number ++ fieldBits (clExtra hasPrev i.number) i.extra
  | .llSymbol T => symbolBits T maxSym i.number ++ fieldBits (lengthExtra i.number) i.extra
  | .distance T => symbolBits T maxSym i.number ++ fieldBits (distanceExtra i.number) i.extra
  | .scanline => fieldBits 8 i.number
  | .unpack => fieldBits 5 i.number

/-- The formats that are read in context `c`. -/
def Context.format : Context → Format
  | .header => .bhdr
  | .dynHeader => .dynhdr
  | .clcLengths _ => .clclen
  | .clSymbol _ _ => .cl
  | .llSymbol _ => .ll
  | .distance _ => .d
  | .scanline => .scanline
  | .unpack => .unpack

/-- Element `i` can be written in context `c`: it is well formed and of the context's format; CLCLEN has the context's NCL
fields; a symbol has a code of a length its table's MAXL allows; CL.REP has a previous length or no extra value. -/
def fits (c : Context) (i : Instr) : Bool :=
  i.wellFormed && i.format == c.format &&
  match c with
  | .clcLengths n => i.clcFields.length == n
  | .clSymbol T hasPrev => decide (0 < T.getD i.number 0) && (hasPrev || i.number != 16 || i.extra == 0)
  | .llSymbol T => decide (0 < T.getD i.number 0)
  | .distance T => decide (0 < T.getD i.number 0)
  | _ => true

/-- Pack bits into bytes, the first bit into bit 0 of the first byte, the last byte padded with 0 (30 R100, R130). -/
def packBits : List Bool → List Byte
  | [] => []
  | [a] => [BitVec.ofNat 8 a.toNat]
  | [a, b] => [BitVec.ofNat 8 (a.toNat + 2 * b.toNat)]
  | [a, b, c] => [BitVec.ofNat 8 (a.toNat + 2 * b.toNat + 4 * c.toNat)]
  | [a, b, c, d] => [BitVec.ofNat 8 (a.toNat + 2 * b.toNat + 4 * c.toNat + 8 * d.toNat)]
  | [a, b, c, d, e] => [BitVec.ofNat 8 (a.toNat + 2 * b.toNat + 4 * c.toNat + 8 * d.toNat + 16 * e.toNat)]
  | [a, b, c, d, e, f] =>
    [BitVec.ofNat 8 (a.toNat + 2 * b.toNat + 4 * c.toNat + 8 * d.toNat + 16 * e.toNat + 32 * f.toNat)]
  | [a, b, c, d, e, f, g] =>
    [BitVec.ofNat 8 (a.toNat + 2 * b.toNat + 4 * c.toNat + 8 * d.toNat + 16 * e.toNat + 32 * f.toNat + 64 * g.toNat)]
  | a :: b :: c :: d :: e :: f :: g :: h :: rest =>
    BitVec.ofNat 8 (a.toNat + 2 * b.toNat + 4 * c.toNat + 8 * d.toNat + 16 * e.toNat + 32 * f.toNat + 64 * g.toNat
      + 128 * h.toNat) :: packBits rest

/-! ### The pseudo-instructions of SASM (30 R131) -/

/-- The unique length symbol other than the pair (284, e = 31) whose range holds `L` (30 R131). -/
def matchLength (L : Nat) : Option (Nat × Nat) :=
  if L = 258 then some (285, 0)
  else
    ((List.range 29).find? fun k =>
      let row := (lengthTable[k]?).getD (0, 0)
      decide (row.2 ≤ L) && decide (L ≤ row.2 + 2 ^ row.1 - 1)).map fun k =>
        (k + 257, L - ((lengthTable[k]?).getD (0, 0)).2)

/-- The unique distance symbol whose range holds `D` (30 R131). -/
def matchDistance (D : Nat) : Option (Nat × Nat) :=
  ((List.range 30).find? fun d =>
    let row := (distanceTable[d]?).getD (0, 0)
    decide (row.2 ≤ D) && decide (D ≤ row.2 + 2 ^ row.1 - 1)).map fun d =>
      (d, D - ((distanceTable[d]?).getD (0, 0)).2)

/-- `MATCH len=L dist=D` (30 R131): a length element and a distance element. -/
def sasmMatch (L D : Nat) : Option (Instr × Instr) :=
  match matchLength L, matchDistance D with
  | some l, some d =>
    match llInstr l.1 l.2, distanceInstr d.1 d.2 with
    | some i, some j => some (i, j)
    | _, _ => none
  | _, _ => none

/-- `FIXED final=f` (30 R131). -/
def sasmFixed (f : BitVec 1) : Instr := .bhdrFixed f

/-- `DYN final=f` (30 R131). -/
def sasmDyn (f : BitVec 1) : Instr := .bhdrDyn f

/-! ### The opcode table's own numbering of bits -/

/-- A row of spec/opcode_table.json: its format, the bits the table gives it in whole bytes, mask and match. -/
structure TableRow where
  format  : Format
  nbits   : Nat
  mask    : Nat
  pattern : Nat
  deriving DecidableEq, Repr

/-- The rows of spec/opcode_table.json in its order, less the three that have no opcode bits (DYNHDR, CLCLEN, FILT.INV).
CL.Z11 and DIST18 to DIST29 have 16 bits because the table lists extra fields of theirs above bit 7. -/
def opcodeRows : List TableRow :=
  [⟨.bhdr, 8, 0x06, 0x00⟩, ⟨.bhdr, 8, 0x06, 0x02⟩, ⟨.bhdr, 8, 0x06, 0x04⟩, ⟨.bhdr, 8, 0x06, 0x06⟩] ++
  [⟨.cl, 8, 0x10, 0x00⟩, ⟨.cl, 8, 0x1F, 0x10⟩, ⟨.cl, 8, 0x1F, 0x11⟩, ⟨.cl, 16, 0x1F, 0x12⟩] ++
  (⟨.ll, 16, 0x100, 0x000⟩ :: (List.range 32).map fun k => ⟨.ll, 16, 0x1FF, 0x100 + k⟩) ++
  ((List.range 18).map fun d => ⟨.d, 8, 0x1F, d⟩) ++
  ((List.range 12).map fun d => ⟨.d, 16, 0x1F, 18 + d⟩) ++
  [⟨.d, 8, 0x1F, 30⟩, ⟨.d, 8, 0x1F, 31⟩] ++
  ((List.range 5).map fun f => ⟨.scanline, 8, 0xFF, f⟩) ++
  [⟨.unpack, 8, 0x1F, 1⟩, ⟨.unpack, 8, 0x1F, 2⟩, ⟨.unpack, 8, 0x1F, 4⟩, ⟨.unpack, 8, 0x1F, 8⟩, ⟨.unpack, 8, 0x1F, 16⟩]

/-- The format a table word is read in. The table numbers symbols, bytes and a register, not one opcode space, so a word
of a given width may meet rows of several formats (30 R118): the first row, in the table's order, whose match value is the
word itself; else the first row whose mask it meets. DESIGN CHOICE (entry 13). -/
def tableFormat (nbits w : Nat) : Option Format :=
  match opcodeRows.find? fun r => r.nbits == nbits && r.pattern == w with
  | some r => some r.format
  | none => (opcodeRows.find? fun r => r.nbits == nbits && w &&& r.mask == r.pattern).map TableRow.format

/-- A table in which every code-length symbol has a code: 19 codes of 5 bits. -/
def placedCl : List (BitVec 3) := List.replicate 19 5

/-- A table in which every distance symbol has a code: 32 codes of 5 bits. -/
def placedD : List (BitVec 4) := List.replicate 32 5

/-- The context a table word of format `f` is read in: the fixed literal/length table, and tables that give every
code-length and distance symbol a code. -/
def placedContext : Format → Context
  | .bhdr => .header
  | .dynhdr => .dynHeader
  | .clclen => .clcLengths 4
  | .cl => .clSymbol (lengthsOf placedCl) true
  | .ll => .llSymbol (lengthsOf fixedLL)
  | .d => .distance (lengthsOf placedD)
  | .scanline => .scanline
  | .unpack => .unpack

/-- The stream bits of a table word: the header field itself, the code of the symbol the word's low bits number, the byte
FT, BITDEPTH; then zeros up to the longest element (57 bits of CLCLEN). -/
def tableBits (f : Format) (w : Nat) : List Bool :=
  (match f with
  | .bhdr => fieldBits 3 w
  | .dynhdr => fieldBits 14 w
  | .clclen => []
  | .cl => symbolBits (lengthsOf placedCl) maxCl (w % 32)
  | .ll => symbolBits (lengthsOf fixedLL) maxSym (w % 512)
  | .d => symbolBits (lengthsOf placedD) maxSym (w % 32)
  | .scanline => fieldBits 8 w
  | .unpack => fieldBits 5 w) ++ List.replicate 57 false

/-- What the decoder reads from a table word of format `f`. -/
def decodeFormatWord (f : Format) (w : Nat) : Option Instr :=
  match decodeBits (placedContext f) (tableBits f w) with
  | .got d _ => some d.instr
  | .stop _ _ => none

/-- The element the decoder reads from a table word of `nbits` bits. -/
def decodeTableWord (nbits w : Nat) : Option Instr :=
  match tableFormat nbits w with
  | some f => decodeFormatWord f w
  | none => none

end Sys2Proof
end

