-- ==== Sys2Proof/Machine/Operands.lean ====
section
/-! DEFINITION. The operand forms: bits of the stream through READBIT (40 R141), the byte FT of OUT and the register BITDEPTH
as fields, the neighbours of a filtered byte (44 R292), the samples of a row (45 R321 to R325). -/

namespace Sys2Proof.Machine

open Sys2Proof

/-- READBIT() (40 R141): bit BITPOS of the stream, LSB of each byte first, with the lazy reload of D5. -/
def readBit (s : State) : Got State Bool :=
  if s.bitoff = 8 then
    if s.inLen ≤ s.pos then .stop .exhausted s
    else
      match readBelow s.inLen s.inMem s.pos with
      | none => .stop .unwritten s
      | some v => .got (v.getLsbD 0) { s with la := v, pos := s.pos + 1, bitoff := 1 }
  else .got (s.la.getLsbD s.bitoff) { s with bitoff := s.bitoff + 1 }

/-- READBITS(n) (40 R142). -/
def readBits (n : Nat) (s : State) : Got State Nat := readField readBit n s

/-- The three bytes a filter looks at, none where the cell is unwritten: a left, b above, c above-left (44 R292). -/
structure Neighbours where
  a : Option Byte
  b : Option Byte
  c : Option Byte
  deriving DecidableEq, Repr

/-- The neighbours of byte `i`, `cur` holding the bytes of the row reconstructed so far (44 R291, R292). -/
def neighbours (fu i : Nat) (cur prior : List Byte) : Neighbours :=
  { a := if fu ≤ i then cur[i - fu]? else some 0
    b := prior[i]?
    c := if fu ≤ i then prior[i - fu]? else some 0 }

/-- PRED of FILT.NONE (44 R293): it reads no neighbour. -/
def predNone (_ : Neighbours) : Option Byte := some 0

/-- PRED of FILT.SUB (44 R294). -/
def predSub (n : Neighbours) : Option Byte := n.a

/-- PRED of FILT.UP (44 R295). -/
def predUp (n : Neighbours) : Option Byte := n.b

/-- (a + b) div 2, the sum without wrap-around (44 R296). -/
def average (a b : Byte) : Byte := BitVec.ofNat 8 ((a.toNat + b.toNat) / 2)

/-- PRED of FILT.AVG (44 R296). -/
def predAvg (n : Neighbours) : Option Byte :=
  match n.a, n.b with
  | some a, some b => some (average a b)
  | _, _ => none

/-- The Paeth predictor on integers, ties in the order a, b, c (44 R297). -/
def paeth (a b c : Byte) : Byte :=
  let p : Int := (a.toNat : Int) + (b.toNat : Int) - (c.toNat : Int)
  let pa := (p - (a.toNat : Int)).natAbs
  let pb := (p - (b.toNat : Int)).natAbs
  let pc := (p - (c.toNat : Int)).natAbs
  if pa ≤ pb ∧ pa ≤ pc then a else if pb ≤ pc then b else c

/-- PRED of FILT.PAETH (44 R297). -/
def predPaeth (n : Neighbours) : Option Byte :=
  match n.a, n.b, n.c with
  | some a, some b, some c => some (paeth a b c)
  | _, _, _ => none

/-- Sample `j` of a row at depth 8: byte j, zero-extended to the cell (45 R321, R327). -/
def sample8 (cur : List Byte) (j : Nat) : Option Sample := (cur[j]?).map fun v => BitVec.ofNat 16 v.toNat

/-- Sample `j` at depth 16: two bytes, big-endian (45 R322). -/
def sample16 (cur : List Byte) (j : Nat) : Option Sample :=
  match cur[2 * j]?, cur[2 * j + 1]? with
  | some hi, some lo => some (BitVec.ofNat 16 (hi.toNat * 256 + lo.toNat))
  | _, _ => none

/-- Sample `j` at depth 1: bit 7 - (j mod 8) of byte j div 8 (45 R323). -/
def sample1 (cur : List Byte) (j : Nat) : Option Sample :=
  (cur[j / 8]?).map fun v => BitVec.ofNat 16 (v.toNat / 2 ^ (7 - j % 8) % 2)

/-- Sample `j` at depth 2, most significant group first (45 R324). -/
def sample2 (cur : List Byte) (j : Nat) : Option Sample :=
  (cur[j / 4]?).map fun v => BitVec.ofNat 16 (v.toNat / 2 ^ (6 - 2 * (j % 4)) % 4)

/-- Sample `j` at depth 4, most significant group first (45 R325). -/
def sample4 (cur : List Byte) (j : Nat) : Option Sample :=
  (cur[j / 2]?).map fun v => BitVec.ofNat 16 (v.toNat / 2 ^ (4 - 4 * (j % 2)) % 16)

end Sys2Proof.Machine
end

