-- ==== Sys2Proof/Machine/Scanline.lean ====
section
/-! DEFINITION. The meanings of FILT.NONE, FILT.SUB, FILT.UP, FILT.AVG, FILT.PAETH, FILT.INV (44 R291 to R298). -/

namespace Sys2Proof.Machine

open Sys2Proof

/-- The loop over the bytes of a scanline (44 R291): `n` bytes remain, `cur` holds those reconstructed. None where a cell that
is read is unwritten. -/
def unfilterFrom (pred : Neighbours → Option Byte) (s : State) : Nat → List Byte → Option (List Byte)
  | 0, cur => some cur
  | n + 1, cur =>
    match readBelow s.outLen s.out (s.rptr + 1 + cur.length), pred (neighbours s.fu cur.length cur s.prior) with
    | some x, some p => unfilterFrom pred s n (cur ++ [x + p])
    | _, _ => none

/-- Reconstruct the scanline at RPTR into CUR with the predictor `pred`; the UNPACK follows (44 R291). -/
def unfilter (pred : Neighbours → Option Byte) (s : State) : Act :=
  match unfilterFrom pred s s.rowbytes [] with
  | none => .stop .unwrittenCell
  | some row => .go { s with cur := row, col := s.rowbytes, point := .unpack }

/-- FILT.NONE (44 R293). -/
def execFiltNone (s : State) : Host.Outcome State Fault Refusal := (unfilter predNone s).outcome

/-- FILT.SUB (44 R294). -/
def execFiltSub (s : State) : Host.Outcome State Fault Refusal := (unfilter predSub s).outcome

/-- FILT.UP (44 R295). -/
def execFiltUp (s : State) : Host.Outcome State Fault Refusal := (unfilter predUp s).outcome

/-- FILT.AVG (44 R296). -/
def execFiltAvg (s : State) : Host.Outcome State Fault Refusal := (unfilter predAvg s).outcome

/-- FILT.PAETH (44 R297). -/
def execFiltPaeth (s : State) : Host.Outcome State Fault Refusal := (unfilter predPaeth s).outcome

/-- FILT.INV (44 R298): InvalidFilterType, before any byte of the row is reconstructed. The operand is the FT the fetch
has read into FT. -/
def execFiltInv (_ft : Byte) (s : State) : Host.Outcome State Fault Refusal := .next (raise .invalidFilterType s)

end Sys2Proof.Machine
end

