-- ==== Sys2Proof/Machine/Unpack.lean ====
section
/-! DEFINITION. The meanings of UNPK1, UNPK2, UNPK4, UNPK8, UNPK16 (45 R320 to R327). -/

namespace Sys2Proof.Machine

open Sys2Proof

/-- UNPACK: emit `n` samples of CUR in ascending order, then end the scanline (45 R320, 44 R291). -/
def unpackRow (sample : List Byte → Nat → Option Sample) (n : Nat) (s : State) : Act :=
  (emitFrom (sample s.cur) n 0 s).andThen fun t => .go (rowEnd t)

/-- UNPK1 (45 R323): WIDTH samples of 1 bit. -/
def execUnpk1 (s : State) : Host.Outcome State Fault Refusal := (unpackRow sample1 s.width s).outcome

/-- UNPK2 (45 R324): WIDTH samples of 2 bits. -/
def execUnpk2 (s : State) : Host.Outcome State Fault Refusal := (unpackRow sample2 s.width s).outcome

/-- UNPK4 (45 R325): WIDTH samples of 4 bits. -/
def execUnpk4 (s : State) : Host.Outcome State Fault Refusal := (unpackRow sample4 s.width s).outcome

/-- UNPK8 (45 R321): ROWBYTES samples. -/
def execUnpk8 (s : State) : Host.Outcome State Fault Refusal := (unpackRow sample8 s.rowbytes s).outcome

/-- UNPK16 (45 R322): ROWBYTES / 2 samples. -/
def execUnpk16 (s : State) : Host.Outcome State Fault Refusal := (unpackRow sample16 (s.rowbytes / 2) s).outcome

end Sys2Proof.Machine
end

