-- ==== Sys2Proof/Machine/Dispatch.lean ====
section
/-! DEFINITION. The dispatch: one arm per stream element, each a direct call of its meaning. -/

namespace Sys2Proof.Machine

open Sys2Proof

def exec (i : Instr) (s : State) : Host.Outcome State Fault Refusal :=
  match i with
  | .bhdrStored final => Sys2Proof.Machine.execBhdrStored final s
  | .bhdrFixed final => Sys2Proof.Machine.execBhdrFixed final s
  | .bhdrDyn final => Sys2Proof.Machine.execBhdrDyn final s
  | .bhdrRsv final => Sys2Proof.Machine.execBhdrRsv final s
  | .dynhdr hlit hdist hclen => Sys2Proof.Machine.execDynhdr hlit hdist hclen s
  | .clclen fields => Sys2Proof.Machine.execClclen fields s
  | .clLen n => Sys2Proof.Machine.execClLen n s
  | .clRep e => Sys2Proof.Machine.execClRep e s
  | .clZ3 e => Sys2Proof.Machine.execClZ3 e s
  | .clZ11 e => Sys2Proof.Machine.execClZ11 e s
  | .lit b => Sys2Proof.Machine.execLit b s
  | .eob => Sys2Proof.Machine.execEob s
  | .len257 => Sys2Proof.Machine.execLen257 s
  | .len258 => Sys2Proof.Machine.execLen258 s
  | .len259 => Sys2Proof.Machine.execLen259 s
  | .len260 => Sys2Proof.Machine.execLen260 s
  | .len261 => Sys2Proof.Machine.execLen261 s
  | .len262 => Sys2Proof.Machine.execLen262 s
  | .len263 => Sys2Proof.Machine.execLen263 s
  | .len264 => Sys2Proof.Machine.execLen264 s
  | .len265 e => Sys2Proof.Machine.execLen265 e s
  | .len266 e => Sys2Proof.Machine.execLen266 e s
  | .len267 e => Sys2Proof.Machine.execLen267 e s
  | .len268 e => Sys2Proof.Machine.execLen268 e s
  | .len269 e => Sys2Proof.Machine.execLen269 e s
  | .len270 e => Sys2Proof.Machine.execLen270 e s
  | .len271 e => Sys2Proof.Machine.execLen271 e s
  | .len272 e => Sys2Proof.Machine.execLen272 e s
  | .len273 e => Sys2Proof.Machine.execLen273 e s
  | .len274 e => Sys2Proof.Machine.execLen274 e s
  | .len275 e => Sys2Proof.Machine.execLen275 e s
  | .len276 e => Sys2Proof.Machine.execLen276 e s
  | .len277 e => Sys2Proof.Machine.execLen277 e s
  | .len278 e => Sys2Proof.Machine.execLen278 e s
  | .len279 e => Sys2Proof.Machine.execLen279 e s
  | .len280 e => Sys2Proof.Machine.execLen280 e s
  | .len281 e => Sys2Proof.Machine.execLen281 e s
  | .len282 e => Sys2Proof.Machine.execLen282 e s
  | .len283 e => Sys2Proof.Machine.execLen283 e s
  | .len284 e => Sys2Proof.Machine.execLen284 e s
  | .len285 => Sys2Proof.Machine.execLen285 s
  | .llrsv286 => Sys2Proof.Machine.execLlrsv286 s
  | .llrsv287 => Sys2Proof.Machine.execLlrsv287 s
  | .dist0 => Sys2Proof.Machine.execDist0 s
  | .dist1 => Sys2Proof.Machine.execDist1 s
  | .dist2 => Sys2Proof.Machine.execDist2 s
  | .dist3 => Sys2Proof.Machine.execDist3 s
  | .dist4 e => Sys2Proof.Machine.execDist4 e s
  | .dist5 e => Sys2Proof.Machine.execDist5 e s
  | .dist6 e => Sys2Proof.Machine.execDist6 e s
  | .dist7 e => Sys2Proof.Machine.execDist7 e s
  | .dist8 e => Sys2Proof.Machine.execDist8 e s
  | .dist9 e => Sys2Proof.Machine.execDist9 e s
  | .dist10 e => Sys2Proof.Machine.execDist10 e s
  | .dist11 e => Sys2Proof.Machine.execDist11 e s
  | .dist12 e => Sys2Proof.Machine.execDist12 e s
  | .dist13 e => Sys2Proof.Machine.execDist13 e s
  | .dist14 e => Sys2Proof.Machine.execDist14 e s
  | .dist15 e => Sys2Proof.Machine.execDist15 e s
  | .dist16 e => Sys2Proof.Machine.execDist16 e s
  | .dist17 e => Sys2Proof.Machine.execDist17 e s
  | .dist18 e => Sys2Proof.Machine.execDist18 e s
  | .dist19 e => Sys2Proof.Machine.execDist19 e s
  | .dist20 e => Sys2Proof.Machine.execDist20 e s
  | .dist21 e => Sys2Proof.Machine.execDist21 e s
  | .dist22 e => Sys2Proof.Machine.execDist22 e s
  | .dist23 e => Sys2Proof.Machine.execDist23 e s
  | .dist24 e => Sys2Proof.Machine.execDist24 e s
  | .dist25 e => Sys2Proof.Machine.execDist25 e s
  | .dist26 e => Sys2Proof.Machine.execDist26 e s
  | .dist27 e => Sys2Proof.Machine.execDist27 e s
  | .dist28 e => Sys2Proof.Machine.execDist28 e s
  | .dist29 e => Sys2Proof.Machine.execDist29 e s
  | .drsv30 => Sys2Proof.Machine.execDrsv30 s
  | .drsv31 => Sys2Proof.Machine.execDrsv31 s
  | .filtNone => Sys2Proof.Machine.execFiltNone s
  | .filtSub => Sys2Proof.Machine.execFiltSub s
  | .filtUp => Sys2Proof.Machine.execFiltUp s
  | .filtAvg => Sys2Proof.Machine.execFiltAvg s
  | .filtPaeth => Sys2Proof.Machine.execFiltPaeth s
  | .filtInv ft => Sys2Proof.Machine.execFiltInv ft s
  | .unpk1 => Sys2Proof.Machine.execUnpk1 s
  | .unpk2 => Sys2Proof.Machine.execUnpk2 s
  | .unpk4 => Sys2Proof.Machine.execUnpk4 s
  | .unpk8 => Sys2Proof.Machine.execUnpk8 s
  | .unpk16 => Sys2Proof.Machine.execUnpk16 s

end Sys2Proof.Machine
end

