-- ==== Sys2Proof/Machine/Fetch.lean ====
section
/-! DEFINITION. Fetching an element: what the engine reads next (its context), the decoder driven by READBIT, the registers
DECODE writes, and the moves that are no element (the end of a code-length list, the end of the scanlines). -/

namespace Sys2Proof.Machine

open Sys2Proof

/-- What the engine does next: run an element on the state the fetch left, or a move that is no element. -/
inductive Fetched where
  | run  (i : Instr) (s : State)
  | move (o : Host.Outcome State Fault Refusal)

/-- What the next element's decoding depends on (30 R115). -/
def contextOf (s : State) : Context :=
  match s.point with
  | .header => .header
  | .dynHeader => .dynHeader
  | .clcLengths => .clcLengths s.ncl.toNat
  | .codeLengths => .clSymbol (lengthsOf s.cllen) s.prevlen.isSome
  | .symbols => .llSymbol (lengthsOf s.lllen)
  | .distance => .distance (lengthsOf s.dlen)
  | .scanline => .scanline
  | .unpack => .unpack

/-- The registers the fetch writes beside the cursor: CODE and CLEN by DECODE (41 R156), then SYM or DSYM (42 R181, 43 R200,
R204). -/
def noteSymbol (w : CodeWord) (s : State) : State :=
  let t := { s with code := BitVec.ofNat 15 w.code, clen := BitVec.ofNat 4 w.len }
  if s.point = .distance then { t with dsym := BitVec.ofNat 5 w.sym } else { t with sym := BitVec.ofNat 9 w.sym }

/-- The state an element runs on, `t` being the state behind the bits read. -/
def fetchedState (d : Decoded) (t : State) : State :=
  match d.walked with
  | some w => noteSymbol w t
  | none => t

/-- Why a decode stopped, as the engine's move: the CORE's faults TruncatedInput (40 R143) and MalformedBitstream (41 R157),
or a stop of the model. -/
def stopMove (w : Stop) (t : State) : Host.Outcome State Fault Refusal :=
  match w with
  | .exhausted => .next (raise .truncatedInput t)
  | .malformed => .next (raise .malformedBitstream t)
  | .unwritten => .fault .unwrittenCell
  | .noElement => .fault .noElement

/-- Fetch an element of phase INFLATE from IN. -/
def fetchStream (s : State) : Fetched :=
  match decode readBit (contextOf s) s with
  | .got d t => .run d.instr (fetchedState d t)
  | .stop w t => .move (stopMove w t)

/-- Fetch a scanline element: FT <- MemRead(OUT, RPTR, 1) (44 R291); with no complete scanline left, the end of the loop. -/
def fetchScanline (s : State) : Fetched :=
  if scanlineLeft s then
    match readBelow s.outLen s.out s.rptr with
    | none => .move (.fault .unwrittenCell)
    | some ft =>
      match decodeBits .scanline (fieldBits 8 ft.toNat) with
      | .got d _ => .run d.instr { s with ft := ft }
      | .stop w _ => .move (stopMove w s)
  else .move (.next (scanEnd s))

/-- The unpack element BITDEPTH selects (45 R320). -/
def fetchUnpack (s : State) : Fetched :=
  match decodeBits .unpack (fieldBits 5 s.bitdepth.toNat) with
  | .got d _ => .run d.instr s
  | .stop w _ => .move (stopMove w s)

/-- The engine at its next point. -/
def fetchAt (s : State) : Fetched :=
  match s.point with
  | .codeLengths => if s.lidx < listTotal s then fetchStream s else .move (listEnd s).outcome
  | .scanline => fetchScanline s
  | .unpack => fetchUnpack s
  | _ => fetchStream s

/-- The engine's move: while IDLE, DONE or FAULT it does nothing (70 R381, 60 R352, R355; entry 17). -/
def fetch (s : State) : Fetched := if running s then fetchAt s else .move (.next s)

/-! ### Placing one element (for `State.withFetchWord`) -/

/-- Bytes as a memory from address `a` on. -/
def memoryOf {α : Type} : List α → Nat → Memory α
  | [], _ => []
  | b :: bs, a => (a, b) :: memoryOf bs (a + 1)

/-- A stream that holds exactly `bits`, the cursor at its first bit, the engine in phase INFLATE at `p`. -/
def placeStream (p : Point) (bits : List Bool) (s : State) : State :=
  { s with
    status := .inflate, point := p, pos := 0, bitoff := 8, hostQueue := []
    inMem := memoryOf (packBits bits) 0, inLen := (packBits bits).length }

/-- Place a table word of format `f` with the stream bits `bits` where the engine reads its next element. A code-length or
distance symbol gets a table in which every symbol has a code, a literal/length symbol the fixed table; a scanline is one
filter byte and one byte 0, as the scan entry of a one-byte row leaves it. -/
def placeWord (f : Format) (w : Nat) (bits : List Bool) (s : State) : State :=
  match f with
  | .bhdr => placeStream .header bits s
  | .dynhdr => placeStream .dynHeader bits s
  | .clclen => { placeStream .clcLengths bits s with ncl := 4 }
  | .cl => { placeStream .codeLengths bits s with cllen := placedCl, lidx := 0, nlit := 257, ndist := 1 }
  | .ll => { placeStream .symbols bits s with lllen := fixedLL, dlen := fixedD }
  | .d => { placeStream .distance bits s with dlen := placedD }
  | .scanline =>
    { s with
      status := .scan, point := .scanline, hostQueue := [], rptr := 0, rowbytes := 1, fu := 1, prior := [0]
      out := [(0, BitVec.ofNat 8 w), (1, 0)], outLen := 2 }
  | .unpack => { s with status := .scan, point := .unpack, hostQueue := [], bitdepth := BitVec.ofNat 5 w }

end Sys2Proof.Machine
end

