-- ==== Sys2Proof/Machine/HostActions.lean ====
section
/-! DEFINITION. The moves of the host (10 R31 to R42, 60 R359, 70 R380 to R387). -/

namespace Sys2Proof.Machine

open Sys2Proof

/-- A write of CTRL (10 R32): RESET in any state, and it wins; START while IDLE; a 0 does nothing. -/
def writeCtrl (v : BitVec 2) (s : State) : State :=
  if v.getLsbD 1 then resetCore s
  else if v.getLsbD 0 && s.status == .idle then start s
  else s

/-- A write to one of the registers 3 to 7: it acts while IDLE and is ignored in any other state (10 R42). -/
def whileIdle (f : State → State) (s : State) : State := if s.status = .idle then f s else s

/-- A write of IN[a] (10 R42): while IDLE. In any other state the spec gives the host no such move (93 U8, entries 10, 11). A
cell at or beyond IN_CAP does not exist (10 R43). -/
def writeInCell (a : Nat) (b : Byte) (s : State) : Host.Outcome State Fault Refusal :=
  if s.status = .idle then
    if withinLimit (a + 1) s.cap.inCap then .next { s with inMem := memWrite s.inMem a b } else .fault .outsideIn
  else .refused .hostAccess

/-- The value a host register holds; CTRL reads as 0 (10 R32). -/
def regValue (s : State) : HostReg → Nat
  | .ctrl => 0
  | .status => (EngineState.number s.status).toNat
  | .err => (ErrKind.code s.err).toNat
  | .inLen => s.inLen
  | .mode => s.mode.toNat
  | .width => s.width
  | .bitdepth => s.bitdepth.toNat
  | .planes => s.planes.toNat
  | .outLen => s.outLen
  | .rows => s.rows
  | .pixLen => s.pixLen

/-- CTRL, STATUS and ERR have a specified value in every state, also after a fault (10 R42). -/
def alwaysSpecified : HostReg → Bool
  | .ctrl | .status | .err => true
  | _ => false

/-- The registers 8 to 10, which are not read while the engine runs (70 R387). -/
def resultReg : HostReg → Bool
  | .outLen | .rows | .pixLen => true
  | _ => false

/-- A read returns `v`. -/
def reply (v : Nat) (s : State) : State := { s with hostReply := some v }

/-- A read whose value the spec leaves unspecified returns a fresh free value (60 R352, entry 6), below `bound` where the cell
has a width (0: no bound). -/
def replyFree (bound : Nat) (s : State) : State :=
  { s with hostReply := some (Config.freeReading s.freeCount % bound), freeCount := s.freeCount + 1 }

/-- A host read of a register (10 R42). -/
def readRegister (r : HostReg) (s : State) : Host.Outcome State Fault Refusal :=
  if alwaysSpecified r then .next (reply (regValue s r) s)
  else if s.status = .fault then .next (replyFree 0 s)
  else if resultReg r && running s then .refused .hostAccess
  else .next (reply (regValue s r) s)

/-- A host read of a memory cell: not while the engine runs (10 R42, 70 R387), free after a fault (60 R352), and an unwritten
cell holds no value; the cells at or beyond `len`, the memory's length register, are unwritten (10 R46, 93 U4). `n` is the
width of the cell. -/
def readCell {n : Nat} (len : Nat) (m : Memory (BitVec n)) (a : Nat) (s : State) : Host.Outcome State Fault Refusal :=
  if running s then .refused .hostAccess
  else if s.status = .fault then .next (replyFree (2 ^ n) s)
  else
    match readBelow len m a with
    | none => .fault .unwrittenCell
    | some v => .next (reply v.toNat s)

/-- The move of the host; `elapse` is none: it is the engine's turn (Step.lean). -/
def hostMove (a : HostAction) (s : State) : Host.Outcome State Fault Refusal :=
  match a with
  | .ctrl v => .next (writeCtrl v s)
  | .writeInLen n =>
    if withinLimit n s.cap.inCap then .next (whileIdle (fun t => { t with inLen := n }) s) else .refused .valueTooWide
  | .writeMode v => .next (whileIdle (fun t => { t with mode := v }) s)
  | .writeWidth n =>
    if withinLimit n s.cap.widthMax then .next (whileIdle (fun t => { t with width := n }) s) else .refused .valueTooWide
  | .writeBitdepth v => .next (whileIdle (fun t => { t with bitdepth := v }) s)
  | .writePlanes v => .next (whileIdle (fun t => { t with planes := v }) s)
  | .writeIn a b => writeInCell a b s
  | .readReg r => readRegister r s
  | .readIn a => readCell s.inLen s.inMem a s
  | .readOut a => readCell s.outLen s.out a s
  | .readPix a => readCell s.pixLen s.pix a s
  | .elapse => .next s

/-- Whose move is next: the host's oldest pending move, else the engine's. -/
inductive Turn where
  | engine (s : State)
  | host (o : Host.Outcome State Fault Refusal)

/-- The next move (entry 4): a pending `elapse`, or nothing pending, is the engine's turn. -/
def nextTurn (s : State) : Turn :=
  match s.hostQueue with
  | [] => .engine s
  | .elapse :: rest => .engine { s with hostQueue := rest }
  | a :: rest => .host (hostMove a { s with hostQueue := rest })

end Sys2Proof.Machine
end

