-- ==== Sys2Proof/Machine/Step.lean ====
section
/-! DEFINITION. One step: the host's oldest pending move, or the engine's next element (70 R391: the granularity is free). -/

namespace Sys2Proof.Machine

open Sys2Proof

/-- The engine's move: the fetched element runs, or the move that is no element is made. -/
def engineMove (s : State) : Host.Outcome State Fault Refusal :=
  match fetch s with
  | .run i t => exec i t
  | .move o => o

/-- One step. -/
def step (s : State) : Host.Outcome State Fault Refusal :=
  match nextTurn s with
  | .engine t => engineMove t
  | .host o => o

/-- `s` with the table word `w` of `nbits` bits stored where the engine reads its next element (entries 13, 14). A word that no
row meets changes nothing. -/
def State.withFetchWord (s : State) (nbits w : Nat) : State :=
  match tableFormat nbits w with
  | some f => placeWord f w (tableBits f w) s
  | none => s

end Sys2Proof.Machine
end

