-- ==== Sys2Proof/Safety.lean ====
section
/-! DEFINITION. What counts as a safe state, in the terms the statements use: the invariant of the machine, an input whose
bytes are all written, the conditions under which COPY, a filter and an unpack run to their end, and what each leaves. -/

namespace Sys2Proof.Machine

open Sys2Proof

/-- Cells 0 to `n - 1` of `m` are written, in order, and no other. -/
def cellsBelow {α : Type} (n : Nat) (m : Memory α) : Prop := m.map Prod.fst = List.range n

/-- `n` more units fit behind the first `used` (00 R7: no limit where the capacity is infinite). -/
def fitsIn (used n : Nat) (cap : Option Nat) : Prop := withinLimit (used + n) cap = true

/-- The points of phase INFLATE. -/
def inflatePoint : Point → Bool
  | .scanline | .unpack => false
  | _ => true

/-- The cursor: at most 8 bits of LA are consumed, POS stays inside IN, nothing is consumed before the first load, and LA is
the byte loaded last (10 R21, R25). -/
structure CursorOk (s : State) : Prop where
  offset    : s.bitoff ≤ 8
  inside    : s.pos ≤ s.inLen
  fresh     : s.pos = 0 → s.bitoff = 8
  lookahead : s.bitoff < 8 → memRead s.inMem (s.pos - 1) = some s.la

/-- Phase SCAN's registers (44 R290, R291): the row geometry is that of the host registers, PRIOR is a whole row, RPTR and
PIX_LEN are whole rows, and at an UNPACK a complete scanline has been reconstructed. -/
structure ScanOk (s : State) : Prop where
  enabled : scanEnabled s = true
  bytes   : s.rowbytes = rowBytesOf s
  unit    : s.fu = filterUnitOf s
  prior   : s.prior.length = s.rowbytes
  rptr    : s.rptr = s.rows * (s.rowbytes + 1)
  bound   : s.rptr ≤ s.outLen
  pixels  : s.pixLen = s.rows * samplesPerRow s
  point   : inflatePoint s.point = false
  row     : s.point = .unpack → s.cur.length = s.rowbytes ∧ s.rptr + s.rowbytes + 1 ≤ s.outLen

/-- The invariant of the machine: it holds after reset and every step keeps it. -/
structure Inv (s : State) : Prop where
  /-- IN is in canonical form. -/
  inForm   : Memory.wf s.inMem = true
  /-- OUT[0 .. OUT_LEN - 1] are written and no other cell (10 R39). -/
  outForm  : cellsBelow s.outLen s.out
  /-- PIX[0 .. PIX_LEN - 1] are written and no other cell (10 R41). -/
  pixForm  : cellsBelow s.pixLen s.pix
  /-- The tables have their sizes (10 R26, R29). -/
  tables   : s.lens.length = 320 ∧ s.cllen.length = 19 ∧ s.lllen.length = 288 ∧ s.dlen.length = 32
  /-- The bit cursor. -/
  cursor   : CursorOk s
  /-- The lengths and WIDTH stay within the parameters (10 R31). -/
  limits   : withinLimit s.inLen s.cap.inCap = true ∧ withinLimit s.width s.cap.widthMax = true ∧
    withinLimit s.outLen s.cap.outCap = true ∧ withinLimit s.pixLen s.cap.pixCap = true
  /-- ERR is 0 exactly while STATE is not FAULT (10 R33). -/
  err      : s.err = .none ↔ s.status ≠ .fault
  /-- While IDLE the cursor and the counters are as reset left them (70 R384). -/
  idle     : s.status = .idle → s.pos = 0 ∧ s.bitoff = 8 ∧ s.outLen = 0 ∧ s.rows = 0 ∧ s.pixLen = 0
  /-- A run with SCAN_EN = 1 has a legal configuration (60 R347). -/
  config   : s.status = .inflate ∨ s.status = .scan ∨ s.status = .done → scanEnabled s = true → configOk s = true
  /-- Phase SCAN and DONE come after a block with BFINAL = 1 (42 R170, 60 R355). -/
  final    : s.status = .scan ∨ s.status = .done → s.bfinal = 1
  /-- Phase INFLATE reads at its own points, and ROWS and PIX_LEN are 0 in it (10 R40). -/
  inflate  : s.status = .inflate → inflatePoint s.point = true ∧ s.rows = 0 ∧ s.pixLen = 0
  /-- DYNHDR left 4 to 19 code-length-code lengths to read (42 R178). -/
  clcCount : s.status = .inflate → s.point = .clcLengths → 4 ≤ s.ncl.toNat ∧ s.ncl.toNat ≤ 19
  /-- While code-length-code lengths or code lengths are read, NLIT and NDIST are what a DYNHDR left (42 R178). -/
  counts   : s.status = .inflate → s.point = .clcLengths ∨ s.point = .codeLengths →
    257 ≤ s.nlit.toNat ∧ s.nlit.toNat ≤ 288 ∧ 1 ≤ s.ndist.toNat ∧ s.ndist.toNat ≤ 32
  /-- LIDX stays inside the list (42 R186). -/
  list     : s.status = .inflate → s.point = .codeLengths → s.lidx ≤ listTotal s
  /-- A match length is 3 to 258 (00 R8). -/
  length   : s.status = .inflate → s.point = .distance → 3 ≤ s.len.toNat ∧ s.len.toNat ≤ 258
  /-- Phase SCAN. -/
  scan     : s.status = .scan → ScanOk s
  /-- DONE with SCAN_EN = 1: OUT is whole rows and PIX holds all their samples (60 R355). -/
  finished : s.status = .done → scanEnabled s = true →
    s.outLen = s.rows * (rowBytesOf s + 1) ∧ s.pixLen = s.rows * samplesPerRow s

/-- The host has written every byte of the stream it announced (70 R382). -/
def InputWritten (s : State) : Prop := ∀ a, a < s.inLen → (memRead s.inMem a).isSome = true

/-- Bit `k` of the stream: bit (k mod 8) of IN[k div 8] (30 R100); false where the cell is unwritten. -/
def streamBit (s : State) (k : Nat) : Bool :=
  match memRead s.inMem (k / 8) with
  | some v => v.getLsbD (k % 8)
  | none => false

/-- The bits of the stream from BITPOS on. -/
def unreadBits (s : State) : List Bool := (List.range' (bitpos s) (8 * s.inLen - bitpos s)).map (streamBit s)

/-- `t` is `s` but for the bit cursor. -/
def sameButCursor (s t : State) : Prop := t = { s with pos := t.pos, la := t.la, bitoff := t.bitoff }

/-- Every length of `T` is at most MAXL and BUILD accepts it (41 R150, R154). -/
def validTable (T : List Nat) (maxl : Nat) : Prop := (∀ l, l ∈ T → l ≤ maxl) ∧ overSubscribed T maxl = false

/-- The tables of a context are such that BUILD accepts them. -/
def validContext : Context → Prop
  | .clSymbol T _ => validTable T maxCl
  | .llSymbol T => validTable T maxSym
  | .distance T => validTable T maxSym
  | _ => True

/-- A copy of distance `d` runs to its end: the distance reaches no further than the bytes produced (43 R286), those bytes are
written (10 R39), and LEN more fit. -/
structure Copyable (d : Nat) (s : State) : Prop where
  one   : 1 ≤ d
  reach : d ≤ s.outLen
  cells : cellsBelow s.outLen s.out
  room  : fitsIn s.outLen s.len.toNat s.cap.outCap

/-- A complete scanline stands at RPTR, PRIOR is a whole row and the filter unit is at least 1 (44 R290, R291). -/
structure RowReady (s : State) : Prop where
  unit  : 1 ≤ s.fu
  prior : s.prior.length = s.rowbytes
  cells : cellsBelow s.outLen s.out
  row   : s.rptr + s.rowbytes + 1 ≤ s.outLen

/-- `n` samples fit into PIX and PIX holds exactly the samples emitted so far (10 R41). -/
structure PixReady (n : Nat) (s : State) : Prop where
  cells : cellsBelow s.pixLen s.pix
  room  : fitsIn s.pixLen n s.cap.pixCap

/-! ### Reading -/

/-- Stream bits written as the spec writes them, the first-read bit on the left (00 R14). -/
def stream (bits : List Nat) : List Bool := bits.map fun b => b == 1

/-- In context `c` the bits `bits`, whatever follows them, are read as element `i`, exactly they are consumed, and a stream
that ends inside them is exhausted. -/
def ReadsAs (c : Context) (bits : List Bool) (i : Instr) : Prop :=
  (∀ rest, ∃ w, decodeBits c (bits ++ rest) = .got { instr := i, walked := w } rest) ∧
  ∀ n, n < bits.length → decodeBits c (bits.take n) = .stop .exhausted []

/-- Literal/length symbols of a fixed block (42 R173). -/
def fixedSymbols : Context := .llSymbol (lengthsOf fixedLL)

/-- Distance symbols of a fixed block (42 R173). -/
def fixedDistances : Context := .distance (lengthsOf fixedD)

/-- The stop a `Got` is, if it is one. -/
def stopOf {σ α : Type} : Got σ α → Option Stop
  | .got _ _ => none
  | .stop w _ => some w

/-! ### Faults -/

/-- `t` is in FAULT with kind `k`; after a fault nothing else has a specified value (60 R352). -/
structure Faulted (k : ErrKind) (t : State) : Prop where
  status : t.status = .fault
  err    : t.err = k

/-- Element `i` on `s` raises a fault of kind `k`. -/
def Raises (i : Instr) (s : State) (k : ErrKind) : Prop := ∃ t, exec i s = .next t ∧ Faulted k t

/-! ### BUILD, written as 41 R152 and R153 write it -/

/-- NEXT[L] before the loop of 41 R153 (41 R152). -/
def nextCode (T : List Nat) : Nat → Nat
  | 0 => 0
  | 1 => 0
  | L + 2 => (nextCode T (L + 1) + blCount T (L + 1)) * 2

/-- The loop of 41 R153 over the symbols from `s` on, with the array NEXT. -/
def buildLoop : List Nat → Nat → (Nat → Nat) → List CodeWord
  | [], _, _ => []
  | t :: T, s, next =>
    if t = 0 then buildLoop T (s + 1) next
    else { sym := s, len := t, code := next t } ::
      buildLoop T (s + 1) fun l => if l = t then next t + 1 else next l

/-! ### What COPY, a filter and an unpack leave -/

/-- The length class of symbol `k` holds the length `L` (30 R109). -/
def lengthClass (k L : Nat) : Prop :=
  ∃ row, lengthTable[k - 257]? = some row ∧ 257 ≤ k ∧ row.2 ≤ L ∧ L ≤ row.2 + 2 ^ row.1 - 1

/-- The distance class of symbol `d` holds the distance `D` (30 R110). -/
def distanceClass (d D : Nat) : Prop :=
  ∃ row, distanceTable[d]? = some row ∧ row.2 ≤ D ∧ D ≤ row.2 + 2 ^ row.1 - 1

/-- The distance BASED(d) + e of a distance element (30 R110, 43 R205). -/
def distanceOf (i : Instr) : Option Nat :=
  if i.format = .d then (distanceTable[i.number]?).map fun row => row.2 + i.extra else none

/-- `t` is `s` after a copy of distance `d`: DIST is `d`, LEN bytes are appended, each the byte `d` before it, and nothing else
changes but that a literal/length symbol comes next (43 R205, R285). -/
structure Copied (d : Nat) (s t : State) : Prop where
  frame  : t = { s with dist := BitVec.ofNat 16 d, out := t.out, outLen := s.outLen + s.len.toNat, point := .symbols }
  dist   : t.dist.toNat = d
  kept   : ∀ a, ¬(s.outLen ≤ a ∧ a < s.outLen + s.len.toNat) → memRead t.out a = memRead s.out a
  copied : ∀ j, j < s.len.toNat →
    ∃ b, memRead t.out (s.outLen + j) = some b ∧ memRead t.out (s.outLen + j - d) = some b

/-- The byte one filter unit to the left of byte `i`, 0 at the left edge (44 R292). -/
def leftOf (fu i : Nat) (row : List Byte) : Byte := if fu ≤ i then row.getD (i - fu) 0 else 0

/-- `row` is the scanline at RPTR reconstructed with PRED(a, b, c) = `pred a b c` (44 R291, R292). -/
def Reconstructed (pred : Byte → Byte → Byte → Byte) (s : State) (row : List Byte) : Prop :=
  row.length = s.rowbytes ∧ ∀ i, i < s.rowbytes → ∃ x, memRead s.out (s.rptr + 1 + i) = some x ∧
    row[i]? = some (x + pred (leftOf s.fu i row) (s.prior.getD i 0) (leftOf s.fu i s.prior))

/-- Element `i` reconstructs the scanline at RPTR into CUR with the predictor `pred`; nothing else changes but COL and that
the UNPACK comes next. -/
def Reconstructs (i : Instr) (pred : Byte → Byte → Byte → Byte) : Prop :=
  ∀ s, RowReady s → ∃ row, Reconstructed pred s row ∧
    exec i s = .next { s with cur := row, col := s.rowbytes, point := .unpack }

/-- The forward filter: `row` filtered with the predictor `pred` over the previous row `prior` (44 R301). -/
def filterRow (pred : Byte → Byte → Byte → Byte) (fu : Nat) (row prior : List Byte) : List Byte :=
  (List.range row.length).map fun i => row.getD i 0 - pred (leftOf fu i row) (prior.getD i 0) (leftOf fu i prior)

/-- Where the filtered bytes of `row` stand in OUT, element `i` recovers `row` (44 R301). -/
def RecoversRow (i : Instr) (pred : Byte → Byte → Byte → Byte) : Prop :=
  ∀ s row, RowReady s → row.length = s.rowbytes →
    (∀ k, k < s.rowbytes → memRead s.out (s.rptr + 1 + k) = (filterRow pred s.fu row s.prior)[k]?) →
    exec i s = .next { s with cur := row, col := s.rowbytes, point := .unpack }

/-- `t` is `s` after an UNPACK of the `n` samples `f 0`, `f 1`, ... and the end of the scanline (45 R327, 44 R291, R299). -/
structure Unpacked (n : Nat) (f : Nat → Nat) (s t : State) : Prop where
  frame  : t = { s with
    pix := t.pix, pixLen := s.pixLen + n, prior := s.cur, rptr := s.rptr + s.rowbytes + 1, rows := s.rows + 1
    point := .scanline }
  kept   : ∀ a, ¬(s.pixLen ≤ a ∧ a < s.pixLen + n) → memRead t.pix a = memRead s.pix a
  sample : ∀ j, j < n → memRead t.pix (s.pixLen + j) = some (BitVec.ofNat 16 (f j))

/-- Byte `i` of CUR as a number. -/
def curByte (s : State) (i : Nat) : Nat := (s.cur.getD i 0).toNat

end Sys2Proof.Machine
end

