-- ==== Sys2Proof/Certificates/Slice0/Obligations.lean ====
section
/-! DEFINITION. The statements for the provers. -/

open Sys2Proof Sys2Proof.Machine

/-- Sanity: one element of each format, written out bit by bit from the spec (30 R104 to R112, R118). -/
def Obligations.SampleWordsDecode : Prop :=
  decodeBits .header (stream [1, 1, 0]) = .got { instr := .bhdrFixed 1, walked := none } [] ∧
  decodeBits .dynHeader (stream [0, 0, 0, 0, 0, 0, 0, 0, 0, 0, 0, 1, 1, 1]) =
    .got { instr := .dynhdr 0 0 14, walked := none } [] ∧
  decodeBits (.clcLengths 4) (stream [0, 1, 0, 0, 0, 0, 1, 0, 0, 0, 1, 0]) =
    .got { instr := .clclen [2, 0, 1, 2], walked := none } [] ∧
  (∃ w, decodeBits (.clSymbol [2, 0, 0, 0, 0, 0, 0, 0, 0, 0, 0, 0, 0, 0, 0, 0, 2, 0, 1] true) (stream [1, 1, 1, 0]) =
    .got { instr := .clRep 1, walked := some w } []) ∧
  (∃ w, decodeBits fixedSymbols (stream [0, 1, 1, 1, 0, 0, 0, 1]) = .got { instr := .lit 0x41, walked := some w } []) ∧
  (∃ w, decodeBits fixedSymbols (stream [0, 0, 0, 0, 0, 0, 0]) = .got { instr := .eob, walked := some w } []) ∧
  (∃ w, decodeBits fixedDistances (stream [0, 0, 1, 0, 1, 1]) = .got { instr := .dist5 1, walked := some w } []) ∧
  decodeBits .scanline (stream [0, 0, 1, 0, 0, 0, 0, 0]) = .got { instr := .filtPaeth, walked := none } [] ∧
  decodeBits .unpack (stream [0, 0, 0, 0, 1]) = .got { instr := .unpk16, walked := none } []

/-- Decode and encode agree on every element in every context (30 R101 to R115): no operand bit is dropped. -/
def Obligations.DecodeOfEncodingIsTheElement : Prop :=
  ∀ c i rest, validContext c → fits c i = true →
    ∃ w, decodeBits c (encode c i ++ rest) = .got { instr := i, walked := w } rest

/-- The other direction of the round trip: every word has one meaning in a context (30 R115). -/
def Obligations.DecodedBitsAreTheEncoding : Prop :=
  ∀ c bits d rest, validContext c → (∀ n, c = .clcLengths n → 4 ≤ n ∧ n ≤ 19) →
    decodeBits c bits = .got d rest → fits c d.instr = true ∧ bits = encode c d.instr ++ rest

/-- Stream bit k is bit k mod 8 of byte k div 8, the last byte padded with 0 bits (30 R100, R130). -/
def Obligations.PackedBitsAreStreamBits : Prop :=
  ∀ bits : List Bool, (packBits bits).length = (bits.length + 7) / 8 ∧
    ∀ k, k < 8 * (packBits bits).length →
      ((packBits bits)[k / 8]?).map (fun v => v.getLsbD (k % 8)) = some (bits.getD k false)

/-- The fixed lengths (42 R176, R177) and the codes they get (30 R111). -/
def Obligations.FixedBlockCodes : Prop :=
  (∀ s, s < 288 → (lengthsOf fixedLL)[s]? =
    some (if s ≤ 143 then 8 else if s ≤ 255 then 9 else if s ≤ 279 then 7 else 8)) ∧
  (∀ d, d < 32 → (lengthsOf fixedD)[d]? = some (if d ≤ 29 then 5 else 0)) ∧
  (lengthsOf fixedLL).length = 288 ∧ (lengthsOf fixedD).length = 32 ∧
  kraftSum (lengthsOf fixedLL) maxSym maxSym = 2 ^ 15 ∧
  (∀ w, w ∈ codeWords (lengthsOf fixedLL) maxSym ↔
    (w.sym ≤ 143 ∧ w.len = 8 ∧ w.code = 0b00110000 + w.sym) ∨
    (144 ≤ w.sym ∧ w.sym ≤ 255 ∧ w.len = 9 ∧ w.code = 0b110010000 + (w.sym - 144)) ∨
    (256 ≤ w.sym ∧ w.sym ≤ 279 ∧ w.len = 7 ∧ w.code = w.sym - 256) ∨
    (280 ≤ w.sym ∧ w.sym ≤ 287 ∧ w.len = 8 ∧ w.code = 0b11000000 + (w.sym - 280))) ∧
  (∀ w, w ∈ codeWords (lengthsOf fixedD) maxSym ↔ w.sym ≤ 29 ∧ w.len = 5 ∧ w.code = w.sym) ∧
  ∀ rest, decodeSymbol listReader (lengthsOf fixedD) maxSym (stream [1, 1, 1, 1] ++ rest) = .stop .malformed rest

/-- BUILD gives a proper prefix code (41 R159). -/
def Obligations.PrefixFreeCodes : Prop :=
  ∀ T maxl, validTable T maxl →
    (∀ w, w ∈ codeWords T maxl → T[w.sym]? = some w.len ∧ 0 < w.len ∧ w.code < 2 ^ w.len) ∧
    (∀ s l, T[s]? = some l → 0 < l → ∃ w, w ∈ codeWords T maxl ∧ w.sym = s ∧
      ∀ v, v ∈ codeWords T maxl → v.sym = s → v = w) ∧
    ∀ v w, v ∈ codeWords T maxl → w ∈ codeWords T maxl → codeBits v.len v.code <+: codeBits w.len w.code → v = w

/-- The three steps of BUILD (41 R151 to R153). -/
def Obligations.BuildLoopAssignsTheCodes : Prop :=
  (∀ T L, blCount T L = if L = 0 then 0 else (T.filter fun t => t = L).length) ∧
  (∀ T, nextCode T 1 = 0 ∧ ∀ L, 2 ≤ L → nextCode T L = (nextCode T (L - 1) + blCount T (L - 1)) * 2) ∧
  (∀ T maxl, (∀ l, l ∈ T → l ≤ maxl) → ∀ w, w ∈ codeWords T maxl ↔ w ∈ buildLoop T 0 (nextCode T)) ∧
  buildLoop [3, 3, 3, 3, 3, 2, 4, 4] 0 (nextCode [3, 3, 3, 3, 3, 2, 4, 4]) =
    [⟨0, 3, 0b010⟩, ⟨1, 3, 0b011⟩, ⟨2, 3, 0b100⟩, ⟨3, 3, 0b101⟩] ++
    [⟨4, 3, 0b110⟩, ⟨5, 2, 0b00⟩, ⟨6, 4, 0b1110⟩, ⟨7, 4, 0b1111⟩]

/-- Over-subscription (41 R154), and that an incomplete code is accepted (R155). -/
def Obligations.OverSubscriptionIsACodeThatDoesNotFit : Prop :=
  (∀ T maxl, overSubscribed T maxl = true ↔
    2 ^ maxl < ((List.range maxl).map fun k => blCount T (k + 1) * 2 ^ (maxl - (k + 1))).sum) ∧
  (∀ T maxl, overSubscribed T maxl = true ↔ ∃ w, w ∈ codeWords T maxl ∧ 2 ^ w.len ≤ w.code) ∧
  overSubscribed [1, 1, 1] 7 = true

/-- DECODE (41 R156) at an absent child, at the end of the stream and at a code (41 R157). -/
def Obligations.AbsentChildStopsDecode : Prop :=
  ∀ T maxl (bits : List Bool) (b : Bool) rest, validTable T maxl → 1 ≤ maxl →
    (∀ n, 0 < n → n ≤ bits.length → ∃ w, w ∈ codeWords T maxl ∧ n < w.len ∧ bits.take n = (codeBits w.len w.code).take n) →
    decodeSymbol listReader T maxl bits = .stop .exhausted [] ∧
    (∀ w, w ∈ codeWords T maxl → bits ++ [b] = codeBits w.len w.code →
      decodeSymbol listReader T maxl (bits ++ b :: rest) = .got w rest) ∧
    ((∀ w, w ∈ codeWords T maxl → ¬ bits ++ [b] <+: codeBits w.len w.code) →
      decodeSymbol listReader T maxl (bits ++ b :: rest) = .stop .malformed rest)

/-- READBIT (40 R141). -/
def Obligations.ReadBitReturnsTheNextStreamBit : Prop :=
  ∀ s, CursorOk s →
    (bitpos s = 8 * s.inLen → readBit s = .stop .exhausted s) ∧
    (bitpos s < 8 * s.inLen → (memRead s.inMem (bitpos s / 8)).isSome = true →
      ∃ t, readBit s = .got (streamBit s (bitpos s)) t ∧ sameButCursor s t ∧ CursorOk t ∧ bitpos t = bitpos s + 1 ∧
        (s.bitoff = 8 → t.pos = s.pos + 1 ∧ t.bitoff = 1 ∧ some t.la = memRead s.inMem s.pos) ∧
        (s.bitoff < 8 → t.pos = s.pos ∧ t.la = s.la ∧ t.bitoff = s.bitoff + 1))

/-- READBITS (40 R142) and the value of a numeric field (30 R101). -/
def Obligations.ReadBitsIsTheSumOfItsBits : Prop :=
  ∀ n s, CursorOk s → InputWritten s →
    (bitpos s + n ≤ 8 * s.inLen →
      ∃ v t, readBits n s = .got v t ∧ v < 2 ^ n ∧ sameButCursor s t ∧ CursorOk t ∧ bitpos t = bitpos s + n ∧
        v = ((List.range n).map fun i => (streamBit s (bitpos s + i)).toNat * 2 ^ i).sum) ∧
    (8 * s.inLen < bitpos s + n → stopOf (readBits n s) = some .exhausted) ∧
    readBits 0 s = .got 0 s

/-- The lookahead byte is not observable: every read is the bit of IN at BITPOS (10 R25). -/
def Obligations.FetchReadsTheUnreadStream : Prop :=
  ∀ c s, CursorOk s → InputWritten s →
    (∀ d rest, decodeBits c (unreadBits s) = .got d rest →
      ∃ t, decode readBit c s = .got d t ∧ sameButCursor s t ∧ CursorOk t ∧ unreadBits t = rest) ∧
    (∀ w rest, decodeBits c (unreadBits s) = .stop w rest →
      ∃ t, decode readBit c s = .stop w t ∧ sameButCursor s t ∧ CursorOk t ∧ unreadBits t = rest)

/-- BHDR (30 R104). -/
def Obligations.HeaderBitsSelectTheBlock : Prop :=
  ∀ f b0 b1 : Bool, ReadsAs .header [f, b0, b1]
    (match b1, b0 with
    | false, false => .bhdrStored (BitVec.ofBool f)
    | false, true => .bhdrFixed (BitVec.ofBool f)
    | true, false => .bhdrDyn (BitVec.ofBool f)
    | true, true => .bhdrRsv (BitVec.ofBool f))

/-- BHDR.FIXED (42 R173). -/
def Obligations.FixedBlockInstallsItsTables : Prop :=
  (∀ f s, exec (.bhdrFixed f) s = .next { s with bfinal := f, btype := 1, lllen := fixedLL, dlen := fixedD, point := .symbols }) ∧
  overSubscribed (lengthsOf fixedLL) 15 = false ∧ overSubscribed (lengthsOf fixedD) 15 = false ∧
  (∀ s, s < 288 → fixedLL[s]? = some (BitVec.ofNat 4 (fixLL s))) ∧
  ∀ d, d < 32 → fixedD[d]? = some (BitVec.ofNat 4 (fixD d))

/-- BHDR.DYN (42 R174) and DYNHDR (30 R105, 42 R178). -/
def Obligations.DynamicBlockReadsItsHeader : Prop :=
  (∀ f s, exec (.bhdrDyn f) s = .next { s with bfinal := f, btype := 2, point := .dynHeader }) ∧
  ∀ (l d : BitVec 5) (c : BitVec 4),
    ReadsAs .dynHeader (fieldBits 5 l.toNat ++ fieldBits 5 d.toNat ++ fieldBits 4 c.toNat) (.dynhdr l d c) ∧
    ∀ s, ∃ t, exec (.dynhdr l d c) s = .next t ∧
      t.nlit.toNat = l.toNat + 257 ∧ t.ndist.toNat = d.toNat + 1 ∧ t.ncl.toNat = c.toNat + 4 ∧
      t = { s with hlit := l, hdist := d, hclen := c, nlit := t.nlit, ndist := t.ndist, ncl := t.ncl, point := .clcLengths }

/-- BHDR.STORED (42 R172) and BHDR.RSV (42 R175). -/
def Obligations.StoredAndReservedBlocksFault : Prop :=
  ∀ f : Bool,
    ReadsAs .header [f, false, false] (.bhdrStored (BitVec.ofBool f)) ∧
    ReadsAs .header [f, true, true] (.bhdrRsv (BitVec.ofBool f)) ∧
    ∀ s, Raises (.bhdrStored (BitVec.ofBool f)) s .invalidBlockType ∧
      Raises (.bhdrRsv (BitVec.ofBool f)) s .invalidBlockType

/-- EOB (43 R203), the block loop after it (42 R170) and the entry to phase SCAN (44 R290). -/
def Obligations.EndOfBlockTestsFinal : Prop :=
  ReadsAs fixedSymbols (stream [0, 0, 0, 0, 0, 0, 0]) .eob ∧ ∀ s,
    (s.bfinal = 0 → exec .eob s = .next { s with point := .header }) ∧
    (s.bfinal = 1 → s.mode = 0 → exec .eob s = .next { s with status := .done }) ∧
    (s.bfinal = 1 → s.mode = 1 → ∃ t, exec .eob s = .next t ∧
      s.width * s.bitdepth.toNat * s.planes.toNat ≤ 8 * t.rowbytes ∧
      8 * t.rowbytes < s.width * s.bitdepth.toNat * s.planes.toNat + 8 ∧
      t.fu = max 1 (s.bitdepth.toNat * s.planes.toNat / 8) ∧
      t.prior.length = t.rowbytes ∧ (∀ b, b ∈ t.prior → b = 0) ∧
      t = { s with status := .scan, rowbytes := t.rowbytes, fu := t.fu, prior := t.prior, rptr := 0, point := .scanline })

/-- CLCLEN (30 R106, 42 R179) and the BUILD after it (42 R180). -/
def Obligations.CodeLengthFieldsFillTheirTable : Prop :=
  (∀ fields : List (BitVec 3), 4 ≤ fields.length → fields.length ≤ 19 →
    ReadsAs (.clcLengths fields.length) (fields.flatMap fun f => fieldBits 3 f.toNat) (.clclen fields) ∧
    ∃ T : List (BitVec 3), T.length = 19 ∧
      (∀ j, j < fields.length → T[order.getD j 0]? = fields[j]?) ∧
      (∀ j, fields.length ≤ j → j < 19 → T[order.getD j 0]? = some 0) ∧
      ∀ s, (overSubscribed (lengthsOf T) 7 = false → exec (.clclen fields) s =
          .next { s with cllen := T, lidx := 0, prevlen := none, point := .codeLengths }) ∧
        (overSubscribed (lengthsOf T) 7 = true → Raises (.clclen fields) s .malformedBitstream)) ∧
  order = [16, 17, 18, 0, 8, 7, 9, 6, 10, 5, 11, 4, 12, 3, 13, 2, 14, 1, 15] ∧
  ∀ s, Raises (.clclen [1, 1, 1, 0]) s .malformedBitstream

/-- CL.LEN (42 R182). -/
def Obligations.CodeLengthIsAppended : Prop :=
  ∀ n s, ∃ t, exec (.clLen n) s = .next t ∧
    (s.lidx < s.lens.length → t.lens[s.lidx]? = some n) ∧ (∀ k, k ≠ s.lidx → t.lens[k]? = s.lens[k]?) ∧
    t = { s with lens := t.lens, lidx := s.lidx + 1, prevlen := some n }

/-- CL.REP (42 R183). -/
def Obligations.RepeatCopiesThePreviousLength : Prop :=
  (∀ (e : BitVec 2) s,
    (s.prevlen = none → Raises (.clRep e) s .malformedBitstream) ∧
    (∀ v, s.prevlen = some v → s.nlit.toNat + s.ndist.toNat < s.lidx + (3 + e.toNat) →
      Raises (.clRep e) s .malformedBitstream) ∧
    (∀ v, s.prevlen = some v → s.lidx + (3 + e.toNat) ≤ s.nlit.toNat + s.ndist.toNat →
      ∃ t, exec (.clRep e) s = .next t ∧
        (∀ k, k < s.lens.length → t.lens[k]? = if s.lidx ≤ k ∧ k < s.lidx + (3 + e.toNat) then some v else s.lens[k]?) ∧
        t = { s with lens := t.lens, lidx := s.lidx + (3 + e.toNat) })) ∧
  (∀ T w bits rest, decodeSymbol listReader T maxCl bits = .got w rest → w.sym = 16 →
    decodeBits (.clSymbol T false) bits = .got { instr := .clRep 0, walked := some w } rest) ∧
  ∀ T w bits rest (e : BitVec 2), decodeSymbol listReader T maxCl bits = .got w (fieldBits 2 e.toNat ++ rest) → w.sym = 16 →
    decodeBits (.clSymbol T true) bits = .got { instr := .clRep e, walked := some w } rest

/-- CL.Z3 (42 R184), CL.Z11 (42 R185) and the overrun of any run (42 R186). -/
def Obligations.ZeroRunsAppendZeros : Prop :=
  (∀ i r, (∃ e : BitVec 3, i = .clZ3 e ∧ r = 3 + e.toNat) ∨ (∃ e : BitVec 7, i = .clZ11 e ∧ r = 11 + e.toNat) →
    ∀ s,
      (s.nlit.toNat + s.ndist.toNat < s.lidx + r → Raises i s .malformedBitstream) ∧
      (s.lidx + r ≤ s.nlit.toNat + s.ndist.toNat → ∃ t, exec i s = .next t ∧
        (∀ k, k < s.lens.length → t.lens[k]? = if s.lidx ≤ k ∧ k < s.lidx + r then some 0 else s.lens[k]?) ∧
        t = { s with lens := t.lens, lidx := s.lidx + r, prevlen := some 0 })) ∧
  (∀ (e : BitVec 2) s v, s.prevlen = some v → s.nlit.toNat + s.ndist.toNat < s.lidx + (3 + e.toNat) →
    Raises (.clRep e) s .malformedBitstream) ∧
  (∀ p T w bits rest (e : BitVec 3), decodeSymbol listReader T maxCl bits = .got w (fieldBits 3 e.toNat ++ rest) →
    w.sym = 17 → decodeBits (.clSymbol T p) bits = .got { instr := .clZ3 e, walked := some w } rest) ∧
  ∀ p T w bits rest (e : BitVec 7), decodeSymbol listReader T maxCl bits = .got w (fieldBits 7 e.toNat ++ rest) →
    w.sym = 18 → decodeBits (.clSymbol T p) bits = .got { instr := .clZ11 e, walked := some w } rest

/-- The split (42 R187) and the BUILD of the block's codes (42 R188). -/
def Obligations.ListEndSplitsTheTables : Prop :=
  ∀ s, s.status = .inflate → s.point = .codeLengths → s.lens.length = 320 → s.nlit.toNat ≤ 288 → s.ndist.toNat ≤ 32 →
    s.lidx = s.nlit.toNat + s.ndist.toNat →
    ∃ (L D : List (BitVec 4)), L.length = 288 ∧ D.length = 32 ∧
      (∀ k, k < 288 → L[k]? = if k < s.nlit.toNat then s.lens[k]? else some 0) ∧
      (∀ d, d < 32 → D[d]? = if d < s.ndist.toNat then s.lens[s.nlit.toNat + d]? else some 0) ∧
      (overSubscribed (lengthsOf L) 15 = false → overSubscribed (lengthsOf D) 15 = false →
        engineMove s = .next { s with lllen := L, dlen := D, point := .symbols }) ∧
      (overSubscribed (lengthsOf L) 15 = true ∨ overSubscribed (lengthsOf D) 15 = true →
        ∃ t, engineMove s = .next t ∧ Faulted .malformedBitstream t)

/-- LIT (43 R202) and APPEND (43 R201). -/
def Obligations.LiteralAppendsItsByte : Prop :=
  ∀ b : Byte,
    ReadsAs fixedSymbols (if b.toNat ≤ 143 then codeBits 8 (0b00110000 + b.toNat) else codeBits 9 (0b110010000 + (b.toNat - 144)))
      (.lit b) ∧
    ∀ s,
      (s.cap.outCap ≠ some s.outLen → ∃ t, exec (.lit b) s = .next t ∧
        memRead t.out s.outLen = some b ∧ (∀ a, a ≠ s.outLen → memRead t.out a = memRead s.out a) ∧
        t = { s with out := t.out, outLen := s.outLen + 1 }) ∧
      (s.cap.outCap = some s.outLen → Raises (.lit b) s .capacityExceeded)

/-- LEN257 to LEN264 (43 R220 to R227) and LEN285 (43 R248). -/
def Obligations.LengthsWithoutExtraBits : Prop :=
  (ReadsAs fixedSymbols (stream [0, 0, 0, 0, 0, 0, 1]) .len257 ∧
    ∀ s, exec .len257 s = .next { s with len := 3, point := .distance }) ∧
  (ReadsAs fixedSymbols (stream [0, 0, 0, 0, 0, 1, 0]) .len258 ∧
    ∀ s, exec .len258 s = .next { s with len := 4, point := .distance }) ∧
  (ReadsAs fixedSymbols (stream [0, 0, 0, 0, 0, 1, 1]) .len259 ∧
    ∀ s, exec .len259 s = .next { s with len := 5, point := .distance }) ∧
  (ReadsAs fixedSymbols (stream [0, 0, 0, 0, 1, 0, 0]) .len260 ∧
    ∀ s, exec .len260 s = .next { s with len := 6, point := .distance }) ∧
  (ReadsAs fixedSymbols (stream [0, 0, 0, 0, 1, 0, 1]) .len261 ∧
    ∀ s, exec .len261 s = .next { s with len := 7, point := .distance }) ∧
  (ReadsAs fixedSymbols (stream [0, 0, 0, 0, 1, 1, 0]) .len262 ∧
    ∀ s, exec .len262 s = .next { s with len := 8, point := .distance }) ∧
  (ReadsAs fixedSymbols (stream [0, 0, 0, 0, 1, 1, 1]) .len263 ∧
    ∀ s, exec .len263 s = .next { s with len := 9, point := .distance }) ∧
  (ReadsAs fixedSymbols (stream [0, 0, 0, 1, 0, 0, 0]) .len264 ∧
    ∀ s, exec .len264 s = .next { s with len := 10, point := .distance }) ∧
  (ReadsAs fixedSymbols (stream [1, 1, 0, 0, 0, 1, 0, 1]) .len285 ∧
    ∀ s, exec .len285 s = .next { s with len := 258, point := .distance })

/-- LEN265 to LEN276 (43 R228 to R239). -/
def Obligations.LengthsWithOneToThreeExtraBits : Prop :=
  (∀ e : BitVec 1, ReadsAs fixedSymbols (stream [0, 0, 0, 1, 0, 0, 1] ++ fieldBits 1 e.toNat) (.len265 e) ∧
    ∀ s, ∃ t, exec (.len265 e) s = .next t ∧ t.len.toNat = 11 + e.toNat ∧ t = { s with len := t.len, point := .distance }) ∧
  (∀ e : BitVec 1, ReadsAs fixedSymbols (stream [0, 0, 0, 1, 0, 1, 0] ++ fieldBits 1 e.toNat) (.len266 e) ∧
    ∀ s, ∃ t, exec (.len266 e) s = .next t ∧ t.len.toNat = 13 + e.toNat ∧ t = { s with len := t.len, point := .distance }) ∧
  (∀ e : BitVec 1, ReadsAs fixedSymbols (stream [0, 0, 0, 1, 0, 1, 1] ++ fieldBits 1 e.toNat) (.len267 e) ∧
    ∀ s, ∃ t, exec (.len267 e) s = .next t ∧ t.len.toNat = 15 + e.toNat ∧ t = { s with len := t.len, point := .distance }) ∧
  (∀ e : BitVec 1, ReadsAs fixedSymbols (stream [0, 0, 0, 1, 1, 0, 0] ++ fieldBits 1 e.toNat) (.len268 e) ∧
    ∀ s, ∃ t, exec (.len268 e) s = .next t ∧ t.len.toNat = 17 + e.toNat ∧ t = { s with len := t.len, point := .distance }) ∧
  (∀ e : BitVec 2, ReadsAs fixedSymbols (stream [0, 0, 0, 1, 1, 0, 1] ++ fieldBits 2 e.toNat) (.len269 e) ∧
    ∀ s, ∃ t, exec (.len269 e) s = .next t ∧ t.len.toNat = 19 + e.toNat ∧ t = { s with len := t.len, point := .distance }) ∧
  (∀ e : BitVec 2, ReadsAs fixedSymbols (stream [0, 0, 0, 1, 1, 1, 0] ++ fieldBits 2 e.toNat) (.len270 e) ∧
    ∀ s, ∃ t, exec (.len270 e) s = .next t ∧ t.len.toNat = 23 + e.toNat ∧ t = { s with len := t.len, point := .distance }) ∧
  (∀ e : BitVec 2, ReadsAs fixedSymbols (stream [0, 0, 0, 1, 1, 1, 1] ++ fieldBits 2 e.toNat) (.len271 e) ∧
    ∀ s, ∃ t, exec (.len271 e) s = .next t ∧ t.len.toNat = 27 + e.toNat ∧ t = { s with len := t.len, point := .distance }) ∧
  (∀ e : BitVec 2, ReadsAs fixedSymbols (stream [0, 0, 1, 0, 0, 0, 0] ++ fieldBits 2 e.toNat) (.len272 e) ∧
    ∀ s, ∃ t, exec (.len272 e) s = .next t ∧ t.len.toNat = 31 + e.toNat ∧ t = { s with len := t.len, point := .distance }) ∧
  (∀ e : BitVec 3, ReadsAs fixedSymbols (stream [0, 0, 1, 0, 0, 0, 1] ++ fieldBits 3 e.toNat) (.len273 e) ∧
    ∀ s, ∃ t, exec (.len273 e) s = .next t ∧ t.len.toNat = 35 + e.toNat ∧ t = { s with len := t.len, point := .distance }) ∧
  (∀ e : BitVec 3, ReadsAs fixedSymbols (stream [0, 0, 1, 0, 0, 1, 0] ++ fieldBits 3 e.toNat) (.len274 e) ∧
    ∀ s, ∃ t, exec (.len274 e) s = .next t ∧ t.len.toNat = 43 + e.toNat ∧ t = { s with len := t.len, point := .distance }) ∧
  (∀ e : BitVec 3, ReadsAs fixedSymbols (stream [0, 0, 1, 0, 0, 1, 1] ++ fieldBits 3 e.toNat) (.len275 e) ∧
    ∀ s, ∃ t, exec (.len275 e) s = .next t ∧ t.len.toNat = 51 + e.toNat ∧ t = { s with len := t.len, point := .distance }) ∧
  (∀ e : BitVec 3, ReadsAs fixedSymbols (stream [0, 0, 1, 0, 1, 0, 0] ++ fieldBits 3 e.toNat) (.len276 e) ∧
    ∀ s, ∃ t, exec (.len276 e) s = .next t ∧ t.len.toNat = 59 + e.toNat ∧ t = { s with len := t.len, point := .distance })

/-- LEN277 to LEN284 (43 R240 to R247). -/
def Obligations.LengthsWithFourOrFiveExtraBits : Prop :=
  (∀ e : BitVec 4, ReadsAs fixedSymbols (stream [0, 0, 1, 0, 1, 0, 1] ++ fieldBits 4 e.toNat) (.len277 e) ∧
    ∀ s, ∃ t, exec (.len277 e) s = .next t ∧ t.len.toNat = 67 + e.toNat ∧ t = { s with len := t.len, point := .distance }) ∧
  (∀ e : BitVec 4, ReadsAs fixedSymbols (stream [0, 0, 1, 0, 1, 1, 0] ++ fieldBits 4 e.toNat) (.len278 e) ∧
    ∀ s, ∃ t, exec (.len278 e) s = .next t ∧ t.len.toNat = 83 + e.toNat ∧ t = { s with len := t.len, point := .distance }) ∧
  (∀ e : BitVec 4, ReadsAs fixedSymbols (stream [0, 0, 1, 0, 1, 1, 1] ++ fieldBits 4 e.toNat) (.len279 e) ∧
    ∀ s, ∃ t, exec (.len279 e) s = .next t ∧ t.len.toNat = 99 + e.toNat ∧ t = { s with len := t.len, point := .distance }) ∧
  (∀ e : BitVec 4, ReadsAs fixedSymbols (stream [1, 1, 0, 0, 0, 0, 0, 0] ++ fieldBits 4 e.toNat) (.len280 e) ∧
    ∀ s, ∃ t, exec (.len280 e) s = .next t ∧ t.len.toNat = 115 + e.toNat ∧ t = { s with len := t.len, point := .distance }) ∧
  (∀ e : BitVec 5, ReadsAs fixedSymbols (stream [1, 1, 0, 0, 0, 0, 0, 1] ++ fieldBits 5 e.toNat) (.len281 e) ∧
    ∀ s, ∃ t, exec (.len281 e) s = .next t ∧ t.len.toNat = 131 + e.toNat ∧ t = { s with len := t.len, point := .distance }) ∧
  (∀ e : BitVec 5, ReadsAs fixedSymbols (stream [1, 1, 0, 0, 0, 0, 1, 0] ++ fieldBits 5 e.toNat) (.len282 e) ∧
    ∀ s, ∃ t, exec (.len282 e) s = .next t ∧ t.len.toNat = 163 + e.toNat ∧ t = { s with len := t.len, point := .distance }) ∧
  (∀ e : BitVec 5, ReadsAs fixedSymbols (stream [1, 1, 0, 0, 0, 0, 1, 1] ++ fieldBits 5 e.toNat) (.len283 e) ∧
    ∀ s, ∃ t, exec (.len283 e) s = .next t ∧ t.len.toNat = 195 + e.toNat ∧ t = { s with len := t.len, point := .distance }) ∧
  (∀ e : BitVec 5, ReadsAs fixedSymbols (stream [1, 1, 0, 0, 0, 1, 0, 0] ++ fieldBits 5 e.toNat) (.len284 e) ∧
    ∀ s, ∃ t, exec (.len284 e) s = .next t ∧ t.len.toNat = 227 + e.toNat ∧ t = { s with len := t.len, point := .distance })

/-- DIST0 to DIST9 (43 R250 to R259) with the COPY of 43 R285. -/
def Obligations.CopiesAtDistances1To32 : Prop :=
  (ReadsAs fixedDistances (stream [0, 0, 0, 0, 0]) .dist0 ∧
    ∀ s, Copyable 1 s → ∃ t, exec .dist0 s = .next t ∧ Copied 1 s t) ∧
  (ReadsAs fixedDistances (stream [0, 0, 0, 0, 1]) .dist1 ∧
    ∀ s, Copyable 2 s → ∃ t, exec .dist1 s = .next t ∧ Copied 2 s t) ∧
  (ReadsAs fixedDistances (stream [0, 0, 0, 1, 0]) .dist2 ∧
    ∀ s, Copyable 3 s → ∃ t, exec .dist2 s = .next t ∧ Copied 3 s t) ∧
  (ReadsAs fixedDistances (stream [0, 0, 0, 1, 1]) .dist3 ∧
    ∀ s, Copyable 4 s → ∃ t, exec .dist3 s = .next t ∧ Copied 4 s t) ∧
  (∀ e : BitVec 1, ReadsAs fixedDistances (stream [0, 0, 1, 0, 0] ++ fieldBits 1 e.toNat) (.dist4 e) ∧
    ∀ s, Copyable (5 + e.toNat) s → ∃ t, exec (.dist4 e) s = .next t ∧ Copied (5 + e.toNat) s t) ∧
  (∀ e : BitVec 1, ReadsAs fixedDistances (stream [0, 0, 1, 0, 1] ++ fieldBits 1 e.toNat) (.dist5 e) ∧
    ∀ s, Copyable (7 + e.toNat) s → ∃ t, exec (.dist5 e) s = .next t ∧ Copied (7 + e.toNat) s t) ∧
  (∀ e : BitVec 2, ReadsAs fixedDistances (stream [0, 0, 1, 1, 0] ++ fieldBits 2 e.toNat) (.dist6 e) ∧
    ∀ s, Copyable (9 + e.toNat) s → ∃ t, exec (.dist6 e) s = .next t ∧ Copied (9 + e.toNat) s t) ∧
  (∀ e : BitVec 2, ReadsAs fixedDistances (stream [0, 0, 1, 1, 1] ++ fieldBits 2 e.toNat) (.dist7 e) ∧
    ∀ s, Copyable (13 + e.toNat) s → ∃ t, exec (.dist7 e) s = .next t ∧ Copied (13 + e.toNat) s t) ∧
  (∀ e : BitVec 3, ReadsAs fixedDistances (stream [0, 1, 0, 0, 0] ++ fieldBits 3 e.toNat) (.dist8 e) ∧
    ∀ s, Copyable (17 + e.toNat) s → ∃ t, exec (.dist8 e) s = .next t ∧ Copied (17 + e.toNat) s t) ∧
  (∀ e : BitVec 3, ReadsAs fixedDistances (stream [0, 1, 0, 0, 1] ++ fieldBits 3 e.toNat) (.dist9 e) ∧
    ∀ s, Copyable (25 + e.toNat) s → ∃ t, exec (.dist9 e) s = .next t ∧ Copied (25 + e.toNat) s t)

/-- DIST10 to DIST19 (43 R260 to R269) with the COPY of 43 R285. -/
def Obligations.CopiesAtDistances33To1024 : Prop :=
  (∀ e : BitVec 4, ReadsAs fixedDistances (stream [0, 1, 0, 1, 0] ++ fieldBits 4 e.toNat) (.dist10 e) ∧
    ∀ s, Copyable (33 + e.toNat) s → ∃ t, exec (.dist10 e) s = .next t ∧ Copied (33 + e.toNat) s t) ∧
  (∀ e : BitVec 4, ReadsAs fixedDistances (stream [0, 1, 0, 1, 1] ++ fieldBits 4 e.toNat) (.dist11 e) ∧
    ∀ s, Copyable (49 + e.toNat) s → ∃ t, exec (.dist11 e) s = .next t ∧ Copied (49 + e.toNat) s t) ∧
  (∀ e : BitVec 5, ReadsAs fixedDistances (stream [0, 1, 1, 0, 0] ++ fieldBits 5 e.toNat) (.dist12 e) ∧
    ∀ s, Copyable (65 + e.toNat) s → ∃ t, exec (.dist12 e) s = .next t ∧ Copied (65 + e.toNat) s t) ∧
  (∀ e : BitVec 5, ReadsAs fixedDistances (stream [0, 1, 1, 0, 1] ++ fieldBits 5 e.toNat) (.dist13 e) ∧
    ∀ s, Copyable (97 + e.toNat) s → ∃ t, exec (.dist13 e) s = .next t ∧ Copied (97 + e.toNat) s t) ∧
  (∀ e : BitVec 6, ReadsAs fixedDistances (stream [0, 1, 1, 1, 0] ++ fieldBits 6 e.toNat) (.dist14 e) ∧
    ∀ s, Copyable (129 + e.toNat) s → ∃ t, exec (.dist14 e) s = .next t ∧ Copied (129 + e.toNat) s t) ∧
  (∀ e : BitVec 6, ReadsAs fixedDistances (stream [0, 1, 1, 1, 1] ++ fieldBits 6 e.toNat) (.dist15 e) ∧
    ∀ s, Copyable (193 + e.toNat) s → ∃ t, exec (.dist15 e) s = .next t ∧ Copied (193 + e.toNat) s t) ∧
  (∀ e : BitVec 7, ReadsAs fixedDistances (stream [1, 0, 0, 0, 0] ++ fieldBits 7 e.toNat) (.dist16 e) ∧
    ∀ s, Copyable (257 + e.toNat) s → ∃ t, exec (.dist16 e) s = .next t ∧ Copied (257 + e.toNat) s t) ∧
  (∀ e : BitVec 7, ReadsAs fixedDistances (stream [1, 0, 0, 0, 1] ++ fieldBits 7 e.toNat) (.dist17 e) ∧
    ∀ s, Copyable (385 + e.toNat) s → ∃ t, exec (.dist17 e) s = .next t ∧ Copied (385 + e.toNat) s t) ∧
  (∀ e : BitVec 8, ReadsAs fixedDistances (stream [1, 0, 0, 1, 0] ++ fieldBits 8 e.toNat) (.dist18 e) ∧
    ∀ s, Copyable (513 + e.toNat) s → ∃ t, exec (.dist18 e) s = .next t ∧ Copied (513 + e.toNat) s t) ∧
  (∀ e : BitVec 8, ReadsAs fixedDistances (stream [1, 0, 0, 1, 1] ++ fieldBits 8 e.toNat) (.dist19 e) ∧
    ∀ s, Copyable (769 + e.toNat) s → ∃ t, exec (.dist19 e) s = .next t ∧ Copied (769 + e.toNat) s t)

/-- DIST20 to DIST29 (43 R270 to R279) with the COPY of 43 R285. -/
def Obligations.CopiesAtDistances1025To32768 : Prop :=
  (∀ e : BitVec 9, ReadsAs fixedDistances (stream [1, 0, 1, 0, 0] ++ fieldBits 9 e.toNat) (.dist20 e) ∧
    ∀ s, Copyable (1025 + e.toNat) s → ∃ t, exec (.dist20 e) s = .next t ∧ Copied (1025 + e.toNat) s t) ∧
  (∀ e : BitVec 9, ReadsAs fixedDistances (stream [1, 0, 1, 0, 1] ++ fieldBits 9 e.toNat) (.dist21 e) ∧
    ∀ s, Copyable (1537 + e.toNat) s → ∃ t, exec (.dist21 e) s = .next t ∧ Copied (1537 + e.toNat) s t) ∧
  (∀ e : BitVec 10, ReadsAs fixedDistances (stream [1, 0, 1, 1, 0] ++ fieldBits 10 e.toNat) (.dist22 e) ∧
    ∀ s, Copyable (2049 + e.toNat) s → ∃ t, exec (.dist22 e) s = .next t ∧ Copied (2049 + e.toNat) s t) ∧
  (∀ e : BitVec 10, ReadsAs fixedDistances (stream [1, 0, 1, 1, 1] ++ fieldBits 10 e.toNat) (.dist23 e) ∧
    ∀ s, Copyable (3073 + e.toNat) s → ∃ t, exec (.dist23 e) s = .next t ∧ Copied (3073 + e.toNat) s t) ∧
  (∀ e : BitVec 11, ReadsAs fixedDistances (stream [1, 1, 0, 0, 0] ++ fieldBits 11 e.toNat) (.dist24 e) ∧
    ∀ s, Copyable (4097 + e.toNat) s → ∃ t, exec (.dist24 e) s = .next t ∧ Copied (4097 + e.toNat) s t) ∧
  (∀ e : BitVec 11, ReadsAs fixedDistances (stream [1, 1, 0, 0, 1] ++ fieldBits 11 e.toNat) (.dist25 e) ∧
    ∀ s, Copyable (6145 + e.toNat) s → ∃ t, exec (.dist25 e) s = .next t ∧ Copied (6145 + e.toNat) s t) ∧
  (∀ e : BitVec 12, ReadsAs fixedDistances (stream [1, 1, 0, 1, 0] ++ fieldBits 12 e.toNat) (.dist26 e) ∧
    ∀ s, Copyable (8193 + e.toNat) s → ∃ t, exec (.dist26 e) s = .next t ∧ Copied (8193 + e.toNat) s t) ∧
  (∀ e : BitVec 12, ReadsAs fixedDistances (stream [1, 1, 0, 1, 1] ++ fieldBits 12 e.toNat) (.dist27 e) ∧
    ∀ s, Copyable (12289 + e.toNat) s → ∃ t, exec (.dist27 e) s = .next t ∧ Copied (12289 + e.toNat) s t) ∧
  (∀ e : BitVec 13, ReadsAs fixedDistances (stream [1, 1, 1, 0, 0] ++ fieldBits 13 e.toNat) (.dist28 e) ∧
    ∀ s, Copyable (16385 + e.toNat) s → ∃ t, exec (.dist28 e) s = .next t ∧ Copied (16385 + e.toNat) s t) ∧
  (∀ e : BitVec 13, ReadsAs fixedDistances (stream [1, 1, 1, 0, 1] ++ fieldBits 13 e.toNat) (.dist29 e) ∧
    ∀ s, Copyable (24577 + e.toNat) s → ∃ t, exec (.dist29 e) s = .next t ∧ Copied (24577 + e.toNat) s t)

/-- Distance too far (43 R286). -/
def Obligations.DistanceTooFarFaults : Prop :=
  ∀ i d s, distanceOf i = some d →
    (s.outLen < d → Raises i s .malformedBitstream) ∧
    (s.outLen = 0 → Raises i s .malformedBitstream) ∧
    (Copyable d s → s.outLen = d → 1 ≤ s.len.toNat →
      ∃ t, exec i s = .next t ∧ t.status = s.status ∧ memRead t.out s.outLen = memRead s.out 0)

/-- Overlap (43 R287). -/
def Obligations.OverlapRepeatsThePattern : Prop :=
  (∀ i d s, distanceOf i = some d → Copyable d s → ∃ t, exec i s = .next t ∧
    ∀ j, j < s.len.toNat → memRead t.out (s.outLen + j) = memRead s.out (s.outLen - d + j % d)) ∧
  ∀ s, s.len = 5 → s.outLen = 1 → s.out = [(0, 0x41)] → s.cap.outCap = none →
    ∃ t, exec .dist0 s = .next t ∧ t.out = [(0, 0x41), (1, 0x41), (2, 0x41), (3, 0x41), (4, 0x41), (5, 0x41)]

/-- Reads stay in bounds (43 R288). -/
def Obligations.CopyNeverReadsAnUnwrittenCell : Prop :=
  ∀ n s r, 1 ≤ s.dist.toNat → s.dist.toNat ≤ s.outLen → cellsBelow s.outLen s.out → copySteps n s ≠ .stop r

/-- The symbols without a meaning (43 R210, R211, R280, R281). -/
def Obligations.ReservedSymbolsFault : Prop :=
  ReadsAs fixedSymbols (stream [1, 1, 0, 0, 0, 1, 1, 0]) .llrsv286 ∧
  ReadsAs fixedSymbols (stream [1, 1, 0, 0, 0, 1, 1, 1]) .llrsv287 ∧
  (∀ T w bits rest, decodeSymbol listReader T maxSym bits = .got w rest →
    (w.sym = 30 → T[30]? ≠ some 0 ∧ decodeBits (.distance T) bits = .got { instr := .drsv30, walked := some w } rest) ∧
    (w.sym = 31 → T[31]? ≠ some 0 ∧ decodeBits (.distance T) bits = .got { instr := .drsv31, walked := some w } rest)) ∧
  ∀ s, Raises .llrsv286 s .malformedBitstream ∧ Raises .llrsv287 s .malformedBitstream ∧
    Raises .drsv30 s .malformedBitstream ∧ Raises .drsv31 s .malformedBitstream

/-- CapacityExceeded (60 R349): the two operations, and the elements that repeat them (43 R285, 45 R320). -/
def Obligations.CapacityExceededBeforeTheWrite : Prop :=
  (∀ b s, s.cap.outCap = some s.outLen → append b s = .raise .capacityExceeded s) ∧
  (∀ b s, s.cap.outCap ≠ some s.outLen → append b s = .go { s with out := memWrite s.out s.outLen b, outLen := s.outLen + 1 }) ∧
  (∀ v s, s.cap.pixCap = some s.pixLen → emit v s = .raise .capacityExceeded s) ∧
  (∀ v s, s.cap.pixCap ≠ some s.pixLen → emit v s = .go { s with pix := memWrite s.pix s.pixLen v, pixLen := s.pixLen + 1 }) ∧
  (∀ s t, s.cap.outCap = none → s.cap.pixCap = none → engineMove s = .next t → s.err ≠ .capacityExceeded →
    t.err ≠ .capacityExceeded) ∧
  (∀ i d s c, distanceOf i = some d → d ≤ s.outLen → cellsBelow s.outLen s.out → s.cap.outCap = some c → s.outLen ≤ c →
    c < s.outLen + s.len.toNat → Raises i s .capacityExceeded) ∧
  ∀ i n s c,
    (i = .unpk8 ∧ n = s.rowbytes) ∨ (i = .unpk16 ∧ n = s.rowbytes / 2) ∨
      (i = .unpk1 ∧ n = s.width ∧ s.rowbytes = (s.width + 7) / 8) ∨ (i = .unpk2 ∧ n = s.width ∧ s.rowbytes = (s.width + 3) / 4) ∨
      (i = .unpk4 ∧ n = s.width ∧ s.rowbytes = (s.width + 1) / 2) →
    s.cur.length = s.rowbytes → s.cap.pixCap = some c → s.pixLen ≤ c → c < s.pixLen + n → Raises i s .capacityExceeded

/-- The pseudo-instructions of SASM (30 R131). -/
def Obligations.MatchExpandsUniquely : Prop :=
  (∀ L D, 3 ≤ L → L ≤ 258 → 1 ≤ D → D ≤ 32768 →
    ∃ k d i j, sasmMatch L D = some (i, j) ∧
      lengthClass k L ∧ (k = 284 → L ≠ 258) ∧ (∀ m, lengthClass m L → (m = 284 → L ≠ 258) → m = k) ∧
      distanceClass d D ∧ (∀ m, distanceClass m D → m = d) ∧
      i.format = .ll ∧ i.number = k ∧ j.format = .d ∧ j.number = d ∧ distanceOf j = some D ∧
      ∀ s, exec i s = .next { s with len := BitVec.ofNat 9 L, point := .distance }) ∧
  ∀ f : BitVec 1, (sasmFixed f).number = f.toNat + 2 * 1 ∧ (sasmDyn f).number = f.toNat + 2 * 2 ∧
    (sasmFixed f).format = .bhdr ∧ (sasmDyn f).format = .bhdr

/-- The head of the scanline loop (44 R291) and the opcode byte FT (30 R112). -/
def Obligations.ScanlineByteSelectsItsFilter : Prop :=
  ∀ s (ft : Byte), s.status = .scan → s.point = .scanline → s.rptr + s.rowbytes + 1 ≤ s.outLen →
    memRead s.out s.rptr = some ft →
    engineMove s = exec
      (if ft = 0 then .filtNone else if ft = 1 then .filtSub else if ft = 2 then .filtUp
        else if ft = 3 then .filtAvg else if ft = 4 then .filtPaeth else .filtInv ft) { s with ft := ft }

/-- The neighbours (44 R292) and the filters 0 to 3 (44 R293 to R296). -/
def Obligations.FiltersReconstructTheRow : Prop :=
  Reconstructs .filtNone (fun _ _ _ => 0) ∧ Reconstructs .filtSub (fun a _ _ => a) ∧ Reconstructs .filtUp (fun _ b _ => b) ∧
  Reconstructs .filtAvg (fun a b _ => BitVec.ofNat 8 ((a.toNat + b.toNat) / 2))

/-- FILT.PAETH (44 R297). -/
def Obligations.PaethReconstructsTheRow : Prop :=
  Reconstructs .filtPaeth paeth ∧ ∀ a b c : Byte, ∃ p : Int, p = a.toNat + b.toNat - c.toNat ∧
    (|p - a.toNat| ≤ |p - b.toNat| ∧ |p - a.toNat| ≤ |p - c.toNat| → paeth a b c = a) ∧
    (¬(|p - a.toNat| ≤ |p - b.toNat| ∧ |p - a.toNat| ≤ |p - c.toNat|) → |p - b.toNat| ≤ |p - c.toNat| → paeth a b c = b) ∧
    (¬(|p - a.toNat| ≤ |p - b.toNat| ∧ |p - a.toNat| ≤ |p - c.toNat|) → ¬|p - b.toNat| ≤ |p - c.toNat| → paeth a b c = c) ∧
    |p - (paeth a b c).toNat| ≤ |p - a.toNat| ∧ |p - (paeth a b c).toNat| ≤ |p - b.toNat| ∧
    |p - (paeth a b c).toNat| ≤ |p - c.toNat|

/-- The round trip of the five filters (44 R301). -/
def Obligations.UndoingAFilterRecoversTheRow : Prop :=
  RecoversRow .filtNone (fun _ _ _ => 0) ∧ RecoversRow .filtSub (fun a _ _ => a) ∧ RecoversRow .filtUp (fun _ b _ => b) ∧
  RecoversRow .filtAvg (fun a b _ => BitVec.ofNat 8 ((a.toNat + b.toNat) / 2)) ∧ RecoversRow .filtPaeth paeth

/-- FILT.INV (44 R298). -/
def Obligations.InvalidFilterFaults : Prop :=
  (∀ ft : Byte, 5 ≤ ft.toNat → ReadsAs .scanline (fieldBits 8 ft.toNat) (.filtInv ft)) ∧
  (∀ ft s, Raises (.filtInv ft) s .invalidFilterType) ∧
  (∀ s (ft : Byte), s.status = .scan → s.point = .scanline → s.rptr + s.rowbytes + 1 ≤ s.outLen →
    memRead s.out s.rptr = some ft → 5 ≤ ft.toNat → ∃ t, engineMove s = .next t ∧ Faulted .invalidFilterType t) ∧
  ∀ s t, s.status = .scan → s.point = .scanline → s.outLen < s.rptr + s.rowbytes + 1 → engineMove s = .next t →
    s.err ≠ .invalidFilterType → t.err ≠ .invalidFilterType

/-- The residual check (44 R300). -/
def Obligations.ScanlinesEndInDoneOrTruncatedImage : Prop :=
  (∀ s, s.status = .scan → s.point = .scanline → s.outLen < s.rptr + s.rowbytes + 1 →
    (s.rptr = s.outLen → engineMove s = .next { s with status := .done }) ∧
    (s.rptr ≠ s.outLen → ∃ t, engineMove s = .next t ∧ Faulted .truncatedImageData t)) ∧
  ∀ s, s.status = .scan → s.point = .scanline → s.rowbytes = 2 → s.outLen = 7 → s.rptr = 6 →
    ∃ t, engineMove s = .next t ∧ Faulted .truncatedImageData t

/-- UNPK8, 16, 1, 2, 4 (45 R321 to R325), EMIT (45 R327) and the row hand-over (44 R299). -/
def Obligations.UnpackEmitsItsSamples : Prop :=
  (∀ s, s.cur.length = s.rowbytes → PixReady (s.rowbytes) s →
    ∃ t, exec .unpk8 s = .next t ∧ Unpacked (s.rowbytes) (fun j => curByte s j) s t) ∧
  (∀ s, s.cur.length = s.rowbytes → PixReady (s.rowbytes / 2) s →
    ∃ t, exec .unpk16 s = .next t ∧ Unpacked (s.rowbytes / 2) (fun j => curByte s (2 * j) * 256 + curByte s (2 * j + 1)) s t) ∧
  (∀ s, s.cur.length = s.rowbytes → s.rowbytes = (s.width + 7) / 8 → PixReady (s.width) s →
    ∃ t, exec .unpk1 s = .next t ∧ Unpacked (s.width) (fun j => curByte s (j / 8) / 2 ^ (7 - j % 8) % 2) s t) ∧
  (∀ s, s.cur.length = s.rowbytes → s.rowbytes = (s.width + 3) / 4 → PixReady (s.width) s →
    ∃ t, exec .unpk2 s = .next t ∧ Unpacked (s.width) (fun j => curByte s (j / 4) / 2 ^ (6 - 2 * (j % 4)) % 4) s t) ∧
  (∀ s, s.cur.length = s.rowbytes → s.rowbytes = (s.width + 1) / 2 → PixReady (s.width) s →
    ∃ t, exec .unpk4 s = .next t ∧ Unpacked (s.width) (fun j => curByte s (j / 2) / 2 ^ (4 - 4 * (j % 2)) % 16) s t)

/-- UNPACK (45 R320). -/
def Obligations.EveryDepthEmitsWidthTimesPlanes : Prop :=
  ∀ s, s.status = .scan → s.point = .unpack → configOk s = true → s.rowbytes = rowBytesOf s → s.cur.length = s.rowbytes →
    PixReady (s.width * s.planes.toNat) s →
    ∃ i t, fetch s = .run i s ∧ exec i s = .next t ∧ t.pixLen = s.pixLen + s.width * s.planes.toNat ∧ t.cur = s.cur ∧
      (s.bitdepth = 8 → i = .unpk8) ∧ (s.bitdepth = 16 → i = .unpk16) ∧ (s.bitdepth = 1 → i = .unpk1) ∧
      (s.bitdepth = 2 → i = .unpk2) ∧ (s.bitdepth = 4 → i = .unpk4)

/-- Who writes what (10 R26, R27, R28 to R30; 20 R72, R74). After a fault the clauses describe the model, which keeps the registers (entry 7). -/
def Obligations.ElementsWriteOnlyTheirRegisters : Prop :=
  ∀ i s t, exec i s = .next t →
    (i.format ≠ .bhdr → t.bfinal = s.bfinal ∧ t.btype = s.btype) ∧
    (i.format ≠ .dynhdr → t.hlit = s.hlit ∧ t.hdist = s.hdist ∧ t.hclen = s.hclen ∧
      t.nlit = s.nlit ∧ t.ndist = s.ndist ∧ t.ncl = s.ncl) ∧
    (i.format ≠ .clclen → i.format ≠ .cl → t.lidx = s.lidx ∧ t.prevlen = s.prevlen) ∧
    (i.format ≠ .cl → t.lens = s.lens) ∧
    (i.format ≠ .clclen → t.cllen = s.cllen) ∧
    (i.format ≠ .bhdr → t.lllen = s.lllen ∧ t.dlen = s.dlen) ∧
    (i.format ≠ .ll → t.len = s.len) ∧
    (i.format ≠ .d → t.dist = s.dist) ∧
    ((∀ b, i ≠ .lit b) → i.format ≠ .d → t.out = s.out ∧ t.outLen = s.outLen) ∧
    (i ≠ .eob → t.rowbytes = s.rowbytes ∧ t.fu = s.fu) ∧
    (i ≠ .eob → i.format ≠ .unpack → t.rptr = s.rptr ∧ t.prior = s.prior) ∧
    (i.format ≠ .scanline → t.col = s.col ∧ t.cur = s.cur) ∧
    (i.format ≠ .unpack → t.pix = s.pix ∧ t.pixLen = s.pixLen ∧ t.rows = s.rows)

/-- The engine never writes IN or registers 3 to 7 (10 R42, 20 R71, R83); the frame common to all elements (10 R23). After a fault the clauses on POS, LA, BITOFF, SYM, DSYM, CODE, CLEN and FT describe the model, which keeps the registers (entry 7); 60 R352 leaves them unspecified. -/
def Obligations.EngineNeverWritesInputOrConfiguration : Prop :=
  (∀ s t, engineMove s = .next t →
    t.inMem = s.inMem ∧ t.inLen = s.inLen ∧ t.mode = s.mode ∧ t.width = s.width ∧ t.bitdepth = s.bitdepth ∧
    t.planes = s.planes ∧ t.cap = s.cap) ∧
  ∀ i s t, exec i s = .next t →
    t.pos = s.pos ∧ t.la = s.la ∧ t.bitoff = s.bitoff ∧ t.sym = s.sym ∧ t.dsym = s.dsym ∧ t.code = s.code ∧
    t.clen = s.clen ∧ t.ft = s.ft ∧ t.inMem = s.inMem ∧ t.inLen = s.inLen ∧ t.mode = s.mode ∧ t.width = s.width ∧
    t.bitdepth = s.bitdepth ∧ t.planes = s.planes ∧ t.cap = s.cap ∧ t.hostQueue = s.hostQueue ∧
    t.hostReply = s.hostReply ∧ t.freeCount = s.freeCount

/-- Append-only outputs and a cursor that only advances (10 R23, R39; 20 R72, R74). -/
def Obligations.OutputsOnlyGrow : Prop :=
  ∀ s t, engineMove s = .next t → t.status ≠ .fault →
    s.outLen ≤ t.outLen ∧ s.pixLen ≤ t.pixLen ∧ bitpos s ≤ bitpos t ∧
    (∀ a, a < s.outLen → memRead t.out a = memRead s.out a) ∧ ∀ a, a < s.pixLen → memRead t.pix a = memRead s.pix a

/-- The kinds the CORE never raises (00 R6) and the code of every kind (60 R341). -/
def Obligations.OnlyTheCoresKindsAreRaised : Prop :=
  (∀ s t, step s = .next t → s.status ≠ .fault → t.status = .fault →
    t.err ≠ .none ∧ t.err ≠ .unexpectedEof ∧ t.err ≠ .invalidSignature ∧ t.err ≠ .invalidChunkType ∧ t.err ≠ .chunkTooLarge ∧
    t.err ≠ .missingRequiredChunk ∧ t.err ≠ .invalidChunkLength ∧ t.err ≠ .invalidSignificantBits) ∧
  ErrKind.unexpectedEof.code = 1 ∧ ErrKind.invalidSignature.code = 2 ∧ ErrKind.invalidChunkType.code = 3 ∧
  ErrKind.chunkTooLarge.code = 4 ∧ ErrKind.missingRequiredChunk.code = 5 ∧ ErrKind.invalidChunkLength.code = 6 ∧
  ErrKind.invalidSignificantBits.code = 11 ∧
  ErrKind.none.code = 0 ∧ ErrKind.truncatedImageData.code = 7 ∧ ErrKind.invalidFilterType.code = 8 ∧
  ErrKind.invalidBlockType.code = 9 ∧ ErrKind.malformedBitstream.code = 10 ∧ ErrKind.truncatedInput.code = 12 ∧
  ErrKind.invalidConfig.code = 13 ∧ ErrKind.capacityExceeded.code = 14

/-- The causes of four kinds (60 R342, R343, R345, R346). -/
def Obligations.FaultKindsAndWhatRaisesThem : Prop :=
  ∀ s t, s.status ≠ .fault → engineMove s = .next t → t.status = .fault →
    (t.err = .invalidBlockType → ∃ f u, fetch s = .run (.bhdrStored f) u ∨ fetch s = .run (.bhdrRsv f) u) ∧
    (t.err = .invalidFilterType → ∃ ft u, fetch s = .run (.filtInv ft) u) ∧
    (t.err = .truncatedInput → ∃ u, decode readBit (contextOf s) s = .stop .exhausted u) ∧
    (t.err = .truncatedImageData → s.point = .scanline ∧ s.outLen < s.rptr + s.rowbytes + 1 ∧ s.rptr ≠ s.outLen)

/-- There is no return from a fault (60 R354). -/
def Obligations.FaultIsLeftOnlyByReset : Prop :=
  ∀ s t, s.status = .fault → step s = .next t →
    (t.status = .fault ∧ t.err = s.err) ∨
    ∃ v rest, s.hostQueue = .ctrl v :: rest ∧ v.getLsbD 1 = true ∧ t = resetCore { s with hostQueue := rest }

/-- START (70 R384) and CONFIG_OK (60 R347). -/
def Obligations.StartChecksTheConfiguration : Prop :=
  ∀ s rest, s.hostQueue = .ctrl 1 :: rest → s.status = .idle →
    ∃ ok : Prop, (ok ↔ 1 ≤ s.width ∧ s.bitdepth.toNat ∈ [1, 2, 4, 8, 16] ∧ 1 ≤ s.planes.toNat ∧ s.planes.toNat ≤ 4 ∧
        (s.bitdepth.toNat < 8 → s.planes.toNat = 1)) ∧
      (s.mode = 1 → ¬ok → ∃ t, step s = .next t ∧ Faulted .invalidConfig t) ∧
      (s.mode = 0 ∨ ok → step s = .next { s with hostQueue := rest, status := .inflate, point := .header })

/-- CTRL and STATUS (10 R32). -/
def Obligations.ControlRegisterBits : Prop :=
  (∀ s (v : BitVec 2) rest, s.hostQueue = .ctrl v :: rest →
    (v = 2 ∨ v = 3 → step s = .next (resetCore { s with hostQueue := rest })) ∧
    (v = 1 → s.status = .idle → step s = .next (start { s with hostQueue := rest })) ∧
    (v = 1 → s.status ≠ .idle → step s = .next { s with hostQueue := rest }) ∧
    (v = 0 → step s = .next { s with hostQueue := rest })) ∧
  (∀ s rest, s.hostQueue = .readReg .ctrl :: rest → step s = .next { s with hostQueue := rest, hostReply := some 0 }) ∧
  ∀ s rest, s.hostQueue = .readReg .status :: rest → ∃ n, n ≤ 4 ∧
    step s = .next { s with hostQueue := rest, hostReply := some n } ∧
    (n = 0 ↔ s.status = .idle) ∧ (n = 1 ↔ s.status = .inflate) ∧ (n = 2 ↔ s.status = .scan) ∧ (n = 3 ↔ s.status = .done) ∧
    (n = 4 ↔ s.status = .fault)

/-- Host writes by state (10 R42, R34). The refusal of a write of IN outside IDLE is the model's choice (entries 10, 11). -/
def Obligations.HostWritesActOnlyWhileIdle : Prop :=
  ∀ s rest,
    (∀ n, s.hostQueue = .writeInLen n :: rest → withinLimit n s.cap.inCap = true →
      step s = .next { s with hostQueue := rest, inLen := if s.status = .idle then n else s.inLen }) ∧
    (∀ v, s.hostQueue = .writeMode v :: rest →
      step s = .next { s with hostQueue := rest, mode := if s.status = .idle then v else s.mode }) ∧
    (∀ n, s.hostQueue = .writeWidth n :: rest → withinLimit n s.cap.widthMax = true →
      step s = .next { s with hostQueue := rest, width := if s.status = .idle then n else s.width }) ∧
    (∀ v, s.hostQueue = .writeBitdepth v :: rest →
      step s = .next { s with hostQueue := rest, bitdepth := if s.status = .idle then v else s.bitdepth }) ∧
    (∀ v, s.hostQueue = .writePlanes v :: rest →
      step s = .next { s with hostQueue := rest, planes := if s.status = .idle then v else s.planes }) ∧
    (∀ a b, s.hostQueue = .writeIn a b :: rest → s.status = .idle → withinLimit (a + 1) s.cap.inCap = true →
      ∃ t, step s = .next t ∧ memRead t.inMem a = some b ∧ (∀ k, k ≠ a → memRead t.inMem k = memRead s.inMem k) ∧
        t = { s with hostQueue := rest, inMem := t.inMem }) ∧
    (∀ a b, s.hostQueue = .writeIn a b :: rest → s.status ≠ .idle → step s = .refused .hostAccess)

/-- Reset (70 R380, 10 R47): the values the spec gives. A START straight after reset faults with TruncatedInput (10 R47). Where the reset of CTRL.RESET leaves a value the spec does not give, the model's choice (entries 1, 12) is not stated here. -/
def Obligations.ResetLeavesTheResetState : Prop :=
  (∀ s t, t = resetCore s ∨ t = State.reset →
    t.status = .idle ∧ t.err = .none ∧ t.inLen = 0 ∧ t.mode = 0 ∧ t.width = 0 ∧ t.bitdepth = 0 ∧ t.planes = 0 ∧
    t.outLen = 0 ∧ t.rows = 0 ∧ t.pixLen = 0 ∧ t.pos = 0 ∧ t.bitoff = 8 ∧ bitpos t = 0 ∧ (t = resetCore s → t.cap = s.cap)) ∧
  (∀ s rest, s.hostQueue = .ctrl 2 :: rest → step s = .next (resetCore { s with hostQueue := rest })) ∧
  ∃ t, Host.Core.run Sys2Proof.core 2 { State.reset with hostQueue := [.ctrl 1] } = .next t ∧ Faulted .truncatedInput t

/-- Host reads by state (10 R31, R42, R46, 60 R352, 70 R387). The refusals are the model's choice (entries 10, 11), and so are the fault of an unwritten cell (entry 2) and the free value in FAULT (entry 6). -/
def Obligations.HostReadsByState : Prop :=
  ∀ s rest,
    (s.hostQueue = .readReg .err :: rest →
      step s = .next { s with hostQueue := rest, hostReply := some (ErrKind.code s.err).toNat }) ∧
    (s.hostQueue = .readReg .status :: rest →
      step s = .next { s with hostQueue := rest, hostReply := some (EngineState.number s.status).toNat }) ∧
    (s.status ≠ .fault → ∀ r v,
      (r = .inLen ∧ v = s.inLen) ∨ (r = .mode ∧ v = s.mode.toNat) ∨ (r = .width ∧ v = s.width) ∨
        (r = .bitdepth ∧ v = s.bitdepth.toNat) ∨ (r = .planes ∧ v = s.planes.toNat) →
      s.hostQueue = .readReg r :: rest → step s = .next { s with hostQueue := rest, hostReply := some v }) ∧
    (s.status = .inflate ∨ s.status = .scan → ∀ a,
      a = .readReg .outLen ∨ a = .readReg .rows ∨ a = .readReg .pixLen ∨ (∃ k, a = .readIn k) ∨ (∃ k, a = .readOut k) ∨
        (∃ k, a = .readPix k) →
      s.hostQueue = a :: rest → step s = .refused .hostAccess) ∧
    (s.status = .idle ∨ s.status = .done →
      (∀ r v, (r = .outLen ∧ v = s.outLen) ∨ (r = .rows ∧ v = s.rows) ∨ (r = .pixLen ∧ v = s.pixLen) →
        s.hostQueue = .readReg r :: rest → step s = .next { s with hostQueue := rest, hostReply := some v }) ∧
      (∀ a v, s.hostQueue = .readIn a :: rest → a < s.inLen → memRead s.inMem a = some v →
        step s = .next { s with hostQueue := rest, hostReply := some v.toNat }) ∧
      (∀ a v, s.hostQueue = .readOut a :: rest → a < s.outLen → memRead s.out a = some v →
        step s = .next { s with hostQueue := rest, hostReply := some v.toNat }) ∧
      (∀ a v, s.hostQueue = .readPix a :: rest → a < s.pixLen → memRead s.pix a = some v →
        step s = .next { s with hostQueue := rest, hostReply := some v.toNat }) ∧
      ∀ a,
        (s.hostQueue = .readIn a :: rest ∧ (s.inLen ≤ a ∨ memRead s.inMem a = none)) ∨
          (s.hostQueue = .readOut a :: rest ∧ (s.outLen ≤ a ∨ memRead s.out a = none)) ∨
          (s.hostQueue = .readPix a :: rest ∧ (s.pixLen ≤ a ∨ memRead s.pix a = none)) →
        step s = .fault .unwrittenCell) ∧
    (s.status = .fault →
      (∀ r, r ∈ [HostReg.inLen, .mode, .width, .bitdepth, .planes, .outLen, .rows, .pixLen] →
        s.hostQueue = .readReg r :: rest →
        ∃ v, step s = .next { s with hostQueue := rest, hostReply := some v, freeCount := s.freeCount + 1 }) ∧
      (∀ a, s.hostQueue = .readIn a :: rest ∨ s.hostQueue = .readOut a :: rest →
        ∃ v, v < 2 ^ 8 ∧ step s = .next { s with hostQueue := rest, hostReply := some v, freeCount := s.freeCount + 1 }) ∧
      ∀ a, s.hostQueue = .readPix a :: rest →
        ∃ v, v < 2 ^ 16 ∧ step s = .next { s with hostQueue := rest, hostReply := some v, freeCount := s.freeCount + 1 })

/-- A step runs the decoded element; what the fetch adds is the cursor, SYM or DSYM, CODE and CLEN (41 R156). A fetch that stops enters the fault of its cause (40 R143, 41 R157). -/
def Obligations.StepRunsTheFetchedElement : Prop :=
  ∀ s, (s.hostQueue = [] → step s = engineMove s) ∧
    (∀ a rest, s.hostQueue = a :: rest →
      step s = if a = .elapse then engineMove { s with hostQueue := rest } else hostMove a { s with hostQueue := rest }) ∧
    (s.status = .inflate → s.point ≠ .scanline → s.point ≠ .unpack →
      (s.point = .codeLengths → s.lidx < s.nlit.toNat + s.ndist.toNat) →
      (∀ d t, decode readBit (contextOf s) s = .got d t → ∃ u, engineMove s = exec d.instr u ∧
        u = { s with pos := t.pos, la := t.la, bitoff := t.bitoff, sym := u.sym, dsym := u.dsym, code := u.code, clen := u.clen } ∧
        (∀ w, d.walked = some w → u.code = BitVec.ofNat 15 w.code ∧ u.clen = BitVec.ofNat 4 w.len ∧
          (s.point = .distance → u.dsym = BitVec.ofNat 5 w.sym ∧ u.sym = s.sym) ∧
          (s.point ≠ .distance → u.sym = BitVec.ofNat 9 w.sym ∧ u.dsym = s.dsym))) ∧
      ∀ w t, decode readBit (contextOf s) s = .stop w t →
        (w = .exhausted → ∃ u, engineMove s = .next u ∧ Faulted .truncatedInput u) ∧
        (w = .malformed → ∃ u, engineMove s = .next u ∧ Faulted .malformedBitstream u) ∧
        (w = .unwritten → engineMove s = .fault .unwrittenCell) ∧
        (w = .noElement → engineMove s = .fault .noElement)) ∧
    (s.status = .scan → s.point = .unpack →
      (∀ i, unpackInstr s.bitdepth.toNat = some i → engineMove s = exec i s) ∧
      (unpackInstr s.bitdepth.toNat = none → engineMove s = .fault .noElement)) ∧
    (s.status = .idle ∨ s.status = .done ∨ s.status = .fault → engineMove s = .next s)

/-- The invariant holds after reset (10 R47, 70 R380). -/
def Obligations.ResetMeetsTheInvariant : Prop :=
  Sys2Proof.Machine.Inv State.reset ∧ ∀ s, Sys2Proof.Machine.Inv (resetCore s)

/-- Every step of the engine or the host keeps Inv. After a fault what Inv says of memories, lengths, tables and cursor describes the model, which keeps them (entry 7). -/
def Obligations.EveryStepKeepsTheInvariant : Prop :=
  ∀ s t, Sys2Proof.Machine.Inv s → step s = .next t → Sys2Proof.Machine.Inv t

/-- Every read is guarded by a bound that raises a fault first (10 R46, 20 R85). -/
def Obligations.EngineNeverStopsOnWrittenInput : Prop :=
  ∀ s, Sys2Proof.Machine.Inv s → InputWritten s → ∃ t, engineMove s = .next t

/-- Termination (70 R390). -/
def Obligations.EveryRunEnds : Prop :=
  ∀ s, Sys2Proof.Machine.Inv s → InputWritten s → s.hostQueue = [] → running s = true →
    ∃ k t, Host.Core.run Sys2Proof.core k s = .next t ∧ (t.status = .done ∨ t.status = .fault)

/-- What DONE says (60 R355). -/
def Obligations.DoneDeliversTheResult : Prop :=
  ∀ s t, Sys2Proof.Machine.Inv s → s.status ≠ .done → engineMove s = .next t → t.status = .done →
    t.bfinal = 1 ∧ (∀ a, a < t.outLen → (memRead t.out a).isSome = true) ∧
    (t.mode = 0 → ∃ u, fetch s = .run .eob u) ∧
    (t.mode = 1 → t.outLen % (rowBytesOf t + 1) = 0 ∧ t.rows = t.outLen / (rowBytesOf t + 1) ∧
      t.pixLen = t.rows * (t.width * t.planes.toNat) ∧ ∀ a, a < t.pixLen → (memRead t.pix a).isSome = true)
end

