-- ==== Sys2Proof/Laws/Huffman.lean ====
section
/-! SUPPORT. The codes of BUILD: which symbols get a code and which code it is, its range, and the gap between the codes of two
lengths. -/

namespace Sys2Proof.Machine

open Sys2Proof

/-! ### Symbols of one length -/

/-- The first `k` entries hold at most as many entries `l` as the table. -/
theorem countLen_take_le (l : Nat) (T : List Nat) (k : Nat) : countLen l (T.take k) ≤ countLen l T := by
  induction T generalizing k with
  | nil => simp [countLen]
  | cons t T ih =>
    cases k with
    | zero => simp [countLen]
    | succ k =>
      simp only [List.take_succ_cons, countLen]
      have := ih k
      split <;> omega

/-- Where entry `k` is `l`, the entries before it hold fewer entries `l` than those up to any later one. -/
theorem countLen_take_lt (l : Nat) (T : List Nat) {k m : Nat} (hk : T[k]? = some l) (hm : k < m) :
    countLen l (T.take k) < countLen l (T.take m) := by
  induction T generalizing k m with
  | nil => simp at hk
  | cons t T ih =>
    obtain ⟨m, rfl⟩ : ∃ n, m = n + 1 := ⟨m - 1, by omega⟩
    cases k with
    | zero =>
      simp only [List.getElem?_cons_zero, Option.some.injEq] at hk
      simp [countLen, hk]
    | succ k =>
      simp only [List.getElem?_cons_succ] at hk
      have := ih hk (by omega : k < m)
      simp only [List.take_succ_cons, countLen]
      split <;> omega

/-- Where entry `k` is `l`, the entries before it hold fewer entries `l` than the table. -/
theorem countLen_take_lt_all (l : Nat) (T : List Nat) {k : Nat} (hk : T[k]? = some l) :
    countLen l (T.take k) < countLen l T := by
  have hlt : k < T.length := by
    by_contra h
    rw [List.getElem?_eq_none (by omega)] at hk
    cases hk
  have := countLen_take_lt l T hk hlt
  rwa [List.take_length] at this

/-- The symbols of length `l`: symbol `x` stands at place `j` exactly when its length is `l` and `j` symbols of that length
come before it. -/
theorem symbolsOfLen_getElem? (l : Nat) (T : List Nat) (s j x : Nat) :
    (symbolsOfLen l T s)[j]? = some x ↔ ∃ k, x = s + k ∧ T[k]? = some l ∧ j = countLen l (T.take k) := by
  induction T generalizing s j with
  | nil => simp [symbolsOfLen]
  | cons t T ih =>
    have shift : ∀ j, (∃ k, x = s + 1 + k ∧ T[k]? = some l ∧ j = countLen l (T.take k)) ↔
        ∃ k, x = s + (k + 1) ∧ (t :: T)[k + 1]? = some l ∧ j = countLen l (T.take k) := by
      intro j
      constructor
      · rintro ⟨k, h1, h2, h3⟩; exact ⟨k, by omega, by simpa using h2, h3⟩
      · rintro ⟨k, h1, h2, h3⟩; exact ⟨k, by omega, by simpa using h2, h3⟩
    simp only [symbolsOfLen]
    split
    · rename_i htl
      subst htl
      cases j with
      | zero =>
        simp only [List.getElem?_cons_zero, Option.some.injEq]
        constructor
        · rintro rfl; exact ⟨0, rfl, rfl, by simp [countLen]⟩
        · rintro ⟨k, h1, h2, h3⟩
          cases k with
          | zero => omega
          | succ k => simp [countLen] at h3
      | succ j =>
        simp only [List.getElem?_cons_succ]
        rw [ih, shift]
        constructor
        · rintro ⟨k, h1, h2, h3⟩; exact ⟨k + 1, h1, h2, by simp [countLen, h3]⟩
        · rintro ⟨k, h1, h2, h3⟩
          cases k with
          | zero => simp [countLen] at h3
          | succ k => exact ⟨k, h1, h2, by simpa [countLen] using h3⟩
    · rename_i htl
      rw [ih, shift]
      constructor
      · rintro ⟨k, h1, h2, h3⟩; exact ⟨k + 1, h1, h2, by simp [countLen, htl, h3]⟩
      · rintro ⟨k, h1, h2, h3⟩
        cases k with
        | zero => simp at h2; exact absurd h2 htl
        | succ k => exact ⟨k, h1, h2, by simpa [countLen, htl] using h3⟩

/-- Consecutive codes: the code of the symbol at place `j` is `c + j`. -/
theorem mem_consecutiveCodes (l : Nat) (ss : List Nat) (c : Nat) (w : CodeWord) :
    w ∈ consecutiveCodes l ss c ↔ w.len = l ∧ ∃ j, ss[j]? = some w.sym ∧ w.code = c + j := by
  induction ss generalizing c with
  | nil => simp [consecutiveCodes]
  | cons s ss ih =>
    simp only [consecutiveCodes, List.mem_cons, ih]
    constructor
    · rintro (rfl | ⟨h1, j, h2, h3⟩)
      · exact ⟨rfl, 0, rfl, rfl⟩
      · exact ⟨h1, j + 1, h2, by omega⟩
    · rintro ⟨h1, j, h2, h3⟩
      cases j with
      | zero =>
        left
        obtain ⟨ws, wl, wc⟩ := w
        simp only [List.getElem?_cons_zero, Option.some.injEq] at h2
        simp_all
      | succ j => exact .inr ⟨h1, j, by simpa using h2, by omega⟩

/-! ### The code words -/

/-- NEXT of the next length (41 R152). -/
theorem nextCode_succ (T : List Nat) {L : Nat} (h : 1 ≤ L) : nextCode T (L + 1) = (nextCode T L + blCount T L) * 2 := by
  obtain ⟨L, rfl⟩ : ∃ n, L = n + 1 := ⟨L - 1, by omega⟩
  rfl

/-- BLCOUNT of a positive length is the number of entries of that length. -/
theorem blCount_pos (T : List Nat) {L : Nat} (h : 1 ≤ L) : blCount T L = countLen L T := if_neg (by omega)

/-- The code words of the lengths `L` to `L + n - 1`. -/
theorem mem_assignFrom (T : List Nat) (n L : Nat) (hL : 1 ≤ L) (w : CodeWord) :
    w ∈ assignFrom T n L (nextCode T L) ↔
      L ≤ w.len ∧ w.len < L + n ∧ T[w.sym]? = some w.len ∧ w.code = nextCode T w.len + countLen w.len (T.take w.sym) := by
  induction n generalizing L with
  | zero => simp only [assignFrom, List.not_mem_nil, false_iff]; omega
  | succ n ih =>
    simp only [assignFrom, List.mem_append, mem_consecutiveCodes, symbolsOfLen_getElem?]
    rw [← nextCode_succ T hL, ih (L + 1) (by omega)]
    constructor
    · rintro (⟨rfl, j, ⟨k, h1, h2, rfl⟩, h3⟩ | ⟨h1, h2, h3, h4⟩)
      · have : k = w.sym := by omega
        subst this
        exact ⟨le_rfl, by omega, h2, h3⟩
      · exact ⟨by omega, by omega, h3, h4⟩
    · rintro ⟨h1, h2, h3, h4⟩
      by_cases h : w.len = L
      · exact .inl ⟨h, _, ⟨w.sym, by omega, h ▸ h3, rfl⟩, by rw [h4, h]⟩
      · exact .inr ⟨by omega, by omega, h3, h4⟩

/-- The code words of a table: each symbol with a length 1 to MAXL has one, the first code of its length plus the number of
symbols of that length before it. -/
theorem mem_codeWords (T : List Nat) (maxl : Nat) (w : CodeWord) :
    w ∈ codeWords T maxl ↔
      1 ≤ w.len ∧ w.len ≤ maxl ∧ T[w.sym]? = some w.len ∧ w.code = nextCode T w.len + countLen w.len (T.take w.sym) := by
  have := mem_assignFrom T maxl 1 le_rfl w
  rw [codeWords, show (0 : Nat) = nextCode T 1 from rfl, this]
  constructor
  · rintro ⟨h1, h2, h3⟩; exact ⟨h1, by omega, h3⟩
  · rintro ⟨h1, h2, h3⟩; exact ⟨h1, by omega, h3⟩

/-- A symbol has at most one code word. -/
theorem codeWord_unique {T : List Nat} {maxl : Nat} {v w : CodeWord} (hv : v ∈ codeWords T maxl) (hw : w ∈ codeWords T maxl)
    (h : v.sym = w.sym) : v = w := by
  rw [mem_codeWords] at hv hw
  obtain ⟨vs, vl, vc⟩ := v
  obtain ⟨ws, wl, wc⟩ := w
  simp only at h hv hw
  subst h
  have : vl = wl := by
    have h3 := hv.2.2.1
    rw [hw.2.2.1] at h3
    exact (Option.some.inj h3).symm
  subst this
  rw [hv.2.2.2, hw.2.2.2]

/-! ### Over-subscription -/

/-- The Kraft sum up to length `n` is the first code behind those of length `n`, scaled to MAXL bits. -/
theorem kraftSum_eq (T : List Nat) (maxl n : Nat) (h1 : 1 ≤ n) (hn : n ≤ maxl) :
    kraftSum T maxl n = (nextCode T n + blCount T n) * 2 ^ (maxl - n) := by
  induction n with
  | zero => omega
  | succ n ih =>
    by_cases h0 : n = 0
    · subst h0; simp [kraftSum, nextCode]
    · have hp : 2 ^ (maxl - n) = 2 * 2 ^ (maxl - (n + 1)) := by
        rw [← Nat.pow_succ']; congr 1; omega
      rw [kraftSum, ih (by omega) (by omega), nextCode_succ T (by omega), hp]
      ring

/-- The Kraft sum grows with the length. -/
theorem kraftSum_mono (T : List Nat) (maxl : Nat) {m n : Nat} (h : m ≤ n) : kraftSum T maxl m ≤ kraftSum T maxl n := by
  induction n with
  | zero => simp [Nat.le_zero.mp h]
  | succ n ih =>
    by_cases hm : m = n + 1
    · subst hm; exact le_rfl
    · exact le_trans (ih (by omega)) (Nat.le_add_right _ _)

/-- Where BUILD accepts a table, the codes of every length fit in it. -/
theorem codes_fit {T : List Nat} {maxl n : Nat} (h : overSubscribed T maxl = false) (h1 : 1 ≤ n) (hn : n ≤ maxl) :
    nextCode T n + blCount T n ≤ 2 ^ n := by
  simp only [overSubscribed, decide_eq_false_iff_not, not_lt] at h
  have h2 := le_trans (kraftSum_mono T maxl hn) h
  rw [kraftSum_eq T maxl n h1 hn] at h2
  have hp : 2 ^ maxl = 2 ^ n * 2 ^ (maxl - n) := by rw [← Nat.pow_add]; congr 1; omega
  rw [hp] at h2
  exact Nat.le_of_mul_le_mul_right h2 (Nat.pow_pos (by decide))

/-- Where BUILD accepts a table, a code fits in its length. -/
theorem codeWord_lt {T : List Nat} {maxl : Nat} (h : overSubscribed T maxl = false) {w : CodeWord}
    (hw : w ∈ codeWords T maxl) : w.code < 2 ^ w.len := by
  obtain ⟨h1, h2, h3, h4⟩ := (mem_codeWords T maxl w).mp hw
  have := codes_fit h h1 h2
  rw [blCount_pos T h1] at this
  have := countLen_take_lt_all w.len T h3
  omega

/-- The first code of a longer length lies behind all codes of a shorter one, extended by zeros (41 R152). -/
theorem nextCode_gap (T : List Nat) {m : Nat} (k : Nat) (h : 1 ≤ m) :
    (nextCode T m + blCount T m) * 2 ^ (k + 1) ≤ nextCode T (m + k + 1) := by
  induction k with
  | zero => rw [nextCode_succ T (by omega)]; simp
  | succ k ih =>
    rw [nextCode_succ T (by omega), Nat.pow_succ]
    have : nextCode T (m + (k + 1)) ≤ nextCode T (m + (k + 1)) + blCount T (m + (k + 1)) := Nat.le_add_right _ _
    have e : m + k + 1 = m + (k + 1) := by omega
    rw [e] at ih
    nlinarith

/-- No code is the head of another code (41 R159), as numbers. -/
theorem code_head_unique {T : List Nat} {maxl : Nat} {v w : CodeWord} (hv : v ∈ codeWords T maxl) (hw : w ∈ codeWords T maxl)
    (hl : v.len ≤ w.len) (hc : w.code / 2 ^ (w.len - v.len) = v.code) : v = w := by
  have hv' := (mem_codeWords T maxl v).mp hv
  have hw' := (mem_codeWords T maxl w).mp hw
  by_cases he : v.len = w.len
  · rw [he, Nat.sub_self, Nat.pow_zero, Nat.div_one] at hc
    apply codeWord_unique hv hw
    by_contra hne
    rcases Nat.lt_or_gt_of_ne hne with hlt | hlt
    · have := countLen_take_lt v.len T hv'.2.2.1 hlt
      have h1 := hv'.2.2.2
      have h2 := hw'.2.2.2
      rw [← he] at h2
      omega
    · have := countLen_take_lt w.len T hw'.2.2.1 hlt
      have h1 := hv'.2.2.2
      have h2 := hw'.2.2.2
      rw [he] at h1
      omega
  · exfalso
    obtain ⟨k, hk⟩ : ∃ k, w.len = v.len + k + 1 := ⟨w.len - v.len - 1, by omega⟩
    have gap := nextCode_gap T k hv'.1
    rw [← hk] at gap
    have hlt := countLen_take_lt_all v.len T hv'.2.2.1
    rw [← blCount_pos T hv'.1] at hlt
    have h1 : nextCode T v.len + blCount T v.len ≤ w.code / 2 ^ (w.len - v.len) := by
      rw [Nat.le_div_iff_mul_le (Nat.pow_pos (by decide)), show w.len - v.len = k + 1 by omega, hw'.2.2.2]
      omega
    rw [hc, hv'.2.2.2] at h1
    omega

end Sys2Proof.Machine
end

