-- ==== Sys2Proof/Laws/Bits.lean ====
section
/-! SUPPORT. The decoder and the encoder on numeric fields and on prefix codes, over a list of bits. -/

namespace Sys2Proof.Machine

open Sys2Proof

/-! ### Answers of a reader -/

theorem Got.andThen_got {σ α β : Type} (a : α) (s : σ) (f : α → σ → Got σ β) : (Got.got a s).andThen f = f a s := rfl

theorem Got.andThen_stop {σ α β : Type} (w : Stop) (s : σ) (f : α → σ → Got σ β) : (Got.stop w s).andThen f = .stop w s := rfl

/-- What goes on was read. -/
theorem Got.andThen_eq_got {σ α β : Type} {g : Got σ α} {f : α → σ → Got σ β} {b : β} {t : σ} (h : g.andThen f = .got b t) :
    ∃ a u, g = .got a u ∧ f a u = .got b t := by
  cases g with
  | got a u => exact ⟨a, u, rfl, h⟩
  | stop w u => cases h

/-- A stop comes from the first part or from the second. -/
theorem Got.andThen_eq_stop {σ α β : Type} {g : Got σ α} {f : α → σ → Got σ β} {w : Stop} {t : σ} (h : g.andThen f = .stop w t) :
    g = .stop w t ∨ ∃ a u, g = .got a u ∧ f a u = .stop w t := by
  cases g with
  | got a u => exact .inr ⟨a, u, rfl, h⟩
  | stop w u => exact .inl (by cases h; rfl)

/-! ### Numeric fields -/

@[simp] theorem fieldBits_length (n v : Nat) : (fieldBits n v).length = n := by
  induction n generalizing v with
  | zero => rfl
  | succ n ih => simp [fieldBits, ih]

/-- The bit `v % 2` as a number. -/
theorem toNat_mod_two_beq (v : Nat) : (v % 2 == 1).toNat = v % 2 := by
  rcases Nat.mod_two_eq_zero_or_one v with h | h <;> simp [h]

/-- A field is read back, whatever follows it. -/
theorem readField_fieldBits (n v : Nat) (rest : List Bool) :
    readField listReader n (fieldBits n v ++ rest) = .got (v % 2 ^ n) rest := by
  induction n generalizing v with
  | zero => simp [readField, fieldBits, Nat.mod_one]
  | succ n ih =>
    simp only [fieldBits, List.cons_append, readField, listReader, Got.andThen_got, ih, toNat_mod_two_beq]
    rw [Nat.pow_succ', Nat.mod_mul]

/-- A field whose value fits is read back. -/
theorem readField_fieldBits_lt {n v : Nat} (h : v < 2 ^ n) (rest : List Bool) :
    readField listReader n (fieldBits n v ++ rest) = .got v rest := by
  rw [readField_fieldBits, Nat.mod_eq_of_lt h]

/-- What a field read answers fits in the field, and its bits are the bits consumed. -/
theorem readField_eq_got {n : Nat} {bits : List Bool} {v : Nat} {rest : List Bool}
    (h : readField listReader n bits = .got v rest) : v < 2 ^ n ∧ bits = fieldBits n v ++ rest := by
  induction n generalizing bits v rest with
  | zero =>
    simp only [readField, Got.got.injEq] at h
    obtain ⟨rfl, rfl⟩ := h
    simp [fieldBits]
  | succ n ih =>
    cases bits with
    | nil => simp [readField, listReader, Got.andThen] at h
    | cons b bits =>
      simp only [readField, listReader, Got.andThen_got] at h
      obtain ⟨u, t, h1, h2⟩ := Got.andThen_eq_got h
      obtain ⟨h3, rfl⟩ := ih h1
      simp only [Got.got.injEq] at h2
      obtain ⟨rfl, rfl⟩ := h2
      have e : (b.toNat + 2 * u) / 2 = u := by have := Bool.toNat_lt b; omega
      have e' : ((b.toNat + 2 * u) % 2 == 1) = b := by cases b <;> simp [Bool.toNat]
      refine ⟨?_, by simp only [fieldBits, e, e', List.cons_append]⟩
      rw [Nat.pow_succ']
      cases b <;> simp [Bool.toNat] <;> omega

/-- A list too short for a field is exhausted. -/
theorem readField_exhausted {n : Nat} {bits : List Bool} (h : bits.length < n) :
    readField listReader n bits = .stop .exhausted [] := by
  induction n generalizing bits with
  | zero => simp at h
  | succ n ih =>
    cases bits with
    | nil => rfl
    | cons b bits =>
      simp only [readField, listReader, Got.andThen_got]
      rw [ih (by simpa using h)]
      rfl

/-- Two fields in a row are one field. -/
theorem fieldBits_add (m n v : Nat) : fieldBits (m + n) v = fieldBits m v ++ fieldBits n (v / 2 ^ m) := by
  induction m generalizing v with
  | zero => simp [fieldBits]
  | succ m ih =>
    rw [show m + 1 + n = m + n + 1 by omega, fieldBits, ih, fieldBits, Nat.div_div_eq_div_mul, ← Nat.pow_succ']
    rfl

/-- A field depends on its value modulo its range. -/
theorem fieldBits_mod (n v : Nat) : fieldBits n (v % 2 ^ n) = fieldBits n v := by
  induction n generalizing v with
  | zero => rfl
  | succ n ih =>
    have e1 : v % 2 ^ (n + 1) % 2 = v % 2 := Nat.mod_mod_of_dvd _ (Dvd.intro_left (2 ^ n) rfl)
    have e2 : v % 2 ^ (n + 1) / 2 = v / 2 % 2 ^ n := by
      rw [Nat.pow_succ', Nat.mod_mul_right_div_self]
    simp only [fieldBits, e1, e2, ih]

/-- The fields of CLCLEN are read back. -/
theorem readLengths_bits (fields : List (BitVec 3)) (rest : List Bool) :
    readLengths listReader fields.length ((fields.flatMap fun f => fieldBits 3 f.toNat) ++ rest) = .got fields rest := by
  induction fields with
  | nil => rfl
  | cons f fields ih =>
    simp only [List.length_cons, readLengths, List.flatMap_cons, List.append_assoc]
    rw [readField_fieldBits_lt f.isLt, Got.andThen_got, ih, Got.andThen_got]
    simp

/-- What a read of CLCLEN answers, and the bits consumed. -/
theorem readLengths_eq_got {n : Nat} {bits rest : List Bool} {fields : List (BitVec 3)}
    (h : readLengths listReader n bits = .got fields rest) :
    fields.length = n ∧ bits = (fields.flatMap fun f => fieldBits 3 f.toNat) ++ rest := by
  induction n generalizing bits fields rest with
  | zero =>
    simp only [readLengths, Got.got.injEq] at h
    obtain ⟨rfl, rfl⟩ := h
    simp
  | succ n ih =>
    simp only [readLengths] at h
    obtain ⟨v, t, h1, h2⟩ := Got.andThen_eq_got h
    obtain ⟨vs, u, h3, h4⟩ := Got.andThen_eq_got h2
    obtain ⟨h5, rfl⟩ := readField_eq_got h1
    obtain ⟨rfl, rfl⟩ := ih h3
    simp only [Got.got.injEq] at h4
    obtain ⟨rfl, rfl⟩ := h4
    have e : (BitVec.ofNat 3 v).toNat = v := by rw [BitVec.toNat_ofNat]; exact Nat.mod_eq_of_lt h5
    simp [e]

/-- A list too short for CLCLEN is exhausted. -/
theorem readLengths_exhausted {n : Nat} {bits : List Bool} (h : bits.length < 3 * n) :
    readLengths listReader n bits = .stop .exhausted [] := by
  induction n generalizing bits with
  | zero => simp at h
  | succ n ih =>
    simp only [readLengths]
    by_cases h3 : bits.length < 3
    · rw [readField_exhausted h3]; rfl
    · cases hr : readField listReader 3 bits with
      | got v t =>
        obtain ⟨_, rfl⟩ := readField_eq_got hr
        rw [Got.andThen_got, ih (by simp at h; omega)]
        rfl
      | stop w t =>
        exfalso
        obtain ⟨a, bits, rfl⟩ := List.exists_cons_of_length_pos (by omega : 0 < bits.length)
        obtain ⟨b, bits, rfl⟩ := List.exists_cons_of_length_pos (by simp at h3; omega : 0 < bits.length)
        obtain ⟨c, bits, rfl⟩ := List.exists_cons_of_length_pos (by simp at h3; omega : 0 < bits.length)
        simp [readField, listReader, Got.andThen] at hr

/-! ### Prefix codes -/

@[simp] theorem codeBits_length (n c : Nat) : (codeBits n c).length = n := by
  induction n with
  | zero => rfl
  | succ n ih => simp [codeBits, ih]

/-- The head of a code is the code of the head. -/
theorem codeBits_take (m : Nat) {n : Nat} (c : Nat) (h : n ≤ m) : (codeBits m c).take n = codeBits n (c / 2 ^ (m - n)) := by
  induction m generalizing n with
  | zero => simp [Nat.le_zero.mp h, codeBits]
  | succ m ih =>
    cases n with
    | zero => simp [codeBits]
    | succ n =>
      rw [codeBits, List.take_succ_cons, ih (by omega), codeBits, Nat.div_div_eq_div_mul, ← Nat.pow_add]
      rw [show m + 1 - (n + 1) = m - n by omega, show m - n + n = m by omega]

/-- A code of `n` bits depends on its value modulo 2^n. -/
theorem codeBits_mod (n m c : Nat) (h : n ≤ m) : codeBits n (c % 2 ^ m) = codeBits n c := by
  induction n with
  | zero => rfl
  | succ n ih =>
    have e : c % 2 ^ m / 2 ^ n % 2 = c / 2 ^ n % 2 := by
      obtain ⟨k, rfl⟩ : ∃ k, m = n + 1 + k := ⟨m - (n + 1), by omega⟩
      rw [show n + 1 + k = n + (k + 1) by omega, Nat.pow_add, Nat.mod_mul_right_div_self,
        Nat.pow_succ, Nat.mod_mod_of_dvd _ (Dvd.intro_left (2 ^ k) rfl)]
    simp only [codeBits, e, ih (by omega)]

/-- Two codes that fit in their length and have the same bits are the same number. -/
theorem codeBits_inj {n c d : Nat} (hc : c < 2 ^ n) (hd : d < 2 ^ n) (h : codeBits n c = codeBits n d) : c = d := by
  induction n generalizing c d with
  | zero => simp at hc hd; omega
  | succ n ih =>
    simp only [codeBits, List.cons.injEq] at h
    obtain ⟨h1, h2⟩ := h
    have hp : 0 < 2 ^ n := Nat.pow_pos (by decide)
    have hc1 : c / 2 ^ n < 2 := by rw [Nat.div_lt_iff_lt_mul hp]; rw [Nat.pow_succ'] at hc; omega
    have hd1 : d / 2 ^ n < 2 := by rw [Nat.div_lt_iff_lt_mul hp]; rw [Nat.pow_succ'] at hd; omega
    have e1 : c / 2 ^ n = d / 2 ^ n := by
      rw [Nat.mod_eq_of_lt hc1, Nat.mod_eq_of_lt hd1] at h1
      generalize c / 2 ^ n = x at *
      generalize d / 2 ^ n = y at *
      rcases (by omega : x = 0 ∨ x = 1) with h | h <;>
        rcases (by omega : y = 0 ∨ y = 1) with h' | h' <;> simp [h, h'] at h1 ⊢
    have e2 : c % 2 ^ n = d % 2 ^ n := by
      apply ih (Nat.mod_lt _ hp) (Nat.mod_lt _ hp)
      rw [codeBits_mod n n c le_rfl, codeBits_mod n n d le_rfl, h2]
    rw [← Nat.div_add_mod c (2 ^ n), ← Nat.div_add_mod d (2 ^ n), e1, e2]

/-- One more bit at the end of a code. -/
theorem codeBits_snoc (n c : Nat) (b : Bool) : codeBits (n + 1) (c * 2 + b.toNat) = codeBits n c ++ [b] := by
  induction n with
  | zero => cases b <;> simp [codeBits, Bool.toNat]
  | succ n ih =>
    rw [codeBits, ih, codeBits, List.cons_append]
    congr 2
    rw [Nat.pow_succ', ← Nat.div_div_eq_div_mul]
    congr 2
    cases b <;> simp [Bool.toNat]
    omega

/-- A code that fits in its length has another as its head exactly when its leading bits are that number. -/
theorem codeBits_head_iff {m n c d : Nat} (hc : c < 2 ^ n) (hd : d < 2 ^ m) :
    codeBits n c <+: codeBits m d ↔ n ≤ m ∧ d / 2 ^ (m - n) = c := by
  constructor
  · intro h
    have hl := h.length_le
    simp only [codeBits_length] at hl
    refine ⟨hl, ?_⟩
    have h2 := List.prefix_iff_eq_take.mp h
    rw [codeBits_length, codeBits_take m d hl] at h2
    refine (codeBits_inj hc ?_ h2).symm
    rw [Nat.div_lt_iff_lt_mul (Nat.pow_pos (by decide)), ← Nat.pow_add, show n + (m - n) = m by omega]
    exact hd
  · rintro ⟨hl, rfl⟩
    rw [← codeBits_take m d hl]
    exact List.take_prefix _ _

/-! ### DECODE over a list -/

/-- The codes a walk that has read `clen` bits of value `code` can still reach. -/
def below (codes : List CodeWord) (clen code : Nat) (w : CodeWord) : Prop :=
  w ∈ codes ∧ clen ≤ w.len ∧ w.code / 2 ^ (w.len - clen) = code

/-- The test of `walkCode` for a code. -/
theorem find_code_none {codes : List CodeWord} {l c : Nat} :
    (codes.find? fun w => w.len == l && w.code == c) = none ↔ ∀ w, w ∈ codes → ¬(w.len = l ∧ w.code = c) := by
  simp [List.find?_eq_none]

/-- What the test of `walkCode` finds. -/
theorem find_code_some {codes : List CodeWord} {l c : Nat} {w : CodeWord}
    (h : (codes.find? fun w => w.len == l && w.code == c) = some w) : w ∈ codes ∧ w.len = l ∧ w.code = c := by
  have h1 := List.mem_of_find?_eq_some h
  have h2 := List.find?_some h
  simp only [Bool.and_eq_true, beq_iff_eq] at h2
  exact ⟨h1, h2⟩

/-- The test of `walkCode` for a longer code. -/
theorem any_longer {codes : List CodeWord} {l c : Nat} :
    (codes.any fun w => decide (l < w.len) && w.code / 2 ^ (w.len - l) == c) = true ↔
      ∃ w, w ∈ codes ∧ l < w.len ∧ w.code / 2 ^ (w.len - l) = c := by
  simp [List.any_eq_true]

/-- One step of the walk over a list. -/
theorem walkCode_cons (codes : List CodeWord) (n code clen : Nat) (b : Bool) (bits : List Bool) :
    walkCode listReader codes (n + 1) code clen (b :: bits) =
      match codes.find? fun w => w.len == clen + 1 && w.code == code * 2 + b.toNat with
      | some w => .got w bits
      | none =>
        if codes.any fun w => decide (clen + 1 < w.len) && w.code / 2 ^ (w.len - (clen + 1)) == code * 2 + b.toNat
        then walkCode listReader codes n (code * 2 + b.toNat) (clen + 1) bits
        else .stop .malformed bits := rfl

/-- A value one bit further: dividing by one power of two less. -/
theorem div_pow_step (c m k : Nat) (b : Bool) (h : k < m) (hb : b = (c / 2 ^ (m - (k + 1)) % 2 == 1)) :
    c / 2 ^ (m - k) * 2 + b.toNat = c / 2 ^ (m - (k + 1)) := by
  subst hb
  rw [toNat_mod_two_beq, show m - k = m - (k + 1) + 1 by omega, Nat.pow_succ, ← Nat.div_div_eq_div_mul]
  omega

/-- The walk along the rest of a code word ends at it. -/
theorem walkCode_codeWord {T : List Nat} {maxl : Nat} {w : CodeWord}
    (hw : w ∈ codeWords T maxl) (rest : List Bool) (j : Nat) (hj : 1 ≤ j) (hjl : j ≤ w.len) :
    walkCode listReader (codeWords T maxl) (maxl - (w.len - j)) (w.code / 2 ^ j) (w.len - j)
      (codeBits j w.code ++ rest) = .got w rest := by
  induction j with
  | zero => omega
  | succ j ih =>
    have hm := (mem_codeWords T maxl w).mp hw
    obtain ⟨fuel, hf⟩ : ∃ f, maxl - (w.len - (j + 1)) = f + 1 := ⟨maxl - (w.len - (j + 1)) - 1, by omega⟩
    have hstep : w.code / 2 ^ (j + 1) * 2 + (w.code / 2 ^ j % 2 == 1).toNat = w.code / 2 ^ j := by
      rw [toNat_mod_two_beq, Nat.pow_succ, ← Nat.div_div_eq_div_mul]
      omega
    have hlen : w.len - (j + 1) + 1 = w.len - j := by omega
    rw [hf, codeBits, List.cons_append, walkCode_cons, hstep, hlen]
    by_cases h0 : j = 0
    · subst h0
      simp only [Nat.pow_zero, Nat.div_one, Nat.sub_zero]
      cases hfind : (codeWords T maxl).find? fun v => v.len == w.len && v.code == w.code with
      | none => exact absurd ⟨rfl, rfl⟩ (find_code_none.mp hfind w hw)
      | some v =>
        obtain ⟨h1, h2, h3⟩ := find_code_some hfind
        have : v = w := code_head_unique h1 hw (by omega) (by rw [h2, Nat.sub_self, Nat.pow_zero, Nat.div_one, h3])
        subst this
        rfl
    · have hnone : ((codeWords T maxl).find? fun v => v.len == w.len - j && v.code == w.code / 2 ^ j) = none := by
        rw [find_code_none]
        rintro v hv ⟨h1, h2⟩
        have : v = w := code_head_unique hv hw (by omega) (by rw [h1, show w.len - (w.len - j) = j by omega, h2])
        subst this
        omega
      rw [hnone]
      have hany : ((codeWords T maxl).any fun v => decide (w.len - j < v.len) && v.code / 2 ^ (v.len - (w.len - j)) == w.code / 2 ^ j)
          = true := any_longer.mpr ⟨w, hw, by omega, by rw [show w.len - (w.len - j) = j by omega]⟩
      rw [if_pos hany, show fuel = maxl - (w.len - j) by omega]
      exact ih (by omega) (by omega)

/-- DECODE reads a code word back, whatever follows it. -/
theorem decodeSymbol_codeWord {T : List Nat} {maxl : Nat} (h : overSubscribed T maxl = false) {w : CodeWord}
    (hw : w ∈ codeWords T maxl) (rest : List Bool) :
    decodeSymbol listReader T maxl (codeBits w.len w.code ++ rest) = .got w rest := by
  have hm := (mem_codeWords T maxl w).mp hw
  have := walkCode_codeWord hw rest w.len hm.1 le_rfl
  rwa [Nat.sub_self, Nat.sub_zero, Nat.div_eq_of_lt (codeWord_lt h hw)] at this

/-- A walk that answers a code word has read its bits. -/
theorem walkCode_eq_got {codes : List CodeWord} {n code clen : Nat} {bits rest : List Bool} {w : CodeWord}
    (h : walkCode listReader codes n code clen bits = .got w rest) :
    w ∈ codes ∧ clen < w.len ∧ codeBits clen code ++ bits = codeBits w.len w.code ++ rest := by
  induction n generalizing code clen bits with
  | zero => simp [walkCode] at h
  | succ n ih =>
    cases bits with
    | nil => simp [walkCode, listReader, Got.andThen] at h
    | cons b bits =>
      rw [walkCode_cons] at h
      cases hfind : codes.find? fun w => w.len == clen + 1 && w.code == code * 2 + b.toNat with
      | some v =>
        rw [hfind] at h
        simp only [Got.got.injEq] at h
        obtain ⟨rfl, rfl⟩ := h
        obtain ⟨h1, h2, h3⟩ := find_code_some hfind
        exact ⟨h1, by omega, by rw [h2, h3, codeBits_snoc, List.append_assoc]; rfl⟩
      | none =>
        rw [hfind] at h
        simp only at h
        split at h
        · obtain ⟨h1, h2, h3⟩ := ih h
          refine ⟨h1, by omega, ?_⟩
          rw [← h3, codeBits_snoc, List.append_assoc]
          rfl
        · cases h

/-- DECODE answers a code word of the table, having read exactly its bits. -/
theorem decodeSymbol_eq_got {T : List Nat} {maxl : Nat} {bits rest : List Bool} {w : CodeWord}
    (h : decodeSymbol listReader T maxl bits = .got w rest) :
    w ∈ codeWords T maxl ∧ bits = codeBits w.len w.code ++ rest := by
  obtain ⟨h1, _, h3⟩ := walkCode_eq_got h
  exact ⟨h1, by simpa [codeBits] using h3⟩

end Sys2Proof.Machine
end

