-- ==== Sys2Proof/Laws/Memory.lean ====
section
/-! SUPPORT. The laws of memory cells: read after write, the canonical form, and memories whose cells are exactly 0 to n - 1. -/

namespace Sys2Proof.Machine

open Sys2Proof

variable {α : Type}

/-- A write is read back. -/
@[simp] theorem memRead_memWrite_same (m : Memory α) (a : Nat) (v : α) : memRead (memWrite m a v) a = some v := by
  induction m with
  | nil => simp [memWrite, memRead]
  | cons c m ih =>
    obtain ⟨b, w⟩ := c
    simp only [memWrite]
    split
    · simp [memRead]
    · split
      · simp [memRead]
      · rename_i h1 h2
        simp [memRead, h2, ih]

/-- A write leaves every other cell alone. -/
theorem memRead_memWrite_other (m : Memory α) {a b : Nat} (v : α) (h : b ≠ a) :
    memRead (memWrite m a v) b = memRead m b := by
  induction m with
  | nil => simp [memWrite, memRead, h]
  | cons c m ih =>
    obtain ⟨d, w⟩ := c
    simp only [memWrite]
    split
    · simp [memRead, h]
    · split
      · rename_i h1 h2
        subst h2
        simp [memRead, h]
      · simp only [memRead, ih]

/-- Below the length a read is the cell's. -/
theorem readBelow_lt {n a : Nat} (m : Memory α) (h : a < n) : readBelow n m a = memRead m a := if_pos h

/-- At or beyond the length nothing is read. -/
theorem readBelow_ge {n a : Nat} (m : Memory α) (h : n ≤ a) : readBelow n m a = none := if_neg (Nat.not_lt.mpr h)

/-- A value read comes from a written cell below the length. -/
theorem readBelow_eq_some {n a : Nat} {m : Memory α} {v : α} : readBelow n m a = some v ↔ a < n ∧ memRead m a = some v := by
  unfold readBelow
  split <;> simp_all

/-- A write at or above `lo` keeps a form that rises from `lo`. -/
theorem risingFrom_memWrite (m : Memory α) {lo a : Nat} (v : α) (hm : risingFrom lo m = true) (ha : lo ≤ a) :
    risingFrom lo (memWrite m a v) = true := by
  induction m generalizing lo with
  | nil => simp [memWrite, risingFrom, ha]
  | cons c m ih =>
    obtain ⟨b, w⟩ := c
    simp only [risingFrom, Bool.and_eq_true, decide_eq_true_eq] at hm
    simp only [memWrite]
    split
    · rename_i h
      simp only [risingFrom, Bool.and_eq_true, decide_eq_true_eq]
      exact ⟨ha, by omega, hm.2⟩
    · split
      · rename_i h1 h2
        subst h2
        simp only [risingFrom, Bool.and_eq_true, decide_eq_true_eq]
        exact ⟨ha, hm.2⟩
      · rename_i h1 h2
        simp only [risingFrom, Bool.and_eq_true, decide_eq_true_eq]
        exact ⟨hm.1, ih hm.2 (by omega)⟩

/-- The canonical form is kept by the one operation that changes a memory. -/
theorem memWrite_wf (m : Memory α) (a : Nat) (v : α) (hm : Memory.wf m = true) : Memory.wf (memWrite m a v) = true :=
  risingFrom_memWrite m v hm (Nat.zero_le a)

/-- The memories after reset are in canonical form. -/
theorem reset_memories_wf :
    Memory.wf State.reset.inMem = true ∧ Memory.wf State.reset.out = true ∧ Memory.wf State.reset.pix = true := by
  decide

/-- Where the cells are consecutive from `lo` on, a write behind the last appends. -/
theorem memWrite_range' (m : Memory α) (lo n : Nat) (v : α) (h : m.map Prod.fst = List.range' lo n) :
    memWrite m (lo + n) v = m ++ [(lo + n, v)] := by
  induction m generalizing lo n with
  | nil => simp [memWrite]
  | cons c m ih =>
    obtain ⟨b, w⟩ := c
    cases n with
    | zero => simp at h
    | succ n =>
      simp only [List.map_cons, List.range'_succ, List.cons.injEq] at h
      obtain ⟨rfl, h⟩ := h
      have := ih (b + 1) n h
      have e : b + (n + 1) = b + 1 + n := by omega
      simp only [memWrite, e, this]
      rw [if_neg (by omega), if_neg (by omega)]
      rfl

/-- A read where the cells are consecutive from `lo` on: a value inside, none outside. -/
theorem memRead_range'_isSome (m : Memory α) (lo n a : Nat) (h : m.map Prod.fst = List.range' lo n) :
    (memRead m a).isSome = true ↔ lo ≤ a ∧ a < lo + n := by
  induction m generalizing lo n with
  | nil =>
    cases n with
    | zero => simp [memRead]
    | succ n => simp [List.range'_succ] at h
  | cons c m ih =>
    obtain ⟨b, w⟩ := c
    cases n with
    | zero => simp at h
    | succ n =>
      simp only [List.map_cons, List.range'_succ, List.cons.injEq] at h
      obtain ⟨rfl, h⟩ := h
      simp only [memRead]
      split
      · simp; omega
      · rw [ih (b + 1) n h]; omega

/-- The write behind the last cell appends. -/
theorem memWrite_cellsBelow {n : Nat} {m : Memory α} (h : cellsBelow n m) (v : α) : memWrite m n v = m ++ [(n, v)] := by
  have := memWrite_range' m 0 n v (by rw [h, List.range_eq_range'])
  simpa using this

/-- A memory of the cells 0 to n - 1 becomes one of the cells 0 to n. -/
theorem cellsBelow_succ {n : Nat} {m : Memory α} (h : cellsBelow n m) (v : α) : cellsBelow (n + 1) (memWrite m n v) := by
  have h' : m.map Prod.fst = List.range n := h
  rw [memWrite_cellsBelow h]
  simp [cellsBelow, h', List.range_succ]

/-- Where the cells are 0 to n - 1, exactly those hold a value. -/
theorem cellsBelow_isSome {n : Nat} {m : Memory α} (h : cellsBelow n m) (a : Nat) :
    (memRead m a).isSome = true ↔ a < n := by
  have := memRead_range'_isSome m 0 n a (by rw [h, List.range_eq_range'])
  simpa using this

/-- Where the cells are 0 to n - 1, a cell below n has a value. -/
theorem cellsBelow_read {n : Nat} {m : Memory α} (h : cellsBelow n m) {a : Nat} (ha : a < n) :
    ∃ v, memRead m a = some v := Option.isSome_iff_exists.mp ((cellsBelow_isSome h a).mpr ha)

/-- Where the cells are 0 to n - 1, the bound of a read cuts nothing off. -/
theorem cellsBelow_readBelow {n : Nat} {m : Memory α} (h : cellsBelow n m) (a : Nat) : readBelow n m a = memRead m a := by
  by_cases ha : a < n
  · exact readBelow_lt m ha
  · rw [readBelow_ge m (by omega), eq_comm, ← Option.not_isSome_iff_eq_none, cellsBelow_isSome h]
    exact ha

/-- Consecutive cells are in canonical form. -/
theorem risingFrom_range' (m : Memory α) (lo n : Nat) (h : m.map Prod.fst = List.range' lo n) : risingFrom lo m = true := by
  induction m generalizing lo n with
  | nil => rfl
  | cons c m ih =>
    obtain ⟨b, w⟩ := c
    cases n with
    | zero => simp at h
    | succ n =>
      simp only [List.map_cons, List.range'_succ, List.cons.injEq] at h
      obtain ⟨rfl, h⟩ := h
      simp [risingFrom, ih (b + 1) n h]

/-- A memory of the cells 0 to n - 1 is in canonical form. -/
theorem cellsBelow_wf {n : Nat} {m : Memory α} (h : cellsBelow n m) : Memory.wf m = true :=
  risingFrom_range' m 0 n (by rw [h, List.range_eq_range'])

end Sys2Proof.Machine
end

