-- ==== Sys2Proof/Laws/State.lean ====
section
/-! SUPPORT. One lemma per field per named update of State, each true by rfl, so that no proof unfolds a record update. -/

namespace Sys2Proof.Machine

open Sys2Proof

section
variable (k : ErrKind) (s : State)

@[simp] theorem raise_pos : (raise k s).pos = s.pos := rfl
@[simp] theorem raise_la : (raise k s).la = s.la := rfl
@[simp] theorem raise_bitoff : (raise k s).bitoff = s.bitoff := rfl
@[simp] theorem raise_bfinal : (raise k s).bfinal = s.bfinal := rfl
@[simp] theorem raise_btype : (raise k s).btype = s.btype := rfl
@[simp] theorem raise_hlit : (raise k s).hlit = s.hlit := rfl
@[simp] theorem raise_hdist : (raise k s).hdist = s.hdist := rfl
@[simp] theorem raise_hclen : (raise k s).hclen = s.hclen := rfl
@[simp] theorem raise_nlit : (raise k s).nlit = s.nlit := rfl
@[simp] theorem raise_ndist : (raise k s).ndist = s.ndist := rfl
@[simp] theorem raise_ncl : (raise k s).ncl = s.ncl := rfl
@[simp] theorem raise_lidx : (raise k s).lidx = s.lidx := rfl
@[simp] theorem raise_prevlen : (raise k s).prevlen = s.prevlen := rfl
@[simp] theorem raise_lens : (raise k s).lens = s.lens := rfl
@[simp] theorem raise_sym : (raise k s).sym = s.sym := rfl
@[simp] theorem raise_len : (raise k s).len = s.len := rfl
@[simp] theorem raise_dsym : (raise k s).dsym = s.dsym := rfl
@[simp] theorem raise_dist : (raise k s).dist = s.dist := rfl
@[simp] theorem raise_code : (raise k s).code = s.code := rfl
@[simp] theorem raise_clen : (raise k s).clen = s.clen := rfl
@[simp] theorem raise_rptr : (raise k s).rptr = s.rptr := rfl
@[simp] theorem raise_ft : (raise k s).ft = s.ft := rfl
@[simp] theorem raise_rowbytes : (raise k s).rowbytes = s.rowbytes := rfl
@[simp] theorem raise_fu : (raise k s).fu = s.fu := rfl
@[simp] theorem raise_col : (raise k s).col = s.col := rfl
@[simp] theorem raise_status : (raise k s).status = .fault := rfl
@[simp] theorem raise_err : (raise k s).err = k := rfl
@[simp] theorem raise_cllen : (raise k s).cllen = s.cllen := rfl
@[simp] theorem raise_lllen : (raise k s).lllen = s.lllen := rfl
@[simp] theorem raise_dlen : (raise k s).dlen = s.dlen := rfl
@[simp] theorem raise_prior : (raise k s).prior = s.prior := rfl
@[simp] theorem raise_cur : (raise k s).cur = s.cur := rfl
@[simp] theorem raise_inLen : (raise k s).inLen = s.inLen := rfl
@[simp] theorem raise_mode : (raise k s).mode = s.mode := rfl
@[simp] theorem raise_width : (raise k s).width = s.width := rfl
@[simp] theorem raise_bitdepth : (raise k s).bitdepth = s.bitdepth := rfl
@[simp] theorem raise_planes : (raise k s).planes = s.planes := rfl
@[simp] theorem raise_outLen : (raise k s).outLen = s.outLen := rfl
@[simp] theorem raise_rows : (raise k s).rows = s.rows := rfl
@[simp] theorem raise_pixLen : (raise k s).pixLen = s.pixLen := rfl
@[simp] theorem raise_inMem : (raise k s).inMem = s.inMem := rfl
@[simp] theorem raise_out : (raise k s).out = s.out := rfl
@[simp] theorem raise_pix : (raise k s).pix = s.pix := rfl
@[simp] theorem raise_cap : (raise k s).cap = s.cap := rfl
@[simp] theorem raise_point : (raise k s).point = s.point := rfl
@[simp] theorem raise_hostQueue : (raise k s).hostQueue = s.hostQueue := rfl
@[simp] theorem raise_hostReply : (raise k s).hostReply = s.hostReply := rfl
@[simp] theorem raise_freeCount : (raise k s).freeCount = s.freeCount := rfl

end

section
variable (f : BitVec 1) (b : BitVec 2) (s : State)

@[simp] theorem setHeader_pos : (setHeader f b s).pos = s.pos := rfl
@[simp] theorem setHeader_la : (setHeader f b s).la = s.la := rfl
@[simp] theorem setHeader_bitoff : (setHeader f b s).bitoff = s.bitoff := rfl
@[simp] theorem setHeader_bfinal : (setHeader f b s).bfinal = f := rfl
@[simp] theorem setHeader_btype : (setHeader f b s).btype = b := rfl
@[simp] theorem setHeader_hlit : (setHeader f b s).hlit = s.hlit := rfl
@[simp] theorem setHeader_hdist : (setHeader f b s).hdist = s.hdist := rfl
@[simp] theorem setHeader_hclen : (setHeader f b s).hclen = s.hclen := rfl
@[simp] theorem setHeader_nlit : (setHeader f b s).nlit = s.nlit := rfl
@[simp] theorem setHeader_ndist : (setHeader f b s).ndist = s.ndist := rfl
@[simp] theorem setHeader_ncl : (setHeader f b s).ncl = s.ncl := rfl
@[simp] theorem setHeader_lidx : (setHeader f b s).lidx = s.lidx := rfl
@[simp] theorem setHeader_prevlen : (setHeader f b s).prevlen = s.prevlen := rfl
@[simp] theorem setHeader_lens : (setHeader f b s).lens = s.lens := rfl
@[simp] theorem setHeader_sym : (setHeader f b s).sym = s.sym := rfl
@[simp] theorem setHeader_len : (setHeader f b s).len = s.len := rfl
@[simp] theorem setHeader_dsym : (setHeader f b s).dsym = s.dsym := rfl
@[simp] theorem setHeader_dist : (setHeader f b s).dist = s.dist := rfl
@[simp] theorem setHeader_code : (setHeader f b s).code = s.code := rfl
@[simp] theorem setHeader_clen : (setHeader f b s).clen = s.clen := rfl
@[simp] theorem setHeader_rptr : (setHeader f b s).rptr = s.rptr := rfl
@[simp] theorem setHeader_ft : (setHeader f b s).ft = s.ft := rfl
@[simp] theorem setHeader_rowbytes : (setHeader f b s).rowbytes = s.rowbytes := rfl
@[simp] theorem setHeader_fu : (setHeader f b s).fu = s.fu := rfl
@[simp] theorem setHeader_col : (setHeader f b s).col = s.col := rfl
@[simp] theorem setHeader_status : (setHeader f b s).status = s.status := rfl
@[simp] theorem setHeader_err : (setHeader f b s).err = s.err := rfl
@[simp] theorem setHeader_cllen : (setHeader f b s).cllen = s.cllen := rfl
@[simp] theorem setHeader_lllen : (setHeader f b s).lllen = s.lllen := rfl
@[simp] theorem setHeader_dlen : (setHeader f b s).dlen = s.dlen := rfl
@[simp] theorem setHeader_prior : (setHeader f b s).prior = s.prior := rfl
@[simp] theorem setHeader_cur : (setHeader f b s).cur = s.cur := rfl
@[simp] theorem setHeader_inLen : (setHeader f b s).inLen = s.inLen := rfl
@[simp] theorem setHeader_mode : (setHeader f b s).mode = s.mode := rfl
@[simp] theorem setHeader_width : (setHeader f b s).width = s.width := rfl
@[simp] theorem setHeader_bitdepth : (setHeader f b s).bitdepth = s.bitdepth := rfl
@[simp] theorem setHeader_planes : (setHeader f b s).planes = s.planes := rfl
@[simp] theorem setHeader_outLen : (setHeader f b s).outLen = s.outLen := rfl
@[simp] theorem setHeader_rows : (setHeader f b s).rows = s.rows := rfl
@[simp] theorem setHeader_pixLen : (setHeader f b s).pixLen = s.pixLen := rfl
@[simp] theorem setHeader_inMem : (setHeader f b s).inMem = s.inMem := rfl
@[simp] theorem setHeader_out : (setHeader f b s).out = s.out := rfl
@[simp] theorem setHeader_pix : (setHeader f b s).pix = s.pix := rfl
@[simp] theorem setHeader_cap : (setHeader f b s).cap = s.cap := rfl
@[simp] theorem setHeader_point : (setHeader f b s).point = s.point := rfl
@[simp] theorem setHeader_hostQueue : (setHeader f b s).hostQueue = s.hostQueue := rfl
@[simp] theorem setHeader_hostReply : (setHeader f b s).hostReply = s.hostReply := rfl
@[simp] theorem setHeader_freeCount : (setHeader f b s).freeCount = s.freeCount := rfl

end

section
variable (l : Nat) (s : State)

@[simp] theorem setLength_pos : (setLength l s).pos = s.pos := rfl
@[simp] theorem setLength_la : (setLength l s).la = s.la := rfl
@[simp] theorem setLength_bitoff : (setLength l s).bitoff = s.bitoff := rfl
@[simp] theorem setLength_bfinal : (setLength l s).bfinal = s.bfinal := rfl
@[simp] theorem setLength_btype : (setLength l s).btype = s.btype := rfl
@[simp] theorem setLength_hlit : (setLength l s).hlit = s.hlit := rfl
@[simp] theorem setLength_hdist : (setLength l s).hdist = s.hdist := rfl
@[simp] theorem setLength_hclen : (setLength l s).hclen = s.hclen := rfl
@[simp] theorem setLength_nlit : (setLength l s).nlit = s.nlit := rfl
@[simp] theorem setLength_ndist : (setLength l s).ndist = s.ndist := rfl
@[simp] theorem setLength_ncl : (setLength l s).ncl = s.ncl := rfl
@[simp] theorem setLength_lidx : (setLength l s).lidx = s.lidx := rfl
@[simp] theorem setLength_prevlen : (setLength l s).prevlen = s.prevlen := rfl
@[simp] theorem setLength_lens : (setLength l s).lens = s.lens := rfl
@[simp] theorem setLength_sym : (setLength l s).sym = s.sym := rfl
@[simp] theorem setLength_len : (setLength l s).len = BitVec.ofNat 9 l := rfl
@[simp] theorem setLength_dsym : (setLength l s).dsym = s.dsym := rfl
@[simp] theorem setLength_dist : (setLength l s).dist = s.dist := rfl
@[simp] theorem setLength_code : (setLength l s).code = s.code := rfl
@[simp] theorem setLength_clen : (setLength l s).clen = s.clen := rfl
@[simp] theorem setLength_rptr : (setLength l s).rptr = s.rptr := rfl
@[simp] theorem setLength_ft : (setLength l s).ft = s.ft := rfl
@[simp] theorem setLength_rowbytes : (setLength l s).rowbytes = s.rowbytes := rfl
@[simp] theorem setLength_fu : (setLength l s).fu = s.fu := rfl
@[simp] theorem setLength_col : (setLength l s).col = s.col := rfl
@[simp] theorem setLength_status : (setLength l s).status = s.status := rfl
@[simp] theorem setLength_err : (setLength l s).err = s.err := rfl
@[simp] theorem setLength_cllen : (setLength l s).cllen = s.cllen := rfl
@[simp] theorem setLength_lllen : (setLength l s).lllen = s.lllen := rfl
@[simp] theorem setLength_dlen : (setLength l s).dlen = s.dlen := rfl
@[simp] theorem setLength_prior : (setLength l s).prior = s.prior := rfl
@[simp] theorem setLength_cur : (setLength l s).cur = s.cur := rfl
@[simp] theorem setLength_inLen : (setLength l s).inLen = s.inLen := rfl
@[simp] theorem setLength_mode : (setLength l s).mode = s.mode := rfl
@[simp] theorem setLength_width : (setLength l s).width = s.width := rfl
@[simp] theorem setLength_bitdepth : (setLength l s).bitdepth = s.bitdepth := rfl
@[simp] theorem setLength_planes : (setLength l s).planes = s.planes := rfl
@[simp] theorem setLength_outLen : (setLength l s).outLen = s.outLen := rfl
@[simp] theorem setLength_rows : (setLength l s).rows = s.rows := rfl
@[simp] theorem setLength_pixLen : (setLength l s).pixLen = s.pixLen := rfl
@[simp] theorem setLength_inMem : (setLength l s).inMem = s.inMem := rfl
@[simp] theorem setLength_out : (setLength l s).out = s.out := rfl
@[simp] theorem setLength_pix : (setLength l s).pix = s.pix := rfl
@[simp] theorem setLength_cap : (setLength l s).cap = s.cap := rfl
@[simp] theorem setLength_point : (setLength l s).point = .distance := rfl
@[simp] theorem setLength_hostQueue : (setLength l s).hostQueue = s.hostQueue := rfl
@[simp] theorem setLength_hostReply : (setLength l s).hostReply = s.hostReply := rfl
@[simp] theorem setLength_freeCount : (setLength l s).freeCount = s.freeCount := rfl

end

section
variable (s : State)

@[simp] theorem rowEnd_pos : (rowEnd s).pos = s.pos := rfl
@[simp] theorem rowEnd_la : (rowEnd s).la = s.la := rfl
@[simp] theorem rowEnd_bitoff : (rowEnd s).bitoff = s.bitoff := rfl
@[simp] theorem rowEnd_bfinal : (rowEnd s).bfinal = s.bfinal := rfl
@[simp] theorem rowEnd_btype : (rowEnd s).btype = s.btype := rfl
@[simp] theorem rowEnd_hlit : (rowEnd s).hlit = s.hlit := rfl
@[simp] theorem rowEnd_hdist : (rowEnd s).hdist = s.hdist := rfl
@[simp] theorem rowEnd_hclen : (rowEnd s).hclen = s.hclen := rfl
@[simp] theorem rowEnd_nlit : (rowEnd s).nlit = s.nlit := rfl
@[simp] theorem rowEnd_ndist : (rowEnd s).ndist = s.ndist := rfl
@[simp] theorem rowEnd_ncl : (rowEnd s).ncl = s.ncl := rfl
@[simp] theorem rowEnd_lidx : (rowEnd s).lidx = s.lidx := rfl
@[simp] theorem rowEnd_prevlen : (rowEnd s).prevlen = s.prevlen := rfl
@[simp] theorem rowEnd_lens : (rowEnd s).lens = s.lens := rfl
@[simp] theorem rowEnd_sym : (rowEnd s).sym = s.sym := rfl
@[simp] theorem rowEnd_len : (rowEnd s).len = s.len := rfl
@[simp] theorem rowEnd_dsym : (rowEnd s).dsym = s.dsym := rfl
@[simp] theorem rowEnd_dist : (rowEnd s).dist = s.dist := rfl
@[simp] theorem rowEnd_code : (rowEnd s).code = s.code := rfl
@[simp] theorem rowEnd_clen : (rowEnd s).clen = s.clen := rfl
@[simp] theorem rowEnd_rptr : (rowEnd s).rptr = s.rptr + s.rowbytes + 1 := rfl
@[simp] theorem rowEnd_ft : (rowEnd s).ft = s.ft := rfl
@[simp] theorem rowEnd_rowbytes : (rowEnd s).rowbytes = s.rowbytes := rfl
@[simp] theorem rowEnd_fu : (rowEnd s).fu = s.fu := rfl
@[simp] theorem rowEnd_col : (rowEnd s).col = s.col := rfl
@[simp] theorem rowEnd_status : (rowEnd s).status = s.status := rfl
@[simp] theorem rowEnd_err : (rowEnd s).err = s.err := rfl
@[simp] theorem rowEnd_cllen : (rowEnd s).cllen = s.cllen := rfl
@[simp] theorem rowEnd_lllen : (rowEnd s).lllen = s.lllen := rfl
@[simp] theorem rowEnd_dlen : (rowEnd s).dlen = s.dlen := rfl
@[simp] theorem rowEnd_prior : (rowEnd s).prior = s.cur := rfl
@[simp] theorem rowEnd_cur : (rowEnd s).cur = s.cur := rfl
@[simp] theorem rowEnd_inLen : (rowEnd s).inLen = s.inLen := rfl
@[simp] theorem rowEnd_mode : (rowEnd s).mode = s.mode := rfl
@[simp] theorem rowEnd_width : (rowEnd s).width = s.width := rfl
@[simp] theorem rowEnd_bitdepth : (rowEnd s).bitdepth = s.bitdepth := rfl
@[simp] theorem rowEnd_planes : (rowEnd s).planes = s.planes := rfl
@[simp] theorem rowEnd_outLen : (rowEnd s).outLen = s.outLen := rfl
@[simp] theorem rowEnd_rows : (rowEnd s).rows = s.rows + 1 := rfl
@[simp] theorem rowEnd_pixLen : (rowEnd s).pixLen = s.pixLen := rfl
@[simp] theorem rowEnd_inMem : (rowEnd s).inMem = s.inMem := rfl
@[simp] theorem rowEnd_out : (rowEnd s).out = s.out := rfl
@[simp] theorem rowEnd_pix : (rowEnd s).pix = s.pix := rfl
@[simp] theorem rowEnd_cap : (rowEnd s).cap = s.cap := rfl
@[simp] theorem rowEnd_point : (rowEnd s).point = .scanline := rfl
@[simp] theorem rowEnd_hostQueue : (rowEnd s).hostQueue = s.hostQueue := rfl
@[simp] theorem rowEnd_hostReply : (rowEnd s).hostReply = s.hostReply := rfl
@[simp] theorem rowEnd_freeCount : (rowEnd s).freeCount = s.freeCount := rfl

end

section
variable (s : State)

@[simp] theorem scanEntry_pos : (scanEntry s).pos = s.pos := rfl
@[simp] theorem scanEntry_la : (scanEntry s).la = s.la := rfl
@[simp] theorem scanEntry_bitoff : (scanEntry s).bitoff = s.bitoff := rfl
@[simp] theorem scanEntry_bfinal : (scanEntry s).bfinal = s.bfinal := rfl
@[simp] theorem scanEntry_btype : (scanEntry s).btype = s.btype := rfl
@[simp] theorem scanEntry_hlit : (scanEntry s).hlit = s.hlit := rfl
@[simp] theorem scanEntry_hdist : (scanEntry s).hdist = s.hdist := rfl
@[simp] theorem scanEntry_hclen : (scanEntry s).hclen = s.hclen := rfl
@[simp] theorem scanEntry_nlit : (scanEntry s).nlit = s.nlit := rfl
@[simp] theorem scanEntry_ndist : (scanEntry s).ndist = s.ndist := rfl
@[simp] theorem scanEntry_ncl : (scanEntry s).ncl = s.ncl := rfl
@[simp] theorem scanEntry_lidx : (scanEntry s).lidx = s.lidx := rfl
@[simp] theorem scanEntry_prevlen : (scanEntry s).prevlen = s.prevlen := rfl
@[simp] theorem scanEntry_lens : (scanEntry s).lens = s.lens := rfl
@[simp] theorem scanEntry_sym : (scanEntry s).sym = s.sym := rfl
@[simp] theorem scanEntry_len : (scanEntry s).len = s.len := rfl
@[simp] theorem scanEntry_dsym : (scanEntry s).dsym = s.dsym := rfl
@[simp] theorem scanEntry_dist : (scanEntry s).dist = s.dist := rfl
@[simp] theorem scanEntry_code : (scanEntry s).code = s.code := rfl
@[simp] theorem scanEntry_clen : (scanEntry s).clen = s.clen := rfl
@[simp] theorem scanEntry_rptr : (scanEntry s).rptr = 0 := rfl
@[simp] theorem scanEntry_ft : (scanEntry s).ft = s.ft := rfl
@[simp] theorem scanEntry_rowbytes : (scanEntry s).rowbytes = rowBytesOf s := rfl
@[simp] theorem scanEntry_fu : (scanEntry s).fu = filterUnitOf s := rfl
@[simp] theorem scanEntry_col : (scanEntry s).col = s.col := rfl
@[simp] theorem scanEntry_status : (scanEntry s).status = .scan := rfl
@[simp] theorem scanEntry_err : (scanEntry s).err = s.err := rfl
@[simp] theorem scanEntry_cllen : (scanEntry s).cllen = s.cllen := rfl
@[simp] theorem scanEntry_lllen : (scanEntry s).lllen = s.lllen := rfl
@[simp] theorem scanEntry_dlen : (scanEntry s).dlen = s.dlen := rfl
@[simp] theorem scanEntry_prior : (scanEntry s).prior = List.replicate (rowBytesOf s) 0 := rfl
@[simp] theorem scanEntry_cur : (scanEntry s).cur = s.cur := rfl
@[simp] theorem scanEntry_inLen : (scanEntry s).inLen = s.inLen := rfl
@[simp] theorem scanEntry_mode : (scanEntry s).mode = s.mode := rfl
@[simp] theorem scanEntry_width : (scanEntry s).width = s.width := rfl
@[simp] theorem scanEntry_bitdepth : (scanEntry s).bitdepth = s.bitdepth := rfl
@[simp] theorem scanEntry_planes : (scanEntry s).planes = s.planes := rfl
@[simp] theorem scanEntry_outLen : (scanEntry s).outLen = s.outLen := rfl
@[simp] theorem scanEntry_rows : (scanEntry s).rows = s.rows := rfl
@[simp] theorem scanEntry_pixLen : (scanEntry s).pixLen = s.pixLen := rfl
@[simp] theorem scanEntry_inMem : (scanEntry s).inMem = s.inMem := rfl
@[simp] theorem scanEntry_out : (scanEntry s).out = s.out := rfl
@[simp] theorem scanEntry_pix : (scanEntry s).pix = s.pix := rfl
@[simp] theorem scanEntry_cap : (scanEntry s).cap = s.cap := rfl
@[simp] theorem scanEntry_point : (scanEntry s).point = .scanline := rfl
@[simp] theorem scanEntry_hostQueue : (scanEntry s).hostQueue = s.hostQueue := rfl
@[simp] theorem scanEntry_hostReply : (scanEntry s).hostReply = s.hostReply := rfl
@[simp] theorem scanEntry_freeCount : (scanEntry s).freeCount = s.freeCount := rfl

end

section
variable (v : Nat) (s : State)

@[simp] theorem reply_pos : (reply v s).pos = s.pos := rfl
@[simp] theorem reply_la : (reply v s).la = s.la := rfl
@[simp] theorem reply_bitoff : (reply v s).bitoff = s.bitoff := rfl
@[simp] theorem reply_bfinal : (reply v s).bfinal = s.bfinal := rfl
@[simp] theorem reply_btype : (reply v s).btype = s.btype := rfl
@[simp] theorem reply_hlit : (reply v s).hlit = s.hlit := rfl
@[simp] theorem reply_hdist : (reply v s).hdist = s.hdist := rfl
@[simp] theorem reply_hclen : (reply v s).hclen = s.hclen := rfl
@[simp] theorem reply_nlit : (reply v s).nlit = s.nlit := rfl
@[simp] theorem reply_ndist : (reply v s).ndist = s.ndist := rfl
@[simp] theorem reply_ncl : (reply v s).ncl = s.ncl := rfl
@[simp] theorem reply_lidx : (reply v s).lidx = s.lidx := rfl
@[simp] theorem reply_prevlen : (reply v s).prevlen = s.prevlen := rfl
@[simp] theorem reply_lens : (reply v s).lens = s.lens := rfl
@[simp] theorem reply_sym : (reply v s).sym = s.sym := rfl
@[simp] theorem reply_len : (reply v s).len = s.len := rfl
@[simp] theorem reply_dsym : (reply v s).dsym = s.dsym := rfl
@[simp] theorem reply_dist : (reply v s).dist = s.dist := rfl
@[simp] theorem reply_code : (reply v s).code = s.code := rfl
@[simp] theorem reply_clen : (reply v s).clen = s.clen := rfl
@[simp] theorem reply_rptr : (reply v s).rptr = s.rptr := rfl
@[simp] theorem reply_ft : (reply v s).ft = s.ft := rfl
@[simp] theorem reply_rowbytes : (reply v s).rowbytes = s.rowbytes := rfl
@[simp] theorem reply_fu : (reply v s).fu = s.fu := rfl
@[simp] theorem reply_col : (reply v s).col = s.col := rfl
@[simp] theorem reply_status : (reply v s).status = s.status := rfl
@[simp] theorem reply_err : (reply v s).err = s.err := rfl
@[simp] theorem reply_cllen : (reply v s).cllen = s.cllen := rfl
@[simp] theorem reply_lllen : (reply v s).lllen = s.lllen := rfl
@[simp] theorem reply_dlen : (reply v s).dlen = s.dlen := rfl
@[simp] theorem reply_prior : (reply v s).prior = s.prior := rfl
@[simp] theorem reply_cur : (reply v s).cur = s.cur := rfl
@[simp] theorem reply_inLen : (reply v s).inLen = s.inLen := rfl
@[simp] theorem reply_mode : (reply v s).mode = s.mode := rfl
@[simp] theorem reply_width : (reply v s).width = s.width := rfl
@[simp] theorem reply_bitdepth : (reply v s).bitdepth = s.bitdepth := rfl
@[simp] theorem reply_planes : (reply v s).planes = s.planes := rfl
@[simp] theorem reply_outLen : (reply v s).outLen = s.outLen := rfl
@[simp] theorem reply_rows : (reply v s).rows = s.rows := rfl
@[simp] theorem reply_pixLen : (reply v s).pixLen = s.pixLen := rfl
@[simp] theorem reply_inMem : (reply v s).inMem = s.inMem := rfl
@[simp] theorem reply_out : (reply v s).out = s.out := rfl
@[simp] theorem reply_pix : (reply v s).pix = s.pix := rfl
@[simp] theorem reply_cap : (reply v s).cap = s.cap := rfl
@[simp] theorem reply_point : (reply v s).point = s.point := rfl
@[simp] theorem reply_hostQueue : (reply v s).hostQueue = s.hostQueue := rfl
@[simp] theorem reply_hostReply : (reply v s).hostReply = some v := rfl
@[simp] theorem reply_freeCount : (reply v s).freeCount = s.freeCount := rfl

end

end Sys2Proof.Machine
end

