-- ==== Sys2Proof/Laws/Ops.lean ====
section
/-! SUPPORT. What each shared operation can do, said once: APPEND, the steps of COPY, EMIT and runs of it, the code-length runs. -/

namespace Sys2Proof.Machine

open Sys2Proof

/-! ### Acts -/

@[simp] theorem Act.andThen_go (s : State) (f : State → Act) : (Act.go s).andThen f = f s := rfl
@[simp] theorem Act.andThen_raise (k : ErrKind) (s : State) (f : State → Act) : (Act.raise k s).andThen f = .raise k s := rfl
@[simp] theorem Act.andThen_stop (r : Fault) (f : State → Act) : (Act.stop r).andThen f = .stop r := rfl
@[simp] theorem Act.outcome_go (s : State) : (Act.go s).outcome = .next s := rfl
@[simp] theorem Act.outcome_raise (k : ErrKind) (s : State) : (Act.raise k s).outcome = .next (Sys2Proof.Machine.raise k s) := rfl
@[simp] theorem Act.outcome_stop (r : Fault) : (Act.stop r).outcome = .fault r := rfl

/-- A next state of an act is where it went on, or a fault entered. -/
theorem Act.outcome_next {a : Act} {t : State} (h : a.outcome = .next t) :
    a = .go t ∨ ∃ k u, a = .raise k u ∧ t = Sys2Proof.Machine.raise k u := by
  cases a with
  | go s => simp only [Act.outcome, Host.Outcome.next.injEq] at h; exact .inl (by rw [h])
  | raise k u => simp only [Act.outcome, Host.Outcome.next.injEq] at h; exact .inr ⟨k, u, rfl, h.symm⟩
  | stop r => simp [Act.outcome] at h

/-- An act that goes on through `andThen` goes on through both parts. -/
theorem Act.andThen_eq_go {a : Act} {f : State → Act} {t : State} (h : a.andThen f = .go t) :
    ∃ u, a = .go u ∧ f u = .go t := by
  cases a with
  | go s => exact ⟨s, rfl, h⟩
  | raise k u => simp at h
  | stop r => simp at h

/-! ### Limits -/

@[simp] theorem withinLimit_none (n : Nat) : withinLimit n none = true := rfl
@[simp] theorem withinLimit_some (n m : Nat) : withinLimit n (some m) = true ↔ n ≤ m := by simp [withinLimit]

/-- Room for one more unit means the capacity is not reached. -/
theorem ne_of_fitsIn {used n : Nat} {cap : Option Nat} (h : fitsIn used (n + 1) cap) : cap ≠ some used := by
  rintro rfl
  simp [fitsIn] at h

/-- Room for `n + 1` units is room for `n` behind one more. -/
theorem fitsIn_succ {used n : Nat} {cap : Option Nat} (h : fitsIn used (n + 1) cap) : fitsIn (used + 1) n cap := by
  unfold fitsIn at *
  rwa [show used + 1 + n = used + (n + 1) by omega]

/-! ### APPEND and COPY -/

/-- APPEND either raises CapacityExceeded at a full OUT or writes the byte at OUT_LEN. -/
theorem append_cases (b : Byte) (s : State) :
    (s.cap.outCap = some s.outLen ∧ append b s = .raise .capacityExceeded s) ∨
    (s.cap.outCap ≠ some s.outLen ∧
      append b s = .go { s with out := memWrite s.out s.outLen b, outLen := s.outLen + 1 }) := by
  unfold append
  split
  · exact .inl ⟨‹_›, rfl⟩
  · exact .inr ⟨‹_›, rfl⟩

/-- `n` steps of COPY from a state that has OUT[0 .. OUT_LEN - 1], a distance within it and room for `n` bytes: they go on,
change only OUT and OUT_LEN, keep every byte already produced, and byte `j` of the copy is the byte DIST before it. -/
theorem copySteps_go (n : Nat) (s : State) (hd : 1 ≤ s.dist.toNat) (hr : s.dist.toNat ≤ s.outLen)
    (hc : cellsBelow s.outLen s.out) (hf : fitsIn s.outLen n s.cap.outCap) :
    ∃ m, copySteps n s = .go { s with out := m, outLen := s.outLen + n } ∧ cellsBelow (s.outLen + n) m ∧
      (∀ a, a < s.outLen → memRead m a = memRead s.out a) ∧
      ∀ j, j < n → memRead m (s.outLen + j) = memRead m (s.outLen + j - s.dist.toNat) := by
  induction n generalizing s with
  | zero => exact ⟨s.out, rfl, hc, fun _ _ => rfl, fun j hj => absurd hj (Nat.not_lt_zero j)⟩
  | succ n ih =>
    obtain ⟨b, hb⟩ := cellsBelow_read hc (a := s.outLen - s.dist.toNat) (by omega)
    have happ := (append_cases b s).resolve_left (fun h => ne_of_fitsIn hf h.1)
    let u : State := { s with out := memWrite s.out s.outLen b, outLen := s.outLen + 1 }
    obtain ⟨m, hm, hcells, hold, hnew⟩ := ih u hd (by show s.dist.toNat ≤ s.outLen + 1; omega) (cellsBelow_succ hc b) (fitsIn_succ hf)
    refine ⟨m, ?_, ?_, ?_, ?_⟩
    · simp only [copySteps, cellsBelow_readBelow hc, hb, happ.2, Act.andThen_go]
      show copySteps n u = _
      rw [hm]
      simp only [u, show s.outLen + 1 + n = s.outLen + (n + 1) by omega]
    · rw [show s.outLen + (n + 1) = u.outLen + n by show _ = s.outLen + 1 + n; omega]
      exact hcells
    · intro a ha
      rw [hold a (by show a < s.outLen + 1; omega)]
      exact memRead_memWrite_other _ _ (by omega)
    · intro j hj
      cases j with
      | zero =>
        rw [Nat.add_zero, hold s.outLen (Nat.lt_succ_self _), hold (s.outLen - s.dist.toNat) (by show _ < s.outLen + 1; omega)]
        rw [show memRead u.out s.outLen = some b from memRead_memWrite_same _ _ _]
        rw [show memRead u.out (s.outLen - s.dist.toNat) = memRead s.out (s.outLen - s.dist.toNat) from
          memRead_memWrite_other _ _ (by omega), hb]
      | succ j =>
        have := hnew j (by omega)
        rwa [show u.outLen + j = s.outLen + (j + 1) by show s.outLen + 1 + j = _; omega] at this

/-! ### EMIT -/

/-- EMIT either raises CapacityExceeded at a full PIX or writes the sample at PIX_LEN. -/
theorem emit_cases (v : Sample) (s : State) :
    (s.cap.pixCap = some s.pixLen ∧ emit v s = .raise .capacityExceeded s) ∨
    (s.cap.pixCap ≠ some s.pixLen ∧
      emit v s = .go { s with pix := memWrite s.pix s.pixLen v, pixLen := s.pixLen + 1 }) := by
  unfold emit
  split
  · exact .inl ⟨‹_›, rfl⟩
  · exact .inr ⟨‹_›, rfl⟩

/-- `n` samples that are all there, with room for them in PIX: they are emitted in order, only PIX and PIX_LEN change, and
every sample already emitted stays. -/
theorem emitFrom_go (f : Nat → Option Sample) (n j : Nat) (s : State) (hc : cellsBelow s.pixLen s.pix)
    (hf : fitsIn s.pixLen n s.cap.pixCap) (hs : ∀ i, j ≤ i → i < j + n → (f i).isSome = true) :
    ∃ m, emitFrom f n j s = .go { s with pix := m, pixLen := s.pixLen + n } ∧ cellsBelow (s.pixLen + n) m ∧
      (∀ a, a < s.pixLen → memRead m a = memRead s.pix a) ∧
      ∀ i, i < n → memRead m (s.pixLen + i) = f (j + i) := by
  induction n generalizing s j with
  | zero => exact ⟨s.pix, rfl, hc, fun _ _ => rfl, fun i hi => absurd hi (Nat.not_lt_zero i)⟩
  | succ n ih =>
    obtain ⟨v, hv⟩ := Option.isSome_iff_exists.mp (hs j (Nat.le_refl j) (by omega))
    have hem := (emit_cases v s).resolve_left (fun h => ne_of_fitsIn hf h.1)
    let u : State := { s with pix := memWrite s.pix s.pixLen v, pixLen := s.pixLen + 1 }
    obtain ⟨m, hm, hcells, hold, hnew⟩ := ih (j + 1) u (cellsBelow_succ hc v) (fitsIn_succ hf)
      (fun i h1 h2 => hs i (by omega) (by omega))
    refine ⟨m, ?_, ?_, ?_, ?_⟩
    · simp only [emitFrom, hv, hem.2, Act.andThen_go]
      show emitFrom f n (j + 1) u = _
      rw [hm]
      simp only [u, show s.pixLen + 1 + n = s.pixLen + (n + 1) by omega]
    · rw [show s.pixLen + (n + 1) = u.pixLen + n by show _ = s.pixLen + 1 + n; omega]
      exact hcells
    · intro a ha
      rw [hold a (by show a < s.pixLen + 1; omega)]
      exact memRead_memWrite_other _ _ (by omega)
    · intro i hi
      cases i with
      | zero =>
        rw [Nat.add_zero, hold s.pixLen (Nat.lt_succ_self _), Nat.add_zero, hv]
        exact memRead_memWrite_same _ _ _
      | succ i =>
        have := hnew i (by omega)
        rwa [show u.pixLen + i = s.pixLen + (i + 1) by show s.pixLen + 1 + i = _; omega,
          show j + 1 + i = j + (i + 1) by omega] at this

/-! ### Runs of code lengths -/

/-- A run writes `r` entries of LENS from LIDX on and advances LIDX; it changes nothing else. -/
theorem fillLens_spec (v : BitVec 4) (r : Nat) (s : State) :
    ∃ l, fillLens v r s = { s with lens := l, lidx := s.lidx + r } ∧ l.length = s.lens.length ∧
      ∀ k, l[k]? = if s.lidx ≤ k ∧ k < s.lidx + r ∧ k < s.lens.length then some v else s.lens[k]? := by
  induction r generalizing s with
  | zero => exact ⟨s.lens, rfl, rfl, fun k => by rw [if_neg (by omega)]⟩
  | succ r ih =>
    let u : State := { s with lens := s.lens.set s.lidx v, lidx := s.lidx + 1 }
    have hu : u.lens = s.lens.set s.lidx v := rfl
    have hi : u.lidx = s.lidx + 1 := rfl
    obtain ⟨l, hl, hlen, hget⟩ := ih u
    refine ⟨l, ?_, ?_, ?_⟩
    · show fillLens v r u = _
      rw [hl, hi, show s.lidx + 1 + r = s.lidx + (r + 1) by omega]
    · rw [hlen, hu, List.length_set]
    · intro k
      rw [hget k, hu, hi, List.length_set, List.getElem?_set]
      by_cases hk : k < s.lens.length
      · by_cases h1 : s.lidx = k
        · subst h1; simp [hk]
        · by_cases h2 : s.lidx + 1 ≤ k ∧ k < s.lidx + 1 + r
          · rw [if_pos ⟨h2.1, h2.2, hk⟩, if_pos (by omega)]
          · rw [if_neg (by omega), if_neg h1, if_neg (by omega)]
      · rw [if_neg (fun h => hk h.2.2), if_neg (c := _ ∧ _) (fun h => hk h.2.2)]
        by_cases h1 : s.lidx = k
        · subst h1; simp [hk]
        · rw [if_neg h1]

/-- A run is refused past the end of the list, else it fills. -/
theorem lensRun_cases (r : Nat) (v : BitVec 4) (s : State) :
    (listTotal s < s.lidx + r ∧ lensRun r v s = .raise .malformedBitstream s) ∨
    (s.lidx + r ≤ listTotal s ∧ lensRun r v s = .go (fillLens v r s)) := by
  unfold lensRun
  split
  · exact .inl ⟨‹_›, rfl⟩
  · exact .inr ⟨by omega, rfl⟩

end Sys2Proof.Machine
end

