-- ==== Sys2Proof/Laws/Copy.lean ====
section
/-! SUPPORT. What a whole copy leaves, and which copy a distance element is. -/

namespace Sys2Proof.Machine

open Sys2Proof

/-- A copy that can run to its end does, and leaves what `Copied` says. -/
theorem copyFrom_copied {d : Nat} {s : State} (hd : d ≤ 32768) (h : Copyable d s) :
    ∃ t, (copyFrom d s).outcome = .next t ∧ Copied d s t ∧ cellsBelow t.outLen t.out := by
  have hdn : (BitVec.ofNat 16 d).toNat = d := by
    rw [BitVec.toNat_ofNat]
    omega
  let u : State := { s with dist := BitVec.ofNat 16 d }
  have hud : u.dist.toNat = d := hdn
  obtain ⟨m, hm, hcells, hold, hnew⟩ :=
    copySteps_go s.len.toNat u (by rw [hud]; exact h.one) (by rw [hud]; exact h.reach) h.cells h.room
  refine ⟨{ s with dist := BitVec.ofNat 16 d, out := m, outLen := s.outLen + s.len.toNat, point := .symbols }, ?_,
    { frame := rfl, dist := hdn, kept := ?_, copied := ?_ }, hcells⟩
  · have hr := h.reach
    unfold copyFrom copy
    rw [if_neg (by show ¬s.outLen < (BitVec.ofNat 16 d).toNat; rw [hdn]; omega)]
    show ((copySteps s.len.toNat u).andThen _).outcome = _
    rw [hm]
    rfl
  · intro a ha
    by_cases h1 : a < s.outLen
    · exact hold a h1
    · have e1 : memRead m a = none := by
        rw [← Option.not_isSome_iff_eq_none, cellsBelow_isSome hcells]
        show ¬a < s.outLen + _
        omega
      have e2 : memRead s.out a = none := by
        rw [← Option.not_isSome_iff_eq_none, cellsBelow_isSome h.cells]
        exact h1
      show memRead m a = _
      rw [e1, e2]
  · intro j hj
    obtain ⟨b, hb⟩ := cellsBelow_read hcells (a := s.outLen + j) (by show _ < s.outLen + _; omega)
    refine ⟨b, hb, ?_⟩
    have := hnew j hj
    rw [hud] at this
    show memRead m _ = _
    rw [show s.outLen = u.outLen from rfl, ← this]
    exact hb

/-- A copy that reaches too far raises. -/
theorem copyFrom_far {d : Nat} {s : State} (hd : d ≤ 32768) (h : s.outLen < d) :
    copyFrom d s = .raise .malformedBitstream { s with dist := BitVec.ofNat 16 d } := by
  have hdn : (BitVec.ofNat 16 d).toNat = d := by
    rw [BitVec.toNat_ofNat]
    omega
  unfold copyFrom copy
  rw [if_pos (by show s.outLen < (BitVec.ofNat 16 d).toNat; rw [hdn]; exact h)]
  rfl

/-- A distance element is the copy of its distance, 1 to 32768. -/
theorem exec_distanceOf {i : Instr} {d : Nat} (h : distanceOf i = some d) (s : State) :
    exec i s = (copyFrom d s).outcome ∧ 1 ≤ d ∧ d ≤ 32768 := by
  cases i <;> simp [distanceOf, Instr.format, Instr.number, Instr.extra, distanceTable] at h <;>
    (subst h; refine ⟨rfl, ?_, ?_⟩ <;> omega)

/-- `t` is `s` after some bytes were appended to OUT: nothing else changed, what was produced stays, and OUT still is the cells
below OUT_LEN within its capacity. -/
structure Grown (s t : State) : Prop where
  frame : t = { s with out := t.out, outLen := t.outLen }
  more  : s.outLen ≤ t.outLen
  kept  : ∀ a, a < s.outLen → memRead t.out a = memRead s.out a
  cells : cellsBelow s.outLen s.out → cellsBelow t.outLen t.out
  room  : withinLimit s.outLen s.cap.outCap = true → withinLimit t.outLen t.cap.outCap = true

theorem Grown.refl (s : State) : Grown s s := ⟨rfl, le_rfl, fun _ _ => rfl, id, id⟩

theorem Grown.trans {s t u : State} (h1 : Grown s t) (h2 : Grown t u) : Grown s u where
  frame := by
    have e := h2.frame
    rw [h1.frame] at e
    exact e
  more := le_trans h1.more h2.more
  kept := fun a ha => (h2.kept a (lt_of_lt_of_le ha h1.more)).trans (h1.kept a ha)
  cells := fun h => h2.cells (h1.cells h)
  room := fun h => h2.room (h1.room h)

/-- APPEND, when it goes on, grows OUT by its byte. -/
theorem append_grown {b : Byte} {s t : State} (h : append b s = .go t) : Grown s t ∧ t.outLen = s.outLen + 1 := by
  rcases append_cases b s with ⟨_, ha⟩ | ⟨hne, ha⟩ <;> rw [ha] at h
  · cases h
  · simp only [Act.go.injEq] at h
    subst h
    refine ⟨⟨rfl, Nat.le_succ _, fun a ha => memRead_memWrite_other _ _ (Nat.ne_of_lt ha), fun hc => cellsBelow_succ hc b,
      fun hl => ?_⟩, rfl⟩
    show withinLimit (s.outLen + 1) s.cap.outCap = true
    cases hcap : s.cap.outCap with
    | none => rfl
    | some m =>
      rw [hcap] at hl hne
      simp only [withinLimit_some] at hl ⊢
      simp only [ne_eq, Option.some.injEq] at hne
      omega

/-- The steps of COPY grow OUT, and where they raise it is CapacityExceeded at a full OUT. -/
theorem copySteps_grown (n : Nat) (s : State) :
    (∃ t, copySteps n s = .go t ∧ Grown s t ∧ t.outLen = s.outLen + n) ∨
    (∃ t, copySteps n s = .raise .capacityExceeded t ∧ Grown s t ∧ t.cap.outCap = some t.outLen) ∨
    copySteps n s = .stop .unwrittenCell := by
  induction n generalizing s with
  | zero => exact .inl ⟨s, rfl, .refl s, rfl⟩
  | succ n ih =>
    simp only [copySteps]
    cases hm : readBelow s.outLen s.out (s.outLen - s.dist.toNat) with
    | none => exact .inr (.inr rfl)
    | some b =>
      rcases append_cases b s with ⟨hfull, ha⟩ | ⟨_, ha⟩
      · exact .inr (.inl ⟨s, by simp only [ha, Act.andThen_raise], .refl s, hfull⟩)
      · obtain ⟨hg, hl⟩ := append_grown ha
        simp only [ha, Act.andThen_go]
        rcases ih { s with out := memWrite s.out s.outLen b, outLen := s.outLen + 1 } with
          ⟨t, h1, h2, h3⟩ | ⟨t, h1, h2, h3⟩ | h1
        · exact .inl ⟨t, h1, hg.trans h2, by rw [h3, hl]; omega⟩
        · exact .inr (.inl ⟨t, h1, hg.trans h2, h3⟩)
        · exact .inr (.inr h1)

/-- `t` is `s` after some samples were emitted, in the same terms. -/
structure Emitted (s t : State) : Prop where
  frame : t = { s with pix := t.pix, pixLen := t.pixLen }
  more  : s.pixLen ≤ t.pixLen
  kept  : ∀ a, a < s.pixLen → memRead t.pix a = memRead s.pix a
  cells : cellsBelow s.pixLen s.pix → cellsBelow t.pixLen t.pix
  room  : withinLimit s.pixLen s.cap.pixCap = true → withinLimit t.pixLen t.cap.pixCap = true

theorem Emitted.refl (s : State) : Emitted s s := ⟨rfl, le_rfl, fun _ _ => rfl, id, id⟩

theorem Emitted.trans {s t u : State} (h1 : Emitted s t) (h2 : Emitted t u) : Emitted s u where
  frame := by
    have e := h2.frame
    rw [h1.frame] at e
    exact e
  more := le_trans h1.more h2.more
  kept := fun a ha => (h2.kept a (lt_of_lt_of_le ha h1.more)).trans (h1.kept a ha)
  cells := fun h => h2.cells (h1.cells h)
  room := fun h => h2.room (h1.room h)

/-- EMIT, when it goes on, adds its sample to PIX. -/
theorem emit_emitted {v : Sample} {s t : State} (h : emit v s = .go t) : Emitted s t ∧ t.pixLen = s.pixLen + 1 := by
  rcases emit_cases v s with ⟨_, ha⟩ | ⟨hne, ha⟩ <;> rw [ha] at h
  · cases h
  · simp only [Act.go.injEq] at h
    subst h
    refine ⟨⟨rfl, Nat.le_succ _, fun a ha => memRead_memWrite_other _ _ (Nat.ne_of_lt ha), fun hc => cellsBelow_succ hc v,
      fun hl => ?_⟩, rfl⟩
    show withinLimit (s.pixLen + 1) s.cap.pixCap = true
    cases hcap : s.cap.pixCap with
    | none => rfl
    | some m =>
      rw [hcap] at hl hne
      simp only [withinLimit_some] at hl ⊢
      simp only [ne_eq, Option.some.injEq] at hne
      omega

/-- A run of EMIT adds its samples, and where it raises it is CapacityExceeded at a full PIX. -/
theorem emitFrom_emitted (f : Nat → Option Sample) (n j : Nat) (s : State) :
    (∃ t, emitFrom f n j s = .go t ∧ Emitted s t ∧ t.pixLen = s.pixLen + n) ∨
    (∃ t, emitFrom f n j s = .raise .capacityExceeded t ∧ Emitted s t ∧ t.cap.pixCap = some t.pixLen) ∨
    emitFrom f n j s = .stop .unwrittenCell := by
  induction n generalizing s j with
  | zero => exact .inl ⟨s, rfl, .refl s, rfl⟩
  | succ n ih =>
    simp only [emitFrom]
    cases hm : f j with
    | none => exact .inr (.inr rfl)
    | some v =>
      rcases emit_cases v s with ⟨hfull, ha⟩ | ⟨_, ha⟩
      · exact .inr (.inl ⟨s, by simp only [ha, Act.andThen_raise], .refl s, hfull⟩)
      · obtain ⟨hg, hl⟩ := emit_emitted ha
        simp only [ha, Act.andThen_go]
        rcases ih (j + 1) { s with pix := memWrite s.pix s.pixLen v, pixLen := s.pixLen + 1 } with
          ⟨t, h1, h2, h3⟩ | ⟨t, h1, h2, h3⟩ | h1
        · exact .inl ⟨t, h1, hg.trans h2, by rw [h3, hl]; omega⟩
        · exact .inr (.inl ⟨t, h1, hg.trans h2, h3⟩)
        · exact .inr (.inr h1)

end Sys2Proof.Machine
end

