-- ==== Sys2Proof/Laws/Scan.lean ====
section
/-! SUPPORT. The scanline loop: the row it leaves is the scanline reconstructed with its predictor. -/

namespace Sys2Proof.Machine

open Sys2Proof

/-- A byte inside a list is its `getD`. -/
theorem getElem?_eq_getD {l : List Byte} {k : Nat} (h : k < l.length) : l[k]? = some (l.getD k 0) := by
  rw [List.getD_eq_getElem?_getD, List.getElem?_eq_getElem h]
  rfl

/-- The loop, when it ends, has appended its `n` bytes to those reconstructed before. -/
theorem unfilterFrom_some {pred : Neighbours → Option Byte} {s : State} {n : Nat} {cur row : List Byte}
    (h : unfilterFrom pred s n cur = some row) : row.length = cur.length + n ∧ row.take cur.length = cur := by
  induction n generalizing cur with
  | zero =>
    simp only [unfilterFrom, Option.some.injEq] at h
    subst h
    simp
  | succ n ih =>
    simp only [unfilterFrom] at h
    split at h
    · rename_i x p _ _
      obtain ⟨h1, h2⟩ := ih h
      rw [List.length_append] at h1 h2
      refine ⟨by simp at h1; omega, ?_⟩
      have := congrArg (List.take cur.length) h2
      rw [List.take_take, List.take_append_of_le_length le_rfl, List.take_length] at this
      rwa [Nat.min_eq_left (by simp)] at this
    · cases h

/-- Under the scanline's conditions, with a predictor that answers wherever its neighbours do: the loop ends, and byte `i` of
the row is the filtered byte plus the prediction from the row itself and PRIOR. -/
theorem unfilterFrom_row {pred : Neighbours → Option Byte} {p : Byte → Byte → Byte → Byte} {s : State}
    (hp : ∀ a b c, pred { a := some a, b := some b, c := some c } = some (p a b c)) (h : RowReady s) (n : Nat) (cur : List Byte)
    (hn : cur.length + n = s.rowbytes) :
    ∃ row, unfilterFrom pred s n cur = some row ∧ row.length = s.rowbytes ∧ (∀ i, i < cur.length → row[i]? = cur[i]?) ∧
      ∀ i, cur.length ≤ i → i < s.rowbytes → ∃ x, memRead s.out (s.rptr + 1 + i) = some x ∧
        row[i]? = some (x + p (leftOf s.fu i row) (s.prior.getD i 0) (leftOf s.fu i s.prior)) := by
  have hrow := h.row
  have hunit := h.unit
  have hprior := h.prior
  induction n generalizing cur with
  | zero => exact ⟨cur, rfl, by omega, fun _ _ => rfl, fun i h1 h2 => by omega⟩
  | succ n ih =>
    obtain ⟨x, hx⟩ := cellsBelow_read h.cells (a := s.rptr + 1 + cur.length) (by omega)
    have hnb : neighbours s.fu cur.length cur s.prior =
        { a := some (leftOf s.fu cur.length cur), b := some (s.prior.getD cur.length 0)
          c := some (leftOf s.fu cur.length s.prior) } := by
      unfold neighbours leftOf
      rw [getElem?_eq_getD (l := s.prior) (k := cur.length) (by omega)]
      by_cases hf : s.fu ≤ cur.length
      · simp only [if_pos hf]
        rw [getElem?_eq_getD (l := cur) (by omega), getElem?_eq_getD (l := s.prior) (by omega)]
      · simp only [if_neg hf]
    obtain ⟨row, h1, h2, h3, h4⟩ := ih (cur ++ [x + p (leftOf s.fu cur.length cur) (s.prior.getD cur.length 0)
      (leftOf s.fu cur.length s.prior)]) (by rw [List.length_append, List.length_singleton]; omega)
    rw [List.length_append, List.length_singleton] at h3 h4
    have hkeep : ∀ i, i < cur.length → row[i]? = cur[i]? := fun i hi => by
      rw [h3 i (by omega), List.getElem?_append_left hi]
    refine ⟨row, ?_, h2, hkeep, ?_⟩
    · simp only [unfilterFrom, cellsBelow_readBelow h.cells, hx, hnb, hp]
      exact h1
    · intro i hi hlt
      by_cases he : i = cur.length
      · subst he
        refine ⟨x, hx, ?_⟩
        have hleft : leftOf s.fu cur.length row = leftOf s.fu cur.length cur := by
          unfold leftOf
          split
          · rw [List.getD_eq_getElem?_getD, List.getD_eq_getElem?_getD, hkeep _ (by omega)]
          · rfl
        rw [h3 cur.length (by omega), hleft, List.getElem?_append_right le_rfl, Nat.sub_self]
        rfl
      · exact h4 i (by omega) hlt

/-- UNFILTER with such a predictor reconstructs the scanline. -/
theorem unfilter_row {pred : Neighbours → Option Byte} {p : Byte → Byte → Byte → Byte} {s : State}
    (hp : ∀ a b c, pred { a := some a, b := some b, c := some c } = some (p a b c)) (h : RowReady s) :
    ∃ row, Reconstructed p s row ∧ unfilter pred s = .go { s with cur := row, col := s.rowbytes, point := .unpack } := by
  obtain ⟨row, h1, h2, -, h4⟩ := unfilterFrom_row hp h s.rowbytes [] (by simp)
  refine ⟨row, ⟨h2, fun i hi => h4 i (Nat.zero_le i) hi⟩, ?_⟩
  rw [unfilter, h1]

/-- UNFILTER goes on with a whole row, or stops at an unwritten cell. -/
theorem unfilter_cases (pred : Neighbours → Option Byte) (s : State) :
    (∃ row, row.length = s.rowbytes ∧ unfilter pred s = .go { s with cur := row, col := s.rowbytes, point := .unpack }) ∨
    unfilter pred s = .stop .unwrittenCell := by
  unfold unfilter
  cases h : unfilterFrom pred s s.rowbytes [] with
  | none => exact .inr rfl
  | some row => exact .inl ⟨row, by simpa using (unfilterFrom_some h).1, rfl⟩

/-- A row is determined by its filtered bytes, the unit, PRIOR and the predictor. -/
theorem reconstructed_unique {p : Byte → Byte → Byte → Byte} {s : State} {r q : List Byte} (hu : 1 ≤ s.fu)
    (hr : Reconstructed p s r) (hq : Reconstructed p s q) : r = q := by
  have key : ∀ i, i < s.rowbytes → r[i]? = q[i]? := by
    intro i
    induction i using Nat.strong_induction_on with
    | _ i ih =>
      intro hi
      obtain ⟨x, hx, h1⟩ := hr.2 i hi
      obtain ⟨y, hy, h2⟩ := hq.2 i hi
      have hxy : x = y := by rw [hx] at hy; exact Option.some.inj hy
      have hl : leftOf s.fu i r = leftOf s.fu i q := by
        unfold leftOf
        split
        · rw [List.getD_eq_getElem?_getD, List.getD_eq_getElem?_getD, ih (i - s.fu) (by omega) (by omega)]
        · rfl
      rw [h1, h2, hxy, hl]
  apply List.ext_getElem?
  intro i
  by_cases hi : i < s.rowbytes
  · exact key i hi
  · rw [List.getElem?_eq_none (by rw [hr.1]; omega), List.getElem?_eq_none (by rw [hq.1]; omega)]

end Sys2Proof.Machine
end

