-- ==== Sys2Proof/Laws/Effect.lean ====
section
/-! SUPPORT. Everything an element can do, said once: `exec_effect` turns a next state of `exec` into one of the cases of
`Effect`, so that a statement over all elements is a short case analysis. -/

namespace Sys2Proof.Machine

open Sys2Proof

/-- What element `i` did to `s` when it answered the next state `t`. -/
inductive Effect : Instr → State → State → Prop where
  | header {i : Instr} {s : State} (f : BitVec 1) (b : BitVec 2)
      (hi : (i = .bhdrStored f ∧ b = 0) ∨ (i = .bhdrRsv f ∧ b = 3)) : Effect i s (raise .invalidBlockType (setHeader f b s))
  | fixed {s : State} (f : BitVec 1) :
      Effect (.bhdrFixed f) s { s with bfinal := f, btype := 1, lllen := fixedLL, dlen := fixedD, point := .symbols }
  | dyn {s : State} (f : BitVec 1) : Effect (.bhdrDyn f) s { s with bfinal := f, btype := 2, point := .dynHeader }
  | counts {s : State} (l d : BitVec 5) (c : BitVec 4) :
      Effect (.dynhdr l d c) s { s with
        hlit := l, nlit := BitVec.ofNat 9 (l.toNat + 257), hdist := d, ndist := BitVec.ofNat 6 (d.toNat + 1), hclen := c
        ncl := BitVec.ofNat 5 (c.toNat + 4), point := .clcLengths }
  | clcBad {s : State} (fs : List (BitVec 3)) (T : List (BitVec 3)) (hT : T.length = 19)
      (ho : overSubscribed (lengthsOf T) maxCl = true) : Effect (.clclen fs) s (raise .malformedBitstream { s with cllen := T })
  | clc {s : State} (fs : List (BitVec 3)) (T : List (BitVec 3)) (hT : T.length = 19)
      (ho : overSubscribed (lengthsOf T) maxCl = false) :
      Effect (.clclen fs) s { s with cllen := T, lidx := 0, prevlen := none, point := .codeLengths }
  | lensBad {i : Instr} {s : State} (hi : i.format = .cl) : Effect i s (raise .malformedBitstream s)
  | lens {i : Instr} {s t : State} (hi : i.format = .cl) (hl : t.lens.length = s.lens.length) (hlt : s.lidx < t.lidx)
      (hb : (∃ n, i = .clLen n ∧ t.lidx = s.lidx + 1) ∨ t.lidx ≤ listTotal s)
      (ht : t = { s with lens := t.lens, lidx := t.lidx, prevlen := t.prevlen }) : Effect i s t
  | litFull {s : State} (b : Byte) (h : s.cap.outCap = some s.outLen) : Effect (.lit b) s (raise .capacityExceeded s)
  | lit {s : State} (b : Byte) (h : s.cap.outCap ≠ some s.outLen) :
      Effect (.lit b) s { s with out := memWrite s.out s.outLen b, outLen := s.outLen + 1 }
  | eob {s : State} : Effect .eob s (blockEnd s)
  | length {i : Instr} {s : State} (l : Nat) (hi : i.format = .ll) (h1 : 257 ≤ i.number) (h2 : i.number ≤ 285) (h3 : 3 ≤ l)
      (h4 : l ≤ 258) : Effect i s (setLength l s)
  | reserved {i : Instr} {s : State} (hi : i = .llrsv286 ∨ i = .llrsv287 ∨ i = .drsv30 ∨ i = .drsv31) :
      Effect i s (raise .malformedBitstream s)
  | far {i : Instr} {s : State} (d : Nat) (hi : distanceOf i = some d) (h : s.outLen < d) :
      Effect i s (raise .malformedBitstream { s with dist := BitVec.ofNat 16 d })
  | copyFull {i : Instr} {s t : State} (d : Nat) (hi : distanceOf i = some d) (h : d ≤ s.outLen)
      (hg : Grown { s with dist := BitVec.ofNat 16 d } t) (hc : t.cap.outCap = some t.outLen) :
      Effect i s (raise .capacityExceeded t)
  | copy {i : Instr} {s t : State} (d : Nat) (hi : distanceOf i = some d) (h : d ≤ s.outLen)
      (hg : Grown { s with dist := BitVec.ofNat 16 d } t) (hl : t.outLen = s.outLen + s.len.toNat) :
      Effect i s { t with point := .symbols }
  | filter {i : Instr} {s : State} (row : List Byte) (hi : i.format = .scanline) (hl : row.length = s.rowbytes) :
      Effect i s { s with cur := row, col := s.rowbytes, point := .unpack }
  | filterBad {s : State} (ft : Byte) : Effect (.filtInv ft) s (raise .invalidFilterType s)
  | unpackFull {i : Instr} {s t : State} (hi : i.format = .unpack) (hg : Emitted s t) (hc : t.cap.pixCap = some t.pixLen) :
      Effect i s (raise .capacityExceeded t)
  | unpack {i : Instr} {s t : State} (n : Nat)
      (hi : (i = .unpk8 ∧ n = s.rowbytes) ∨ (i = .unpk16 ∧ n = s.rowbytes / 2) ∨
        ((i = .unpk1 ∨ i = .unpk2 ∨ i = .unpk4) ∧ n = s.width))
      (hg : Emitted s t) (hl : t.pixLen = s.pixLen + n) : Effect i s (rowEnd t)

/-- The table CLCLEN fills keeps its size. -/
theorem assignClc_length (fields : List (BitVec 3)) (o : List Nat) (T : List (BitVec 3)) :
    (assignClc fields o T).length = T.length := by
  induction fields generalizing o T with
  | nil => cases o <;> rfl
  | cons f fields ih =>
    cases o with
    | nil => rfl
    | cons a o => rw [assignClc, ih, List.length_set]

variable {s t : State}

theorem Effect.of_run {i : Instr} {r : Nat} (v : BitVec 4) (p : Option (BitVec 4)) (hi : i.format = .cl) (hr : 1 ≤ r)
    (h : ((lensRun r v s).andThen fun u => .go { u with prevlen := p }).outcome = .next t) : Effect i s t := by
  rcases lensRun_cases r v s with ⟨_, hb⟩ | ⟨hb, hg⟩
  · rw [hb] at h
    cases h
    exact .lensBad hi
  · obtain ⟨l, hl, hlen, -⟩ := fillLens_spec v r s
    rw [hg, hl] at h
    cases h
    exact .lens hi hlen (by show s.lidx < s.lidx + r; omega) (.inr hb) rfl

theorem Effect.of_copy {i : Instr} {d : Nat} (hi : distanceOf i = some d) (h : (copyFrom d s).outcome = .next t) :
    Effect i s t := by
  obtain ⟨-, h1, h2⟩ := exec_distanceOf hi s
  by_cases hd : s.outLen < d
  · rw [copyFrom_far h2 hd] at h
    cases h
    exact .far d hi hd
  · have hdn : (BitVec.ofNat 16 d).toNat = d := by
      rw [BitVec.toNat_ofNat]
      omega
    unfold copyFrom Sys2Proof.Machine.copy at h
    rw [if_neg (by show ¬s.outLen < (BitVec.ofNat 16 d).toNat; rw [hdn]; exact hd)] at h
    rcases copySteps_grown s.len.toNat { s with dist := BitVec.ofNat 16 d } with ⟨u, hu, hg, hl⟩ | ⟨u, hu, hg, hc⟩ | hu
    · simp only [hu, Act.andThen_go, Act.outcome_go, Host.Outcome.next.injEq] at h
      subst h
      exact .copy d hi (by omega) hg hl
    · simp only [hu, Act.andThen_raise, Act.outcome_raise, Host.Outcome.next.injEq] at h
      subst h
      exact .copyFull d hi (by omega) hg hc
    · simp only [hu, Act.andThen_stop, Act.outcome_stop] at h
      cases h

theorem Effect.of_filter {i : Instr} {pred : Neighbours → Option Byte} (hi : i.format = .scanline)
    (h : (unfilter pred s).outcome = .next t) : Effect i s t := by
  rcases unfilter_cases pred s with ⟨row, hl, hu⟩ | hu
  · rw [hu] at h
    cases h
    exact .filter row hi hl
  · rw [hu] at h
    cases h

theorem Effect.of_unpack {i : Instr} {f : List Byte → Nat → Option Sample} {n : Nat}
    (hi : (i = .unpk8 ∧ n = s.rowbytes) ∨ (i = .unpk16 ∧ n = s.rowbytes / 2) ∨
      ((i = .unpk1 ∨ i = .unpk2 ∨ i = .unpk4) ∧ n = s.width))
    (h : (unpackRow f n s).outcome = .next t) : Effect i s t := by
  have hf : i.format = .unpack := by
    rcases hi with ⟨rfl, _⟩ | ⟨rfl, _⟩ | ⟨rfl | rfl | rfl, _⟩ <;> rfl
  unfold unpackRow at h
  rcases emitFrom_emitted (f s.cur) n 0 s with ⟨u, hu, hg, hl⟩ | ⟨u, hu, hg, hc⟩ | hu
  · rw [hu] at h
    cases h
    exact .unpack n hi hg hl
  · rw [hu] at h
    cases h
    exact .unpackFull hf hg hc
  · rw [hu] at h
    cases h

theorem Effect.of_length {i : Instr} {l : Nat} (h3 : 3 ≤ l) (h4 : l ≤ 258)
    (h : (Host.Outcome.next (setLength l s) : Host.Outcome State Fault Refusal) = .next t)
    (hi : i.format = .ll := by rfl) (h1 : 257 ≤ i.number := by decide) (h2 : i.number ≤ 285 := by decide) : Effect i s t := by
  cases h
  exact .length l hi h1 h2 h3 h4

theorem Effect.of_lengthExtra {i : Instr} {n b : Nat} (e : BitVec n) (h3 : 3 ≤ b) (h4 : b + 2 ^ n ≤ 259)
    (h : (Host.Outcome.next (setLength (b + e.toNat) s) : Host.Outcome State Fault Refusal) = .next t)
    (hi : i.format = .ll) {k : Nat} (hn : i.number = k) (hk : 257 ≤ k ∧ k ≤ 285) : Effect i s t := by
  have := e.isLt
  exact Effect.of_length (by omega) (by omega) h hi (by omega) (by omega)

/-- Everything an element can do. -/
theorem exec_effect (i : Instr) (h : exec i s = .next t) : Effect i s t := by
  cases i with
  | bhdrStored f => cases h; exact .header f 0 (.inl ⟨rfl, rfl⟩)
  | bhdrFixed f => cases h; exact .fixed f
  | bhdrDyn f => cases h; exact .dyn f
  | bhdrRsv f => cases h; exact .header f 3 (.inr ⟨rfl, rfl⟩)
  | dynhdr l d c => cases h; exact .counts l d c
  | clclen fs =>
    have hT : (assignClc fs order (List.replicate 19 0)).length = 19 := by rw [assignClc_length, List.length_replicate]
    unfold exec execClclen buildCodeLengths at h
    simp only at h
    split at h
    · cases h; exact .clcBad fs _ hT ‹_›
    · cases h; exact .clc fs _ hT (Bool.eq_false_iff.mpr ‹_›)
  | clLen n =>
    cases h
    exact .lens rfl (by simp [fillLens]) (by simp [fillLens]) (.inl ⟨n, rfl, rfl⟩) rfl
  | clRep e =>
    unfold exec execClRep at h
    simp only at h
    split at h
    · cases h; exact .lensBad rfl
    · rename_i v hv
      refine Effect.of_run (r := 3 + e.toNat) v s.prevlen rfl (by omega) ?_
      rw [← h]
      rcases lensRun_cases (3 + e.toNat) v s with ⟨_, hb⟩ | ⟨_, hg⟩
      · rw [hb]; rfl
      · obtain ⟨l, hl, -⟩ := fillLens_spec v (3 + e.toNat) s
        rw [hg, hl]; rfl
  | clZ3 e => exact Effect.of_run 0 (some 0) rfl (by omega) h
  | clZ11 e => exact Effect.of_run 0 (some 0) rfl (by omega) h
  | lit b =>
    have h' : (append b s).outcome = .next t := h
    rcases append_cases b s with ⟨hc, ha⟩ | ⟨hc, ha⟩ <;> rw [ha] at h' <;> cases h'
    · exact .litFull b hc
    · exact .lit b hc
  | eob => cases h; exact .eob
  | len257 => exact Effect.of_length (by decide) (by decide) h
  | len258 => exact Effect.of_length (by decide) (by decide) h
  | len259 => exact Effect.of_length (by decide) (by decide) h
  | len260 => exact Effect.of_length (by decide) (by decide) h
  | len261 => exact Effect.of_length (by decide) (by decide) h
  | len262 => exact Effect.of_length (by decide) (by decide) h
  | len263 => exact Effect.of_length (by decide) (by decide) h
  | len264 => exact Effect.of_length (by decide) (by decide) h
  | len265 e => exact Effect.of_lengthExtra e (by decide) (by decide) h rfl (k := 265) rfl (by decide)
  | len266 e => exact Effect.of_lengthExtra e (by decide) (by decide) h rfl (k := 266) rfl (by decide)
  | len267 e => exact Effect.of_lengthExtra e (by decide) (by decide) h rfl (k := 267) rfl (by decide)
  | len268 e => exact Effect.of_lengthExtra e (by decide) (by decide) h rfl (k := 268) rfl (by decide)
  | len269 e => exact Effect.of_lengthExtra e (by decide) (by decide) h rfl (k := 269) rfl (by decide)
  | len270 e => exact Effect.of_lengthExtra e (by decide) (by decide) h rfl (k := 270) rfl (by decide)
  | len271 e => exact Effect.of_lengthExtra e (by decide) (by decide) h rfl (k := 271) rfl (by decide)
  | len272 e => exact Effect.of_lengthExtra e (by decide) (by decide) h rfl (k := 272) rfl (by decide)
  | len273 e => exact Effect.of_lengthExtra e (by decide) (by decide) h rfl (k := 273) rfl (by decide)
  | len274 e => exact Effect.of_lengthExtra e (by decide) (by decide) h rfl (k := 274) rfl (by decide)
  | len275 e => exact Effect.of_lengthExtra e (by decide) (by decide) h rfl (k := 275) rfl (by decide)
  | len276 e => exact Effect.of_lengthExtra e (by decide) (by decide) h rfl (k := 276) rfl (by decide)
  | len277 e => exact Effect.of_lengthExtra e (by decide) (by decide) h rfl (k := 277) rfl (by decide)
  | len278 e => exact Effect.of_lengthExtra e (by decide) (by decide) h rfl (k := 278) rfl (by decide)
  | len279 e => exact Effect.of_lengthExtra e (by decide) (by decide) h rfl (k := 279) rfl (by decide)
  | len280 e => exact Effect.of_lengthExtra e (by decide) (by decide) h rfl (k := 280) rfl (by decide)
  | len281 e => exact Effect.of_lengthExtra e (by decide) (by decide) h rfl (k := 281) rfl (by decide)
  | len282 e => exact Effect.of_lengthExtra e (by decide) (by decide) h rfl (k := 282) rfl (by decide)
  | len283 e => exact Effect.of_lengthExtra e (by decide) (by decide) h rfl (k := 283) rfl (by decide)
  | len284 e => exact Effect.of_lengthExtra e (by decide) (by decide) h rfl (k := 284) rfl (by decide)
  | len285 => exact Effect.of_length (by decide) (by decide) h
  | llrsv286 => cases h; exact .reserved (.inl rfl)
  | llrsv287 => cases h; exact .reserved (.inr (.inl rfl))
  | drsv30 => cases h; exact .reserved (.inr (.inr (.inl rfl)))
  | drsv31 => cases h; exact .reserved (.inr (.inr (.inr rfl)))
  | filtNone => exact Effect.of_filter rfl h
  | filtSub => exact Effect.of_filter rfl h
  | filtUp => exact Effect.of_filter rfl h
  | filtAvg => exact Effect.of_filter rfl h
  | filtPaeth => exact Effect.of_filter rfl h
  | filtInv ft => cases h; exact .filterBad ft
  | unpk1 => exact Effect.of_unpack (.inr (.inr ⟨.inl rfl, rfl⟩)) h
  | unpk2 => exact Effect.of_unpack (.inr (.inr ⟨.inr (.inl rfl), rfl⟩)) h
  | unpk4 => exact Effect.of_unpack (.inr (.inr ⟨.inr (.inr rfl), rfl⟩)) h
  | unpk8 => exact Effect.of_unpack (.inl ⟨rfl, rfl⟩) h
  | unpk16 => exact Effect.of_unpack (.inr (.inl ⟨rfl, rfl⟩)) h
  | dist0 | dist1 | dist2 | dist3 => exact Effect.of_copy rfl h
  | dist4 e | dist5 e | dist6 e | dist7 e | dist8 e | dist9 e | dist10 e | dist11 e | dist12 e | dist13 e | dist14 e | dist15 e
  | dist16 e | dist17 e | dist18 e | dist19 e | dist20 e | dist21 e | dist22 e | dist23 e | dist24 e | dist25 e | dist26 e
  | dist27 e | dist28 e | dist29 e => exact Effect.of_copy rfl h

end Sys2Proof.Machine
end

