-- ==== Sys2Proof/Laws/Fetch.lean ====
section
/-! SUPPORT. Two readers that agree bit by bit agree on every element; READBIT over the cursor agrees with reading the list of the
stream's unread bits. -/

namespace Sys2Proof.Machine

open Sys2Proof

/-! ### Agreeing readers -/

/-- Two answers agree: the same value or the same stop, and related sources behind them. -/
def Agree {σ τ α : Type} (R : σ → τ → Prop) (g : Got σ α) (g' : Got τ α) : Prop :=
  match g, g' with
  | .got a s, .got b t => a = b ∧ R s t
  | .stop w s, .stop v t => w = v ∧ R s t
  | _, _ => False

variable {σ τ α β : Type} {R : σ → τ → Prop}

/-- Agreement goes through `andThen`. -/
theorem Agree.andThen {g : Got σ α} {g' : Got τ α} {f : α → σ → Got σ β} {f' : α → τ → Got τ β} (h : Agree R g g')
    (hf : ∀ a s t, R s t → Agree R (f a s) (f' a t)) : Agree R (g.andThen f) (g'.andThen f') := by
  cases g with
  | got a s =>
    cases g' with
    | got b t => obtain ⟨rfl, h⟩ := h; exact hf a s t h
    | stop v t => exact h.elim
  | stop w s =>
    cases g' with
    | got b t => exact h.elim
    | stop v t => exact h

variable {rd : σ → Got σ Bool} {rd' : τ → Got τ Bool}

theorem readField_agree (h : ∀ s t, R s t → Agree R (rd s) (rd' t)) (n : Nat) {s : σ} {t : τ} (hs : R s t) :
    Agree R (readField rd n s) (readField rd' n t) := by
  induction n generalizing s t with
  | zero => exact ⟨rfl, hs⟩
  | succ n ih => exact (h s t hs).andThen fun _ _ _ h1 => (ih h1).andThen fun _ _ _ h2 => ⟨rfl, h2⟩

theorem readLengths_agree (h : ∀ s t, R s t → Agree R (rd s) (rd' t)) (n : Nat) {s : σ} {t : τ} (hs : R s t) :
    Agree R (readLengths rd n s) (readLengths rd' n t) := by
  induction n generalizing s t with
  | zero => exact ⟨rfl, hs⟩
  | succ n ih =>
    exact (readField_agree h 3 hs).andThen fun _ _ _ h1 => (ih h1).andThen fun _ _ _ h2 => ⟨rfl, h2⟩

theorem walkCode_agree (h : ∀ s t, R s t → Agree R (rd s) (rd' t)) (codes : List CodeWord) (n code clen : Nat) {s : σ} {t : τ}
    (hs : R s t) : Agree R (walkCode rd codes n code clen s) (walkCode rd' codes n code clen t) := by
  induction n generalizing code clen s t with
  | zero => exact ⟨rfl, hs⟩
  | succ n ih =>
    refine (h s t hs).andThen fun b u v h1 => ?_
    cases codes.find? fun w => w.len == clen + 1 && w.code == code * 2 + b.toNat with
    | some w => exact ⟨rfl, h1⟩
    | none =>
      simp only
      split
      · exact ih _ _ h1
      · exact ⟨rfl, h1⟩

theorem codedElement_agree (h : ∀ s t, R s t → Agree R (rd s) (rd' t)) (T : List Nat) (maxl : Nat) (extra : Nat → Nat)
    (form : Nat → Nat → Option Instr) {s : σ} {t : τ} (hs : R s t) :
    Agree R (codedElement rd T maxl extra form s) (codedElement rd' T maxl extra form t) := by
  refine (walkCode_agree h _ _ _ _ hs).andThen fun w u v h1 => (readField_agree h _ h1).andThen fun e x y h2 => ?_
  unfold selected
  split
  · exact ⟨rfl, h2⟩
  · exact ⟨rfl, h2⟩

/-- Readers that agree on every bit agree on every element. -/
theorem decode_agree (h : ∀ s t, R s t → Agree R (rd s) (rd' t)) (c : Context) {s : σ} {t : τ} (hs : R s t) :
    Agree R (decode rd c s) (decode rd' c t) := by
  cases c with
  | header => exact (readField_agree h _ hs).andThen fun _ _ _ h1 => ⟨rfl, h1⟩
  | dynHeader =>
    exact (readField_agree h _ hs).andThen fun _ _ _ h1 => (readField_agree h _ h1).andThen fun _ _ _ h2 =>
      (readField_agree h _ h2).andThen fun _ _ _ h3 => ⟨rfl, h3⟩
  | clcLengths n => exact (readLengths_agree h _ hs).andThen fun _ _ _ h1 => ⟨rfl, h1⟩
  | clSymbol T p => exact codedElement_agree h _ _ _ _ hs
  | llSymbol T => exact codedElement_agree h _ _ _ _ hs
  | distance T => exact codedElement_agree h _ _ _ _ hs
  | scanline => exact (readField_agree h _ hs).andThen fun _ _ _ h1 => ⟨rfl, h1⟩
  | unpack =>
    refine (readField_agree h _ hs).andThen fun _ _ _ h1 => ?_
    unfold selected
    split
    · exact ⟨rfl, h1⟩
    · exact ⟨rfl, h1⟩

/-! ### What a reader preserves -/

/-- The source behind an answer. -/
def sourceOf {σ α : Type} : Got σ α → σ
  | .got _ s => s
  | .stop _ s => s

/-- What every bit read preserves, every decode preserves. -/
theorem decode_preserves {P : σ → Prop} (h : ∀ s, P s → P (sourceOf (rd s))) (c : Context) {s : σ} (hs : P s) :
    P (sourceOf (decode rd c s)) := by
  have key : ∀ u v : σ, (u = v ∧ P u) → Agree (fun a b => a = b ∧ P a) (rd u) (rd v) := by
    rintro u _ ⟨rfl, hu⟩
    have := h u hu
    cases hr : rd u with
    | got b t => rw [hr] at this; exact ⟨rfl, rfl, this⟩
    | stop w t => rw [hr] at this; exact ⟨rfl, rfl, this⟩
  have h2 := decode_agree key c (s := s) (t := s) ⟨rfl, hs⟩
  cases hd : decode rd c s with
  | got d t => rw [hd] at h2; exact h2.2.2
  | stop w t => rw [hd] at h2; exact h2.2.2

/-! ### The cursor -/

/-- The two ways a bit is read: from LA, or after a reload. -/
theorem readBit_cases (s : State) :
    (s.bitoff ≠ 8 ∧ readBit s = .got (s.la.getLsbD s.bitoff) { s with bitoff := s.bitoff + 1 }) ∨
    (s.bitoff = 8 ∧ s.inLen ≤ s.pos ∧ readBit s = .stop .exhausted s) ∨
    (s.bitoff = 8 ∧ s.pos < s.inLen ∧ memRead s.inMem s.pos = none ∧ readBit s = .stop .unwritten s) ∨
    ∃ v, s.bitoff = 8 ∧ s.pos < s.inLen ∧ memRead s.inMem s.pos = some v ∧
      readBit s = .got (v.getLsbD 0) { s with la := v, pos := s.pos + 1, bitoff := 1 } := by
  unfold readBit
  split
  · rename_i h8
    split
    · rename_i h; exact .inr (.inl ⟨h8, h, rfl⟩)
    · rename_i h
      rw [readBelow_lt s.inMem (by omega)]
      cases hm : memRead s.inMem s.pos with
      | none => exact .inr (.inr (.inl ⟨h8, by omega, rfl, rfl⟩))
      | some v => exact .inr (.inr (.inr ⟨v, h8, by omega, rfl, rfl⟩))
  · rename_i h8; exact .inl ⟨h8, rfl⟩

/-- A bit read changes the cursor only. -/
theorem readBit_sameButCursor (s : State) : sameButCursor s (sourceOf (readBit s)) := by
  rcases readBit_cases s with ⟨_, h⟩ | ⟨_, _, h⟩ | ⟨_, _, _, h⟩ | ⟨v, _, _, _, h⟩ <;> rw [h] <;> rfl

/-- A chain of reads changes the cursor only. -/
theorem sameButCursor_trans {s t u : State} (h1 : sameButCursor s t) (h2 : sameButCursor t u) : sameButCursor s u := by
  unfold sameButCursor at *
  rw [h2]
  rw [h1]

/-- A decode through READBIT changes the cursor only. -/
theorem decode_sameButCursor (c : Context) (s : State) : sameButCursor s (sourceOf (decode readBit c s)) :=
  decode_preserves (P := fun t => sameButCursor s t) (fun t ht => sameButCursor_trans ht (readBit_sameButCursor t)) c rfl

/-- A decode through READBIT keeps what depends on no cursor register. -/
theorem sameButCursor_inMem {s t : State} (h : sameButCursor s t) : t.inMem = s.inMem ∧ t.inLen = s.inLen := by
  rw [h]; exact ⟨rfl, rfl⟩

/-- BITPOS under a sound cursor lies within the stream. -/
theorem bitpos_le {s : State} (h : CursorOk s) : bitpos s ≤ 8 * s.inLen := by
  have h1 := h.inside
  have h2 := h.offset
  unfold bitpos
  omega

/-- The bits of the stream do not depend on the cursor. -/
theorem streamBit_congr {s t : State} (h : t.inMem = s.inMem) (k : Nat) : streamBit t k = streamBit s k := by
  simp only [streamBit, h]

/-- The unread bits begin with bit BITPOS. -/
theorem unreadBits_cons {s : State} (h : bitpos s < 8 * s.inLen) :
    unreadBits s = streamBit s (bitpos s) ::
      (List.range' (bitpos s + 1) (8 * s.inLen - (bitpos s + 1))).map (streamBit s) := by
  rw [unreadBits, show 8 * s.inLen - bitpos s = 8 * s.inLen - (bitpos s + 1) + 1 by omega, List.range'_succ, List.map_cons]

/-- At the end nothing is unread. -/
theorem unreadBits_nil {s : State} (h : 8 * s.inLen ≤ bitpos s) : unreadBits s = [] := by
  rw [unreadBits, show 8 * s.inLen - bitpos s = 0 by omega]
  rfl

/-- A bit read under a sound cursor: exhausted at the end; before it, bit BITPOS, and a sound cursor one bit further. -/
theorem readBit_spec {s : State} (h : CursorOk s) (hw : bitpos s < 8 * s.inLen → (memRead s.inMem (bitpos s / 8)).isSome = true) :
    (bitpos s = 8 * s.inLen ∧ readBit s = .stop .exhausted s) ∨
    (bitpos s < 8 * s.inLen ∧ ∃ t, readBit s = .got (streamBit s (bitpos s)) t ∧ sameButCursor s t ∧ CursorOk t ∧
      bitpos t = bitpos s + 1) := by
  have hoff := h.offset
  have hin := h.inside
  have hfresh := h.fresh
  rcases readBit_cases s with ⟨h8, hr⟩ | ⟨h8, hp, hr⟩ | ⟨h8, hp, hm, hr⟩ | ⟨v, h8, hp, hm, hr⟩
  · have hpos : 0 < s.pos := by
      by_contra h0
      exact h8 (hfresh (by omega))
    have hla := h.lookahead (by omega)
    have hb : bitpos s = 8 * (s.pos - 1) + s.bitoff := by unfold bitpos; omega
    refine .inr ⟨by omega, { s with bitoff := s.bitoff + 1 }, ?_, rfl, ?_, ?_⟩
    · rw [hr, streamBit, hb, show (8 * (s.pos - 1) + s.bitoff) / 8 = s.pos - 1 by omega, hla]
      simp only
      rw [show (8 * (s.pos - 1) + s.bitoff) % 8 = s.bitoff by omega]
    · exact { offset := by show s.bitoff + 1 ≤ 8; omega
              inside := hin
              fresh := fun h0 => absurd h0 (by show ¬s.pos = 0; omega)
              lookahead := fun _ => hla }
    · rw [hb]; show 8 * s.pos + (s.bitoff + 1) - 8 = _; omega
  · exact .inl ⟨by unfold bitpos; omega, hr⟩
  · exfalso
    have hb : bitpos s = 8 * s.pos := by unfold bitpos; omega
    have := hw (by omega)
    rw [hb, show 8 * s.pos / 8 = s.pos by omega, hm] at this
    cases this
  · have hb : bitpos s = 8 * s.pos := by unfold bitpos; omega
    refine .inr ⟨by omega, { s with la := v, pos := s.pos + 1, bitoff := 1 }, ?_, rfl, ?_, ?_⟩
    · rw [hr, streamBit, hb, show 8 * s.pos / 8 = s.pos by omega, hm]
      simp only
      rw [show 8 * s.pos % 8 = 0 by omega]
    · exact { offset := by show 1 ≤ 8; omega
              inside := hp
              fresh := fun h0 => absurd h0 (Nat.succ_ne_zero s.pos)
              lookahead := fun _ => hm }
    · rw [hb]; show 8 * (s.pos + 1) + 1 - 8 = _; omega

/-- `t` is a state reached from `s` by reads, and `bits` are its unread bits. -/
structure Reading (s t : State) (bits : List Bool) : Prop where
  same    : sameButCursor s t
  cursor  : CursorOk t
  written : InputWritten t
  unread  : unreadBits t = bits

/-- READBIT agrees with reading the list of unread bits. -/
theorem readBit_agree (s t : State) (bits : List Bool) (h : Reading s t bits) :
    Agree (Reading s) (readBit t) (listReader bits) := by
  have hw : bitpos t < 8 * t.inLen → (memRead t.inMem (bitpos t / 8)).isSome = true := fun hlt => h.written _ (by omega)
  rcases readBit_spec h.cursor hw with ⟨he, hr⟩ | ⟨hlt, u, hr, hsame, hcur, hb⟩
  · have : bits = [] := by rw [← h.unread, unreadBits_nil (by omega)]
    subst this
    rw [hr]
    exact ⟨rfl, h⟩
  · obtain ⟨e1, e2⟩ := sameButCursor_inMem hsame
    rw [hr, ← h.unread, unreadBits_cons hlt]
    refine ⟨rfl, sameButCursor_trans h.same hsame, hcur, ?_, ?_⟩
    · intro a ha
      rw [e1]
      exact h.written a (by omega)
    · rw [unreadBits, hb, e2]
      congr 1
      funext k
      exact streamBit_congr e1 k

end Sys2Proof.Machine
end

