-- ==== Sys2Proof/Laws/Engine.lean ====
section
/-! SUPPORT. Everything the engine's move can do, said once: `engineMove_cases`. -/

namespace Sys2Proof.Machine

open Sys2Proof

/-- What the engine did when its move answered the next state `t`. -/
inductive EngineCase (s t : State) : Prop where
  | rest (hr : running s = false) (ht : t = s)
  | listBad (hr : running s = true) (hp : s.point = .codeLengths) (hl : listTotal s ≤ s.lidx)
      (ht : t = raise .malformedBitstream (splitLens s))
  | listEnd (hr : running s = true) (hp : s.point = .codeLengths) (hl : listTotal s ≤ s.lidx)
      (ht : t = { splitLens s with point := .symbols })
  | element (hr : running s = true) (hp : inflatePoint s.point = true) (hl : s.point = .codeLengths → s.lidx < listTotal s)
      (d : Decoded) (u : State) (hd : decode readBit (contextOf s) s = .got d u) (hu : sameButCursor s u)
      (hf : fetch s = .run d.instr (fetchedState d u)) (ht : Effect d.instr (fetchedState d u) t)
  | exhausted (hr : running s = true) (hp : inflatePoint s.point = true) (u : State)
      (hd : decode readBit (contextOf s) s = .stop .exhausted u) (hu : sameButCursor s u) (ht : t = raise .truncatedInput u)
  | malformed (hr : running s = true) (hp : inflatePoint s.point = true) (u : State)
      (hd : decode readBit (contextOf s) s = .stop .malformed u) (hu : sameButCursor s u)
      (ht : t = raise .malformedBitstream u)
  | scanline (hr : running s = true) (hp : s.point = .scanline) (hl : s.rptr + s.rowbytes + 1 ≤ s.outLen) (ft : Byte)
      (hm : memRead s.out s.rptr = some ft) (hf : fetch s = .run (scanlineInstr ft.toNat) { s with ft := ft })
      (ht : Effect (scanlineInstr ft.toNat) { s with ft := ft } t)
  | scanEnd (hr : running s = true) (hp : s.point = .scanline) (hl : s.outLen < s.rptr + s.rowbytes + 1)
      (ht : t = Sys2Proof.Machine.scanEnd s)
  | unpack (hr : running s = true) (hp : s.point = .unpack) (i : Instr) (hi : unpackInstr s.bitdepth.toNat = some i)
      (hf : fetch s = .run i s) (ht : Effect i s t)

/-- Where a complete scanline remains and its byte FT is written, that byte selects the element. -/
theorem fetchScanline_run {s : State} {ft : Byte} (hl : s.rptr + s.rowbytes + 1 ≤ s.outLen)
    (hm : memRead s.out s.rptr = some ft) : fetchScanline s = .run (scanlineInstr ft.toNat) { s with ft := ft } := by
  have hb := readField_fieldBits_lt ft.isLt []
  rw [List.append_nil] at hb
  have hd : decodeBits .scanline (fieldBits 8 ft.toNat) = .got { instr := scanlineInstr ft.toNat, walked := none } [] := by
    simp only [decodeBits, decode]
    rw [hb]
    rfl
  unfold fetchScanline
  rw [if_pos (show scanlineLeft s = true from decide_eq_true hl)]
  simp only [readBelow_lt s.out (show s.rptr < s.outLen by omega), hm, hd]

/-- With no complete scanline left the loop ends. -/
theorem fetchScanline_end {s : State} (hl : s.outLen < s.rptr + s.rowbytes + 1) :
    fetchScanline s = .move (.next (scanEnd s)) := by
  unfold fetchScanline
  rw [if_neg]
  simp only [scanlineLeft, decide_eq_true_eq]
  omega

/-- BITDEPTH selects the unpack element. -/
theorem fetchUnpack_eq (s : State) :
    fetchUnpack s = match unpackInstr s.bitdepth.toNat with
      | some i => .run i s
      | none => .move (.fault .noElement) := by
  have hb := readField_fieldBits_lt s.bitdepth.isLt []
  rw [List.append_nil] at hb
  unfold fetchUnpack
  simp only [decodeBits, decode]
  rw [hb, Got.andThen_got]
  cases unpackInstr s.bitdepth.toNat <;> rfl

/-- Everything a stream fetch and its element can do. -/
theorem stream_cases {s t : State} (hr : running s = true) (hp : inflatePoint s.point = true)
    (hl : s.point = .codeLengths → s.lidx < listTotal s) (hf : fetch s = fetchStream s) (h : engineMove s = .next t) :
    EngineCase s t := by
  have hu := decode_sameButCursor (contextOf s) s
  unfold engineMove at h
  rw [hf] at h
  unfold fetchStream at h hf
  cases hd : decode readBit (contextOf s) s with
  | got d u =>
    rw [hd] at h hf hu
    exact .element hr hp hl d u hd hu hf (exec_effect _ h)
  | stop w u =>
    rw [hd] at h hu
    cases w with
    | exhausted => cases h; exact .exhausted hr hp u hd hu rfl
    | malformed => cases h; exact .malformed hr hp u hd hu rfl
    | unwritten => cases h
    | noElement => cases h

/-- Everything the engine's move can do. -/
theorem engineMove_cases {s t : State} (h : engineMove s = .next t) : EngineCase s t := by
  cases hr : running s with
  | false =>
    unfold engineMove fetch at h
    rw [hr] at h
    cases h
    exact .rest hr rfl
  | true =>
    have hf : fetch s = fetchAt s := by
      unfold fetch
      rw [if_pos hr]
    unfold fetchAt at hf
    cases hp : s.point with
    | header | dynHeader | clcLengths | symbols | distance =>
      rw [hp] at hf
      exact stream_cases hr (by rw [hp]; rfl) (fun hc => by rw [hp] at hc; cases hc) hf h
    | codeLengths =>
      rw [hp] at hf
      simp only at hf
      by_cases hl : s.lidx < listTotal s
      · rw [if_pos hl] at hf
        exact stream_cases hr (by rw [hp]; rfl) (fun _ => hl) hf h
      · rw [if_neg hl] at hf
        unfold engineMove at h
        rw [hf] at h
        simp only [Sys2Proof.Machine.listEnd, buildSymbols] at h
        split at h
        · cases h; exact .listBad hr hp (by omega) rfl
        · split at h
          · cases h; exact .listBad hr hp (by omega) rfl
          · cases h; exact .listEnd hr hp (by omega) rfl
    | scanline =>
      rw [hp] at hf
      simp only at hf
      unfold engineMove at h
      by_cases hl : s.rptr + s.rowbytes + 1 ≤ s.outLen
      · cases hm : memRead s.out s.rptr with
        | none =>
          rw [hf] at h
          unfold fetchScanline at h
          rw [if_pos (show scanlineLeft s = true from decide_eq_true hl), readBelow_lt s.out (show s.rptr < s.outLen by omega), hm] at h
          cases h
        | some ft =>
          rw [fetchScanline_run hl hm] at hf
          rw [hf] at h
          exact .scanline hr hp hl ft hm hf (exec_effect _ h)
      · rw [hf, fetchScanline_end (by omega)] at h
        cases h
        exact .scanEnd hr hp (by omega) rfl
    | unpack =>
      rw [hp] at hf
      simp only at hf
      rw [fetchUnpack_eq] at hf
      unfold engineMove at h
      cases hi : unpackInstr s.bitdepth.toNat with
      | none => rw [hf, hi] at h; cases h
      | some i =>
        rw [hi] at hf
        rw [hf] at h
        exact .unpack hr hp i hi hf (exec_effect _ h)

/-- What the fetch adds to the cursor: SYM or DSYM, CODE and CLEN. -/
theorem fetchedState_frame (d : Decoded) (u : State) :
    fetchedState d u = { u with
      sym := (fetchedState d u).sym, dsym := (fetchedState d u).dsym, code := (fetchedState d u).code
      clen := (fetchedState d u).clen } := by
  unfold fetchedState
  cases d.walked with
  | none => rfl
  | some w =>
    simp only [noteSymbol]
    split <;> rfl

/-- The state an element of phase INFLATE runs on is the state before but for the cursor, SYM, DSYM, CODE and CLEN. -/
theorem fetched_frame {s u : State} (h : sameButCursor s u) (d : Decoded) :
    fetchedState d u = { s with
      pos := u.pos, la := u.la, bitoff := u.bitoff, sym := (fetchedState d u).sym, dsym := (fetchedState d u).dsym
      code := (fetchedState d u).code, clen := (fetchedState d u).clen } := by
  have e := fetchedState_frame d u
  rw [h] at e
  rw [h]
  exact e

/-- A decode gives an element of the format its context reads. -/
theorem decode_format {σ : Type} {rd : σ → Got σ Bool} {c : Context} {s t : σ} {d : Decoded} (h : decode rd c s = .got d t) :
    d.instr.format = c.format := by
  have coded : ∀ {T maxl extra form f}, (∀ s e i, form s e = some i → Instr.format i = f) →
      codedElement rd T maxl extra form s = .got d t → d.instr.format = f := by
    intro T maxl extra form f hform hc
    obtain ⟨w, u, -, h2⟩ := Got.andThen_eq_got hc
    obtain ⟨e, v, -, h3⟩ := Got.andThen_eq_got h2
    unfold selected at h3
    split at h3
    · cases h3; exact hform _ _ _ ‹_›
    · cases h3
  cases c with
  | header =>
    obtain ⟨w, u, -, h2⟩ := Got.andThen_eq_got h
    cases h2
    simp only [headerInstr]
    split
    · rfl
    · split
      · rfl
      · split <;> rfl
  | dynHeader =>
    obtain ⟨a, u, -, h2⟩ := Got.andThen_eq_got h
    obtain ⟨b, v, -, h3⟩ := Got.andThen_eq_got h2
    obtain ⟨c, w, -, h4⟩ := Got.andThen_eq_got h3
    cases h4
    rfl
  | clcLengths n =>
    obtain ⟨a, u, -, h2⟩ := Got.andThen_eq_got h
    cases h2
    rfl
  | clSymbol T p =>
    refine coded (fun s e i hi => ?_) h
    unfold clInstr at hi
    split at hi
    · cases hi; rfl
    · split at hi
      · cases hi; rfl
      · split at hi
        · cases hi; rfl
        · split at hi
          · cases hi; rfl
          · cases hi
  | llSymbol T =>
    refine coded (fun s e i hi => ?_) h
    unfold llInstr at hi
    split at hi
    · cases hi; rfl
    · split at hi
      · cases hi; rfl
      · split at hi
        · have key : ∀ f, f ∈ lengthForms → (f e).format = .ll := by simp [lengthForms, Instr.format]
          cases hg : lengthForms[s - 257]? with
          | none => rw [hg] at hi; cases hi
          | some f =>
            rw [hg] at hi
            cases hi
            exact key f (List.mem_of_getElem? hg)
        · split at hi
          · cases hi; rfl
          · split at hi
            · cases hi; rfl
            · cases hi
  | distance T =>
    refine coded (fun s e i hi => ?_) h
    unfold distanceInstr at hi
    have key : ∀ f, f ∈ distanceForms → (f e).format = .d := by simp [distanceForms, Instr.format]
    cases hg : distanceForms[s]? with
    | none => rw [hg] at hi; cases hi
    | some f =>
      rw [hg] at hi
      cases hi
      exact key f (List.mem_of_getElem? hg)
  | scanline =>
    obtain ⟨w, u, -, h2⟩ := Got.andThen_eq_got h
    cases h2
    simp only [scanlineInstr]
    split
    · rfl
    · split
      · rfl
      · split
        · rfl
        · split
          · rfl
          · split <;> rfl
  | unpack =>
    obtain ⟨w, u, -, h2⟩ := Got.andThen_eq_got h
    unfold selected at h2
    split at h2
    · cases h2
      rename_i i hi
      unfold unpackInstr at hi
      simp only at hi ⊢
      split at hi
      · cases hi; rfl
      · split at hi
        · cases hi; rfl
        · split at hi
          · cases hi; rfl
          · split at hi
            · cases hi; rfl
            · split at hi
              · cases hi; rfl
              · cases hi
    · cases h2

end Sys2Proof.Machine
end

