-- ==== Sys2Proof/Laws/PerInstr.lean ====
section
/-! SUPPORT. The family Reassemble, one lemma per constructor of Instr: an element is what the decoder makes of its own number,
extra value and fields. No operand bit is lost between an element and its numbers. -/

namespace Sys2Proof.Laws

open Sys2Proof

/-- The element the decoder makes of a number `n` read in format `f`, with extra value `e` and, for CLCLEN, its fields. -/
def Reassemble.assemble (f : Format) (n e : Nat) (fields : List (BitVec 3)) : Option Instr :=
  match f with
  | .bhdr => some (headerInstr n)
  | .dynhdr => some (.dynhdr (BitVec.ofNat 5 n) (BitVec.ofNat 5 (n / 32)) (BitVec.ofNat 4 (n / 1024)))
  | .clclen => some (.clclen fields)
  | .cl => clInstr n e
  | .ll => llInstr n e
  | .d => distanceInstr n e
  | .scanline => some (scanlineInstr n)
  | .unpack => unpackInstr n

/-- A bit vector is the bit vector of its number. -/
theorem Reassemble.ofNat_self {n : Nat} (e : BitVec n) : BitVec.ofNat n e.toNat = e := by
  apply BitVec.eq_of_toNat_eq
  rw [BitVec.toNat_ofNat, Nat.mod_eq_of_lt e.isLt]

/-- The literal/length symbols from 257 to 285 are the length forms. -/
theorem Reassemble.llInstr_length (k e : Nat) (h : k < 29) : llInstr (k + 257) e = (lengthForms[k]?).map fun f => f e := by
  rw [llInstr, if_neg (by omega), if_neg (by omega), if_pos (by omega), Nat.add_sub_cancel]

/-- A well-formed element is reassembled from its format, number, extra value and fields. -/
def Reassemble.Statement (i : Instr) : Prop :=
  i.wellFormed = true → Reassemble.assemble i.format i.number i.extra i.clcFields = some i

theorem Reassemble.bhdrStored (final : BitVec 1) : Reassemble.Statement (.bhdrStored final) := by
  intro _
  revert final
  decide

theorem Reassemble.bhdrFixed (final : BitVec 1) : Reassemble.Statement (.bhdrFixed final) := by
  intro _
  revert final
  decide

theorem Reassemble.bhdrDyn (final : BitVec 1) : Reassemble.Statement (.bhdrDyn final) := by
  intro _
  revert final
  decide

theorem Reassemble.bhdrRsv (final : BitVec 1) : Reassemble.Statement (.bhdrRsv final) := by
  intro _
  revert final
  decide

theorem Reassemble.dynhdr (hlit hdist : BitVec 5) (hclen : BitVec 4) : Reassemble.Statement (.dynhdr hlit hdist hclen) := by
  intro _
  have h1 : BitVec.ofNat 5 (hlit.toNat + 32 * hdist.toNat + 1024 * hclen.toNat) = hlit := by
    apply BitVec.eq_of_toNat_eq
    simp only [BitVec.toNat_ofNat]
    omega
  have h2 : BitVec.ofNat 5 ((hlit.toNat + 32 * hdist.toNat + 1024 * hclen.toNat) / 32) = hdist := by
    apply BitVec.eq_of_toNat_eq
    simp only [BitVec.toNat_ofNat]
    omega
  have h3 : BitVec.ofNat 4 ((hlit.toNat + 32 * hdist.toNat + 1024 * hclen.toNat) / 1024) = hclen := by
    apply BitVec.eq_of_toNat_eq
    simp only [BitVec.toNat_ofNat]
    omega
  show some (Instr.dynhdr (BitVec.ofNat 5 (hlit.toNat + 32 * hdist.toNat + 1024 * hclen.toNat))
    (BitVec.ofNat 5 ((hlit.toNat + 32 * hdist.toNat + 1024 * hclen.toNat) / 32))
    (BitVec.ofNat 4 ((hlit.toNat + 32 * hdist.toNat + 1024 * hclen.toNat) / 1024))) = _
  rw [h1, h2, h3]

theorem Reassemble.clclen (fields : List (BitVec 3)) : Reassemble.Statement (.clclen fields) := fun _ => rfl

theorem Reassemble.clLen (n : BitVec 4) : Reassemble.Statement (.clLen n) := by
  intro _
  show clInstr n.toNat 0 = _
  rw [clInstr, if_pos n.isLt, Reassemble.ofNat_self]

theorem Reassemble.clRep (e : BitVec 2) : Reassemble.Statement (.clRep e) := fun _ => congrArg (fun x => some (Instr.clRep x)) (Reassemble.ofNat_self e)

theorem Reassemble.clZ3 (e : BitVec 3) : Reassemble.Statement (.clZ3 e) := fun _ => congrArg (fun x => some (Instr.clZ3 x)) (Reassemble.ofNat_self e)

theorem Reassemble.clZ11 (e : BitVec 7) : Reassemble.Statement (.clZ11 e) := fun _ => congrArg (fun x => some (Instr.clZ11 x)) (Reassemble.ofNat_self e)

theorem Reassemble.lit (b : Byte) : Reassemble.Statement (.lit b) := by
  intro _
  show llInstr b.toNat 0 = _
  rw [llInstr, if_pos b.isLt, Reassemble.ofNat_self]

theorem Reassemble.eob : Reassemble.Statement .eob := by
  intro _
  show llInstr 256 0 = _
  rw [llInstr, if_neg (by decide), if_pos rfl]

theorem Reassemble.len257 : Reassemble.Statement .len257 := fun _ => Reassemble.llInstr_length 0 0 (by decide)

theorem Reassemble.len258 : Reassemble.Statement .len258 := fun _ => Reassemble.llInstr_length 1 0 (by decide)

theorem Reassemble.len259 : Reassemble.Statement .len259 := fun _ => Reassemble.llInstr_length 2 0 (by decide)

theorem Reassemble.len260 : Reassemble.Statement .len260 := fun _ => Reassemble.llInstr_length 3 0 (by decide)

theorem Reassemble.len261 : Reassemble.Statement .len261 := fun _ => Reassemble.llInstr_length 4 0 (by decide)

theorem Reassemble.len262 : Reassemble.Statement .len262 := fun _ => Reassemble.llInstr_length 5 0 (by decide)

theorem Reassemble.len263 : Reassemble.Statement .len263 := fun _ => Reassemble.llInstr_length 6 0 (by decide)

theorem Reassemble.len264 : Reassemble.Statement .len264 := fun _ => Reassemble.llInstr_length 7 0 (by decide)

theorem Reassemble.len265 (e : BitVec 1) : Reassemble.Statement (.len265 e) := fun _ =>
  (Reassemble.llInstr_length 8 e.toNat (by decide)).trans (congrArg (fun x => some (Instr.len265 x)) (Reassemble.ofNat_self e))

theorem Reassemble.len266 (e : BitVec 1) : Reassemble.Statement (.len266 e) := fun _ =>
  (Reassemble.llInstr_length 9 e.toNat (by decide)).trans (congrArg (fun x => some (Instr.len266 x)) (Reassemble.ofNat_self e))

theorem Reassemble.len267 (e : BitVec 1) : Reassemble.Statement (.len267 e) := fun _ =>
  (Reassemble.llInstr_length 10 e.toNat (by decide)).trans (congrArg (fun x => some (Instr.len267 x)) (Reassemble.ofNat_self e))

theorem Reassemble.len268 (e : BitVec 1) : Reassemble.Statement (.len268 e) := fun _ =>
  (Reassemble.llInstr_length 11 e.toNat (by decide)).trans (congrArg (fun x => some (Instr.len268 x)) (Reassemble.ofNat_self e))

theorem Reassemble.len269 (e : BitVec 2) : Reassemble.Statement (.len269 e) := fun _ =>
  (Reassemble.llInstr_length 12 e.toNat (by decide)).trans (congrArg (fun x => some (Instr.len269 x)) (Reassemble.ofNat_self e))

theorem Reassemble.len270 (e : BitVec 2) : Reassemble.Statement (.len270 e) := fun _ =>
  (Reassemble.llInstr_length 13 e.toNat (by decide)).trans (congrArg (fun x => some (Instr.len270 x)) (Reassemble.ofNat_self e))

theorem Reassemble.len271 (e : BitVec 2) : Reassemble.Statement (.len271 e) := fun _ =>
  (Reassemble.llInstr_length 14 e.toNat (by decide)).trans (congrArg (fun x => some (Instr.len271 x)) (Reassemble.ofNat_self e))

theorem Reassemble.len272 (e : BitVec 2) : Reassemble.Statement (.len272 e) := fun _ =>
  (Reassemble.llInstr_length 15 e.toNat (by decide)).trans (congrArg (fun x => some (Instr.len272 x)) (Reassemble.ofNat_self e))

theorem Reassemble.len273 (e : BitVec 3) : Reassemble.Statement (.len273 e) := fun _ =>
  (Reassemble.llInstr_length 16 e.toNat (by decide)).trans (congrArg (fun x => some (Instr.len273 x)) (Reassemble.ofNat_self e))

theorem Reassemble.len274 (e : BitVec 3) : Reassemble.Statement (.len274 e) := fun _ =>
  (Reassemble.llInstr_length 17 e.toNat (by decide)).trans (congrArg (fun x => some (Instr.len274 x)) (Reassemble.ofNat_self e))

theorem Reassemble.len275 (e : BitVec 3) : Reassemble.Statement (.len275 e) := fun _ =>
  (Reassemble.llInstr_length 18 e.toNat (by decide)).trans (congrArg (fun x => some (Instr.len275 x)) (Reassemble.ofNat_self e))

theorem Reassemble.len276 (e : BitVec 3) : Reassemble.Statement (.len276 e) := fun _ =>
  (Reassemble.llInstr_length 19 e.toNat (by decide)).trans (congrArg (fun x => some (Instr.len276 x)) (Reassemble.ofNat_self e))

theorem Reassemble.len277 (e : BitVec 4) : Reassemble.Statement (.len277 e) := fun _ =>
  (Reassemble.llInstr_length 20 e.toNat (by decide)).trans (congrArg (fun x => some (Instr.len277 x)) (Reassemble.ofNat_self e))

theorem Reassemble.len278 (e : BitVec 4) : Reassemble.Statement (.len278 e) := fun _ =>
  (Reassemble.llInstr_length 21 e.toNat (by decide)).trans (congrArg (fun x => some (Instr.len278 x)) (Reassemble.ofNat_self e))

theorem Reassemble.len279 (e : BitVec 4) : Reassemble.Statement (.len279 e) := fun _ =>
  (Reassemble.llInstr_length 22 e.toNat (by decide)).trans (congrArg (fun x => some (Instr.len279 x)) (Reassemble.ofNat_self e))

theorem Reassemble.len280 (e : BitVec 4) : Reassemble.Statement (.len280 e) := fun _ =>
  (Reassemble.llInstr_length 23 e.toNat (by decide)).trans (congrArg (fun x => some (Instr.len280 x)) (Reassemble.ofNat_self e))

theorem Reassemble.len281 (e : BitVec 5) : Reassemble.Statement (.len281 e) := fun _ =>
  (Reassemble.llInstr_length 24 e.toNat (by decide)).trans (congrArg (fun x => some (Instr.len281 x)) (Reassemble.ofNat_self e))

theorem Reassemble.len282 (e : BitVec 5) : Reassemble.Statement (.len282 e) := fun _ =>
  (Reassemble.llInstr_length 25 e.toNat (by decide)).trans (congrArg (fun x => some (Instr.len282 x)) (Reassemble.ofNat_self e))

theorem Reassemble.len283 (e : BitVec 5) : Reassemble.Statement (.len283 e) := fun _ =>
  (Reassemble.llInstr_length 26 e.toNat (by decide)).trans (congrArg (fun x => some (Instr.len283 x)) (Reassemble.ofNat_self e))

theorem Reassemble.len284 (e : BitVec 5) : Reassemble.Statement (.len284 e) := fun _ =>
  (Reassemble.llInstr_length 27 e.toNat (by decide)).trans (congrArg (fun x => some (Instr.len284 x)) (Reassemble.ofNat_self e))

theorem Reassemble.len285 : Reassemble.Statement .len285 := fun _ => Reassemble.llInstr_length 28 0 (by decide)

theorem Reassemble.llrsv286 : Reassemble.Statement .llrsv286 := by
  intro _
  show llInstr 286 0 = _
  rw [llInstr, if_neg (by decide), if_neg (by decide), if_neg (by decide), if_pos rfl]

theorem Reassemble.llrsv287 : Reassemble.Statement .llrsv287 := by
  intro _
  show llInstr 287 0 = _
  rw [llInstr, if_neg (by decide), if_neg (by decide), if_neg (by decide), if_neg (by decide), if_pos rfl]

theorem Reassemble.dist0 : Reassemble.Statement .dist0 := fun _ => rfl

theorem Reassemble.dist1 : Reassemble.Statement .dist1 := fun _ => rfl

theorem Reassemble.dist2 : Reassemble.Statement .dist2 := fun _ => rfl

theorem Reassemble.dist3 : Reassemble.Statement .dist3 := fun _ => rfl

theorem Reassemble.dist4 (e : BitVec 1) : Reassemble.Statement (.dist4 e) := fun _ => congrArg (fun x => some (Instr.dist4 x)) (Reassemble.ofNat_self e)

theorem Reassemble.dist5 (e : BitVec 1) : Reassemble.Statement (.dist5 e) := fun _ => congrArg (fun x => some (Instr.dist5 x)) (Reassemble.ofNat_self e)

theorem Reassemble.dist6 (e : BitVec 2) : Reassemble.Statement (.dist6 e) := fun _ => congrArg (fun x => some (Instr.dist6 x)) (Reassemble.ofNat_self e)

theorem Reassemble.dist7 (e : BitVec 2) : Reassemble.Statement (.dist7 e) := fun _ => congrArg (fun x => some (Instr.dist7 x)) (Reassemble.ofNat_self e)

theorem Reassemble.dist8 (e : BitVec 3) : Reassemble.Statement (.dist8 e) := fun _ => congrArg (fun x => some (Instr.dist8 x)) (Reassemble.ofNat_self e)

theorem Reassemble.dist9 (e : BitVec 3) : Reassemble.Statement (.dist9 e) := fun _ => congrArg (fun x => some (Instr.dist9 x)) (Reassemble.ofNat_self e)

theorem Reassemble.dist10 (e : BitVec 4) : Reassemble.Statement (.dist10 e) := fun _ => congrArg (fun x => some (Instr.dist10 x)) (Reassemble.ofNat_self e)

theorem Reassemble.dist11 (e : BitVec 4) : Reassemble.Statement (.dist11 e) := fun _ => congrArg (fun x => some (Instr.dist11 x)) (Reassemble.ofNat_self e)

theorem Reassemble.dist12 (e : BitVec 5) : Reassemble.Statement (.dist12 e) := fun _ => congrArg (fun x => some (Instr.dist12 x)) (Reassemble.ofNat_self e)

theorem Reassemble.dist13 (e : BitVec 5) : Reassemble.Statement (.dist13 e) := fun _ => congrArg (fun x => some (Instr.dist13 x)) (Reassemble.ofNat_self e)

theorem Reassemble.dist14 (e : BitVec 6) : Reassemble.Statement (.dist14 e) := fun _ => congrArg (fun x => some (Instr.dist14 x)) (Reassemble.ofNat_self e)

theorem Reassemble.dist15 (e : BitVec 6) : Reassemble.Statement (.dist15 e) := fun _ => congrArg (fun x => some (Instr.dist15 x)) (Reassemble.ofNat_self e)

theorem Reassemble.dist16 (e : BitVec 7) : Reassemble.Statement (.dist16 e) := fun _ => congrArg (fun x => some (Instr.dist16 x)) (Reassemble.ofNat_self e)

theorem Reassemble.dist17 (e : BitVec 7) : Reassemble.Statement (.dist17 e) := fun _ => congrArg (fun x => some (Instr.dist17 x)) (Reassemble.ofNat_self e)

theorem Reassemble.dist18 (e : BitVec 8) : Reassemble.Statement (.dist18 e) := fun _ => congrArg (fun x => some (Instr.dist18 x)) (Reassemble.ofNat_self e)

theorem Reassemble.dist19 (e : BitVec 8) : Reassemble.Statement (.dist19 e) := fun _ => congrArg (fun x => some (Instr.dist19 x)) (Reassemble.ofNat_self e)

theorem Reassemble.dist20 (e : BitVec 9) : Reassemble.Statement (.dist20 e) := fun _ => congrArg (fun x => some (Instr.dist20 x)) (Reassemble.ofNat_self e)

theorem Reassemble.dist21 (e : BitVec 9) : Reassemble.Statement (.dist21 e) := fun _ => congrArg (fun x => some (Instr.dist21 x)) (Reassemble.ofNat_self e)

theorem Reassemble.dist22 (e : BitVec 10) : Reassemble.Statement (.dist22 e) := fun _ => congrArg (fun x => some (Instr.dist22 x)) (Reassemble.ofNat_self e)

theorem Reassemble.dist23 (e : BitVec 10) : Reassemble.Statement (.dist23 e) := fun _ => congrArg (fun x => some (Instr.dist23 x)) (Reassemble.ofNat_self e)

theorem Reassemble.dist24 (e : BitVec 11) : Reassemble.Statement (.dist24 e) := fun _ => congrArg (fun x => some (Instr.dist24 x)) (Reassemble.ofNat_self e)

theorem Reassemble.dist25 (e : BitVec 11) : Reassemble.Statement (.dist25 e) := fun _ => congrArg (fun x => some (Instr.dist25 x)) (Reassemble.ofNat_self e)

theorem Reassemble.dist26 (e : BitVec 12) : Reassemble.Statement (.dist26 e) := fun _ => congrArg (fun x => some (Instr.dist26 x)) (Reassemble.ofNat_self e)

theorem Reassemble.dist27 (e : BitVec 12) : Reassemble.Statement (.dist27 e) := fun _ => congrArg (fun x => some (Instr.dist27 x)) (Reassemble.ofNat_self e)

theorem Reassemble.dist28 (e : BitVec 13) : Reassemble.Statement (.dist28 e) := fun _ => congrArg (fun x => some (Instr.dist28 x)) (Reassemble.ofNat_self e)

theorem Reassemble.dist29 (e : BitVec 13) : Reassemble.Statement (.dist29 e) := fun _ => congrArg (fun x => some (Instr.dist29 x)) (Reassemble.ofNat_self e)

theorem Reassemble.drsv30 : Reassemble.Statement .drsv30 := fun _ => rfl

theorem Reassemble.drsv31 : Reassemble.Statement .drsv31 := fun _ => rfl

theorem Reassemble.filtNone : Reassemble.Statement .filtNone := fun _ => rfl

theorem Reassemble.filtSub : Reassemble.Statement .filtSub := fun _ => rfl

theorem Reassemble.filtUp : Reassemble.Statement .filtUp := fun _ => rfl

theorem Reassemble.filtAvg : Reassemble.Statement .filtAvg := fun _ => rfl

theorem Reassemble.filtPaeth : Reassemble.Statement .filtPaeth := fun _ => rfl

theorem Reassemble.filtInv (ft : Byte) : Reassemble.Statement (.filtInv ft) := by
  intro h
  have h5 : 5 ≤ ft.toNat := by simpa [Instr.wellFormed] using h
  show some (scanlineInstr ft.toNat) = _
  rw [scanlineInstr, if_neg (by omega), if_neg (by omega), if_neg (by omega), if_neg (by omega), if_neg (by omega), Reassemble.ofNat_self]

theorem Reassemble.unpk1 : Reassemble.Statement .unpk1 := fun _ => rfl

theorem Reassemble.unpk2 : Reassemble.Statement .unpk2 := fun _ => rfl

theorem Reassemble.unpk4 : Reassemble.Statement .unpk4 := fun _ => rfl

theorem Reassemble.unpk8 : Reassemble.Statement .unpk8 := fun _ => rfl

theorem Reassemble.unpk16 : Reassemble.Statement .unpk16 := fun _ => rfl

end Sys2Proof.Laws
end

