-- ==== Sys2Proof/Laws/Symbols.lean ====
section
/-! SUPPORT. Elements with a code in front: DECODE inside a code, a stream that ends inside an element, and what reads as what. -/

namespace Sys2Proof.Machine

open Sys2Proof

/-- DECODE behind bits that end strictly inside some code, bit by bit: it stands behind them with those bits as its code. -/
theorem walkCode_inside {T : List Nat} {maxl : Nat} (hT : overSubscribed T maxl = false) (bits : List Bool) (code clen : Nat)
    (hlen : clen + bits.length ≤ maxl) (hcode : code < 2 ^ clen) (rest : List Bool)
    (h : ∀ n, 0 < n → n ≤ bits.length → ∃ w, w ∈ codeWords T maxl ∧ clen + n < w.len ∧
      codeBits clen code ++ bits.take n = (codeBits w.len w.code).take (clen + n)) :
    ∃ c, c < 2 ^ (clen + bits.length) ∧ codeBits (clen + bits.length) c = codeBits clen code ++ bits ∧
      walkCode listReader (codeWords T maxl) (maxl - clen) code clen (bits ++ rest) =
        walkCode listReader (codeWords T maxl) (maxl - (clen + bits.length)) c (clen + bits.length) rest := by
  induction bits generalizing code clen with
  | nil => exact ⟨code, hcode, by simp, rfl⟩
  | cons b bits ih =>
    rw [List.length_cons] at hlen
    obtain ⟨w, hw, hlt, heq⟩ := h 1 (by decide) (by simp)
    have hb : code * 2 + b.toNat < 2 ^ (clen + 1) := by
      rw [Nat.pow_succ]
      have := Bool.toNat_lt b
      omega
    have hval : w.code / 2 ^ (w.len - (clen + 1)) = code * 2 + b.toNat := by
      simp only [List.take_succ_cons, List.take_zero] at heq
      rw [← codeBits_snoc, codeBits_take _ _ (by omega)] at heq
      refine (codeBits_inj hb ?_ heq).symm
      rw [Nat.div_lt_iff_lt_mul (Nat.pow_pos (by decide)), ← Nat.pow_add, show clen + 1 + (w.len - (clen + 1)) = w.len by omega]
      exact codeWord_lt hT hw
    have hnone : ((codeWords T maxl).find? fun v => v.len == clen + 1 && v.code == code * 2 + b.toNat) = none := by
      rw [find_code_none]
      rintro v hv ⟨h1, h2⟩
      have := code_head_unique hv hw (by omega) (by rw [h1, hval, h2])
      subst this
      omega
    obtain ⟨c, h1, h2, h3⟩ := ih (code * 2 + b.toNat) (clen + 1) (by omega) hb (fun n hn hle => by
      obtain ⟨u, hu, hlt', heq'⟩ := h (n + 1) (by omega) (by rw [List.length_cons]; omega)
      refine ⟨u, hu, by omega, ?_⟩
      rw [codeBits_snoc, List.append_assoc, show clen + 1 + n = clen + (n + 1) by omega, ← heq']
      simp)
    rw [List.length_cons, show clen + (bits.length + 1) = clen + 1 + bits.length by omega]
    refine ⟨c, h1, ?_, ?_⟩
    · rw [h2, codeBits_snoc]
      simp
    · rw [show maxl - clen = maxl - (clen + 1) + 1 by omega, List.cons_append, walkCode_cons, hnone]
      simp only
      rw [if_pos (any_longer.mpr ⟨w, hw, by omega, hval⟩), h3]

/-- A stream that ends inside a code is exhausted. -/
theorem decodeSymbol_cut {T : List Nat} {maxl : Nat} (hT : overSubscribed T maxl = false) {w : CodeWord}
    (hw : w ∈ codeWords T maxl) {n : Nat} (hn : n < w.len) :
    decodeSymbol listReader T maxl ((codeBits w.len w.code).take n) = .stop .exhausted [] := by
  have hl := ((mem_codeWords T maxl w).mp hw).2.1
  have hlen : ((codeBits w.len w.code).take n).length = n := by simp; omega
  obtain ⟨c, -, -, h⟩ := walkCode_inside hT ((codeBits w.len w.code).take n) 0 0 (by omega) (by decide) [] (fun m h1 h2 =>
    ⟨w, hw, by omega, by simp only [codeBits, List.nil_append, List.take_take, Nat.zero_add]; rw [Nat.min_eq_left (by omega)]⟩)
  rw [hlen, List.append_nil, Nat.sub_zero, Nat.zero_add, show maxl - n = maxl - n - 1 + 1 by omega] at h
  rw [decodeSymbol, h]
  rfl

/-- An element with a code: its code and its extra bits read as it, whatever follows. -/
theorem codedElement_got {T : List Nat} {maxl : Nat} (hT : overSubscribed T maxl = false) {extra : Nat → Nat}
    {form : Nat → Nat → Option Instr} {w : CodeWord} (hw : w ∈ codeWords T maxl) {e : Nat} (he : e < 2 ^ extra w.sym) {i : Instr}
    (hi : form w.sym e = some i) (rest : List Bool) :
    codedElement listReader T maxl extra form (codeBits w.len w.code ++ fieldBits (extra w.sym) e ++ rest) =
      .got { instr := i, walked := some w } rest := by
  rw [codedElement, List.append_assoc, decodeSymbol_codeWord hT hw, Got.andThen_got, readField_fieldBits_lt he, Got.andThen_got, hi]
  rfl

/-- An element with a code: a stream that ends inside its code or its extra bits is exhausted. -/
theorem codedElement_cut {T : List Nat} {maxl : Nat} (hT : overSubscribed T maxl = false) {extra : Nat → Nat}
    {form : Nat → Nat → Option Instr} {w : CodeWord} (hw : w ∈ codeWords T maxl) (e : Nat) {n : Nat}
    (hn : n < w.len + extra w.sym) :
    codedElement listReader T maxl extra form ((codeBits w.len w.code ++ fieldBits (extra w.sym) e).take n) =
      .stop .exhausted [] := by
  rw [List.take_append, codeBits_length]
  by_cases h : n < w.len
  · rw [show n - w.len = 0 by omega, List.take_zero, List.append_nil, codedElement, decodeSymbol_cut hT hw h]
    rfl
  · rw [List.take_of_length_le (by simp; omega), codedElement, decodeSymbol_codeWord hT hw, Got.andThen_got,
      readField_exhausted (by simp; omega)]
    rfl

/-- Both together, for the literal/length symbols of a table. -/
theorem readsAs_llSymbol {T : List Nat} (hT : overSubscribed T maxSym = false) {w : CodeWord} (hw : w ∈ codeWords T maxSym)
    {e : Nat} (he : e < 2 ^ lengthExtra w.sym) {i : Instr} (hi : llInstr w.sym e = some i) :
    ReadsAs (.llSymbol T) (codeBits w.len w.code ++ fieldBits (lengthExtra w.sym) e) i :=
  ⟨fun rest => ⟨some w, codedElement_got hT hw he hi rest⟩, fun n hn => codedElement_cut hT hw e (by simpa using hn)⟩

/-- Both together, for the distance symbols of a table. -/
theorem readsAs_distance {T : List Nat} (hT : overSubscribed T maxSym = false) {w : CodeWord} (hw : w ∈ codeWords T maxSym)
    {e : Nat} (he : e < 2 ^ distanceExtra w.sym) {i : Instr} (hi : distanceInstr w.sym e = some i) :
    ReadsAs (.distance T) (codeBits w.len w.code ++ fieldBits (distanceExtra w.sym) e) i :=
  ⟨fun rest => ⟨some w, codedElement_got hT hw he hi rest⟩, fun n hn => codedElement_cut hT hw e (by simpa using hn)⟩

/-- A symbol with a positive length has its code among those BUILD gives, and `symbolBits` writes it. -/
theorem symbolBits_eq {T : List Nat} {maxl s : Nat} (hT : ∀ l, l ∈ T → l ≤ maxl) (h : 0 < T.getD s 0) :
    ∃ w, w ∈ codeWords T maxl ∧ w.sym = s ∧ symbolBits T maxl s = codeBits w.len w.code := by
  have hs : ∃ l, T[s]? = some l ∧ 0 < l := by
    rw [List.getD_eq_getElem?_getD] at h
    cases h' : T[s]? with
    | none => simp [h'] at h
    | some l => exact ⟨l, rfl, by simpa [h'] using h⟩
  obtain ⟨l, hl, hp⟩ := hs
  have hw : ({ sym := s, len := l, code := nextCode T l + countLen l (T.take s) } : CodeWord) ∈ codeWords T maxl :=
    (mem_codeWords _ _ _).mpr ⟨hp, hT l (List.mem_of_getElem? hl), hl, rfl⟩
  rw [symbolBits]
  cases hf : (codeWords T maxl).find? fun w => w.sym == s with
  | none => exact absurd (List.find?_eq_none.mp hf _ hw) (by simp)
  | some v => exact ⟨v, List.mem_of_find?_eq_some hf, by simpa using List.find?_some hf, rfl⟩

end Sys2Proof.Machine
end

