-- ==== Sys2Proof/Tests/Slice0.lean ====
section
/-! SUPPORT. The model's own tests: WellFormed, decoding words written out from the encodings, one step per instruction against the
spec's worked examples, and a state that meets the hypotheses of each statement. -/

namespace Sys2Proof.Tests

open Sys2Proof Sys2Proof.Machine

set_option Elab.async false

/-! ### Helpers -/

/-- The next state of an outcome, if it is one. -/
def nextOf (o : Host.Outcome State Fault Refusal) : Option State :=
  match o with
  | .next t => some t
  | _ => none

/-- The fault of an outcome, if it is one. -/
def faultOf (o : Host.Outcome State Fault Refusal) : Option Fault :=
  match o with
  | .fault r => some r
  | _ => none

/-- The refusal of an outcome, if it is one. -/
def refusalOf (o : Host.Outcome State Fault Refusal) : Option Refusal :=
  match o with
  | .refused r => some r
  | _ => none

/-- A field of the next state of element `i`. -/
def after {α : Type} (i : Instr) (s : State) (f : State → α) : Option α := (nextOf (exec i s)).map f

/-- The element the decoder reads, with nothing left over. -/
def readAll (c : Context) (bits : List Bool) : Option Instr :=
  match decodeBits c bits with
  | .got d [] => some d.instr
  | _ => none

/-- Phase INFLATE at `p` with the stream `bytes`. -/
def inflating (p : Point) (bytes : List Byte) : State :=
  { State.reset with status := .inflate, point := p, inMem := memoryOf bytes 0, inLen := bytes.length }

/-- Phase INFLATE at a distance symbol, `bytes` produced and the length `l` pending. -/
def copying (bytes : List Byte) (l : BitVec 9) : State :=
  { State.reset with status := .inflate, point := .distance, out := memoryOf bytes 0, outLen := bytes.length, len := l }

/-- Phase SCAN at a scanline: `bytes` in OUT, the previous row `prior`, filter unit `fu`. -/
def scanning (fu : Nat) (prior bytes : List Byte) : State :=
  { State.reset with
    status := .scan, point := .scanline, mode := 1, out := memoryOf bytes 0, outLen := bytes.length
    rowbytes := prior.length, fu := fu, prior := prior }

/-- Phase SCAN at an UNPACK of the row `row`. -/
def unpacking (w : Nat) (depth : BitVec 5) (planes : BitVec 3) (row : List Byte) : State :=
  { State.reset with
    status := .scan, point := .unpack, mode := 1, width := w, bitdepth := depth, planes := planes
    rowbytes := row.length, fu := 1, cur := row }

/-- `s` with the capacities `o` of OUT and `p` of PIX. -/
def limited (o p : Nat) (s : State) : State := { s with cap := { Capacities.default with outCap := some o, pixCap := some p } }

/-- A state with one pending host move. -/
def pending (s : State) (a : HostAction) : State := { s with hostQueue := [a] }

/-! ### WellFormed -/

theorem test_wellformed_refuses_three_fields : (Instr.clclen [1, 2, 3]).wellFormed = false := by decide +kernel

theorem test_wellformed_refuses_twenty_fields : (Instr.clclen (List.replicate 20 1)).wellFormed = false := by decide +kernel

theorem test_wellformed_refuses_filter_four_as_invalid : (Instr.filtInv 4).wellFormed = false := by decide +kernel

theorem test_wellformed_accepts_bounds :
    (Instr.clclen [1, 2, 3, 4]).wellFormed = true ∧ (Instr.clclen (List.replicate 19 1)).wellFormed = true ∧
    (Instr.filtInv 5).wellFormed = true ∧ (Instr.filtInv 255).wellFormed = true := by decide +kernel

/-! ### Decoding words written out from the spec's encodings -/

/-- 30 R104, 42 R171 to R175. -/
theorem test_decode_block_headers :
    readAll .header (stream [1, 0, 0]) = some (.bhdrStored 1) ∧ readAll .header (stream [1, 1, 0]) = some (.bhdrFixed 1) ∧
    readAll .header (stream [0, 0, 1]) = some (.bhdrDyn 0) ∧ readAll .header (stream [1, 1, 1]) = some (.bhdrRsv 1) := by
  decide +kernel

/-- 42 R178: HLIT = 0, HDIST = 0, HCLEN = 14; and 30 R105 with HLIT = 1, HDIST = 2, HCLEN = 4. -/
theorem test_decode_dynamic_header :
    readAll .dynHeader (stream [0, 0, 0, 0, 0, 0, 0, 0, 0, 0, 0, 1, 1, 1]) = some (.dynhdr 0 0 14) ∧
    readAll .dynHeader (stream [1, 0, 0, 0, 0, 0, 1, 0, 0, 0, 0, 0, 1, 0]) = some (.dynhdr 1 2 4) := by decide +kernel

/-- 42 R179: the fields 2, 0, 1, 2. -/
theorem test_decode_code_length_fields :
    readAll (.clcLengths 4) (stream [0, 1, 0, 0, 0, 0, 1, 0, 0, 0, 1, 0]) = some (.clclen [2, 0, 1, 2]) := by decide +kernel

/-- 30 R107 with the code 0 `00`, 16 `01`, 17 `10`, 18 `11`. -/
theorem test_decode_code_length_symbols :
    let T := 2 :: List.replicate 15 0 ++ [2, 2, 2]
    readAll (.clSymbol T true) (stream [0, 0]) = some (.clLen 0) ∧
    readAll (.clSymbol T true) (stream [0, 1, 1, 1]) = some (.clRep 3) ∧
    readAll (.clSymbol T true) (stream [1, 0, 1, 1, 0]) = some (.clZ3 3) ∧
    readAll (.clSymbol T true) (stream [1, 1, 1, 0, 0, 0, 0, 0, 1]) = some (.clZ11 65) ∧
    readAll (.clSymbol T false) (stream [0, 1]) = some (.clRep 0) := by decide +kernel

/-- 30 R111, 41 R156, 43 R202, R203, R210, R211. -/
def literalWords : List (List Bool × Instr) :=
    List.append [(stream [0, 0, 1, 1, 0, 0, 0, 0], .lit 0), (stream [0, 1, 1, 1, 0, 0, 0, 1], .lit 0x41)] <|
    List.append [(stream [1, 0, 1, 1, 1, 1, 1, 1], .lit 143), (stream [1, 1, 0, 0, 1, 0, 0, 0, 0], .lit 144)] <|
    List.append [(stream [1, 1, 1, 1, 1, 1, 1, 1, 1], .lit 255), (stream [0, 0, 0, 0, 0, 0, 0], .eob)]
    [(stream [1, 1, 0, 0, 0, 1, 1, 0], .llrsv286), (stream [1, 1, 0, 0, 0, 1, 1, 1], .llrsv287)]

theorem test_decode_literals :
    ∀ p ∈ literalWords, readAll fixedSymbols p.1 = some p.2 := by decide +kernel

/-- 43 R220 to R248: the fixed code of each length symbol, its extra bits all 1. -/
def lengthWords : List (List Bool × Instr) :=
    List.append [(stream [0, 0, 0, 0, 0, 0, 1], .len257), (stream [0, 0, 0, 0, 0, 1, 0], .len258)] <|
    List.append [(stream [0, 0, 0, 0, 0, 1, 1], .len259), (stream [0, 0, 0, 0, 1, 0, 0], .len260)] <|
    List.append [(stream [0, 0, 0, 0, 1, 0, 1], .len261), (stream [0, 0, 0, 0, 1, 1, 0], .len262)] <|
    List.append [(stream [0, 0, 0, 0, 1, 1, 1], .len263), (stream [0, 0, 0, 1, 0, 0, 0], .len264)] <|
    List.append [(stream [0, 0, 0, 1, 0, 0, 1, 1], .len265 1), (stream [0, 0, 0, 1, 0, 1, 0, 1], .len266 1)] <|
    List.append [(stream [0, 0, 0, 1, 0, 1, 1, 1], .len267 1), (stream [0, 0, 0, 1, 1, 0, 0, 1], .len268 1)] <|
    List.append [(stream [0, 0, 0, 1, 1, 0, 1, 1, 1], .len269 3), (stream [0, 0, 0, 1, 1, 1, 0, 1, 1], .len270 3)] <|
    List.append [(stream [0, 0, 0, 1, 1, 1, 1, 1, 1], .len271 3), (stream [0, 0, 1, 0, 0, 0, 0, 1, 1], .len272 3)] <|
    List.append [(stream [0, 0, 1, 0, 0, 0, 1, 1, 1, 1], .len273 7), (stream [0, 0, 1, 0, 0, 1, 0, 1, 1, 1], .len274 7)] <|
    List.append [(stream [0, 0, 1, 0, 0, 1, 1, 1, 1, 1], .len275 7), (stream [0, 0, 1, 0, 1, 0, 0, 1, 1, 1], .len276 7)] <|
    List.append [(stream [0, 0, 1, 0, 1, 0, 1, 1, 1, 1, 1], .len277 15), (stream [0, 0, 1, 0, 1, 1, 0, 1, 1, 1, 1], .len278 15)] <|
    List.append [(stream [0, 0, 1, 0, 1, 1, 1, 1, 1, 1, 1], .len279 15), (stream [1, 1, 0, 0, 0, 0, 0, 0, 1, 1, 1, 1], .len280 15)] <|
    List.append [(stream [1, 1, 0, 0, 0, 0, 0, 1, 1, 1, 1, 1, 1], .len281 31), (stream [1, 1, 0, 0, 0, 0, 1, 0, 1, 1, 1, 1, 1], .len282 31)] <|
    List.append [(stream [1, 1, 0, 0, 0, 0, 1, 1, 1, 1, 1, 1, 1], .len283 31), (stream [1, 1, 0, 0, 0, 1, 0, 0, 1, 1, 1, 1, 1], .len284 31)] <|
    [(stream [1, 1, 0, 0, 0, 1, 0, 1], .len285)]

theorem test_decode_lengths :
    ∀ p ∈ lengthWords, readAll fixedSymbols p.1 = some p.2 := by decide +kernel

/-- 43 R250 to R279: the fixed code of each distance symbol, its extra bits all 1. -/
def distanceWords : List (List Bool × Instr) :=
    List.append [(stream [0, 0, 0, 0, 0], .dist0), (stream [0, 0, 0, 0, 1], .dist1)] <|
    List.append [(stream [0, 0, 0, 1, 0], .dist2), (stream [0, 0, 0, 1, 1], .dist3)] <|
    List.append [(stream [0, 0, 1, 0, 0, 1], .dist4 1), (stream [0, 0, 1, 0, 1, 1], .dist5 1)] <|
    List.append [(stream [0, 0, 1, 1, 0, 1, 1], .dist6 3), (stream [0, 0, 1, 1, 1, 1, 1], .dist7 3)] <|
    List.append [(stream [0, 1, 0, 0, 0, 1, 1, 1], .dist8 7), (stream [0, 1, 0, 0, 1, 1, 1, 1], .dist9 7)] <|
    List.append [(stream [0, 1, 0, 1, 0, 1, 1, 1, 1], .dist10 15), (stream [0, 1, 0, 1, 1, 1, 1, 1, 1], .dist11 15)] <|
    List.append [(stream [0, 1, 1, 0, 0, 1, 1, 1, 1, 1], .dist12 31), (stream [0, 1, 1, 0, 1, 1, 1, 1, 1, 1], .dist13 31)] <|
    List.append [(stream [0, 1, 1, 1, 0, 1, 1, 1, 1, 1, 1], .dist14 63), (stream [0, 1, 1, 1, 1, 1, 1, 1, 1, 1, 1], .dist15 63)] <|
    List.append [(stream [1, 0, 0, 0, 0, 1, 1, 1, 1, 1, 1, 1], .dist16 127), (stream [1, 0, 0, 0, 1, 1, 1, 1, 1, 1, 1, 1], .dist17 127)] <|
    List.append [(stream [1, 0, 0, 1, 0, 1, 1, 1, 1, 1, 1, 1, 1], .dist18 255), (stream [1, 0, 0, 1, 1, 1, 1, 1, 1, 1, 1, 1, 1], .dist19 255)] <|
    List.append [(stream [1, 0, 1, 0, 0, 1, 1, 1, 1, 1, 1, 1, 1, 1], .dist20 511), (stream [1, 0, 1, 0, 1, 1, 1, 1, 1, 1, 1, 1, 1, 1], .dist21 511)] <|
    List.append [(stream [1, 0, 1, 1, 0, 1, 1, 1, 1, 1, 1, 1, 1, 1, 1], .dist22 1023), (stream [1, 0, 1, 1, 1, 1, 1, 1, 1, 1, 1, 1, 1, 1, 1], .dist23 1023)] <|
    List.append [(stream [1, 1, 0, 0, 0, 1, 1, 1, 1, 1, 1, 1, 1, 1, 1, 1], .dist24 2047), (stream [1, 1, 0, 0, 1, 1, 1, 1, 1, 1, 1, 1, 1, 1, 1, 1], .dist25 2047)] <|
    List.append [(stream [1, 1, 0, 1, 0, 1, 1, 1, 1, 1, 1, 1, 1, 1, 1, 1, 1], .dist26 4095), (stream [1, 1, 0, 1, 1, 1, 1, 1, 1, 1, 1, 1, 1, 1, 1, 1, 1], .dist27 4095)] <|
    [(stream [1, 1, 1, 0, 0, 1, 1, 1, 1, 1, 1, 1, 1, 1, 1, 1, 1, 1], .dist28 8191), (stream [1, 1, 1, 0, 1, 1, 1, 1, 1, 1, 1, 1, 1, 1, 1, 1, 1, 1], .dist29 8191)]

theorem test_decode_distances :
    ∀ p ∈ distanceWords, readAll fixedDistances p.1 = some p.2 := by decide +kernel

/-- 43 R280, R281: in a table of 32 codes of 5 bits the codes of 30 and 31 are `11110` and `11111`. -/
theorem test_decode_reserved_distances :
    readAll (.distance (List.replicate 32 5)) (stream [1, 1, 1, 1, 0]) = some .drsv30 ∧
    readAll (.distance (List.replicate 32 5)) (stream [1, 1, 1, 1, 1]) = some .drsv31 := by decide +kernel

/-- 30 R112: the byte FT, least significant bit first. -/
theorem test_decode_scanlines :
    readAll .scanline (stream [0, 0, 0, 0, 0, 0, 0, 0]) = some .filtNone ∧
    readAll .scanline (stream [1, 0, 0, 0, 0, 0, 0, 0]) = some .filtSub ∧
    readAll .scanline (stream [0, 1, 0, 0, 0, 0, 0, 0]) = some .filtUp ∧
    readAll .scanline (stream [1, 1, 0, 0, 0, 0, 0, 0]) = some .filtAvg ∧
    readAll .scanline (stream [0, 0, 1, 0, 0, 0, 0, 0]) = some .filtPaeth ∧
    readAll .scanline (stream [1, 0, 1, 0, 0, 0, 0, 0]) = some (.filtInv 5) ∧
    readAll .scanline (stream [1, 1, 1, 1, 1, 1, 1, 1]) = some (.filtInv 255) := by decide +kernel

/-- 45 R320: the register BITDEPTH. -/
theorem test_decode_unpacks :
    readAll .unpack (stream [1, 0, 0, 0, 0]) = some .unpk1 ∧ readAll .unpack (stream [0, 1, 0, 0, 0]) = some .unpk2 ∧
    readAll .unpack (stream [0, 0, 1, 0, 0]) = some .unpk4 ∧ readAll .unpack (stream [0, 0, 0, 1, 0]) = some .unpk8 ∧
    readAll .unpack (stream [0, 0, 0, 0, 1]) = some .unpk16 ∧ readAll .unpack (stream [1, 1, 0, 0, 0]) = none := by decide +kernel

/-- 41 R157: `1111` in the fixed distance code, the single code `0` on the bit 1, and no code at all. -/
theorem test_decode_absent_children :
    decodeBits fixedDistances (stream [1, 1, 1, 1, 0]) = .stop .malformed [false] ∧
    decodeBits fixedDistances (stream [1, 1, 1]) = .stop .exhausted [] ∧
    decodeBits (.distance [1]) (stream [1, 0]) = .stop .malformed [false] ∧
    decodeBits (.distance [0, 0]) (stream [0, 0]) = .stop .malformed [false] := by decide +kernel

/-- 30 R131: length 258 is symbol 285, never (284, 31). -/
theorem test_match_expansion :
    sasmMatch 258 32768 = some (.len285, .dist29 8191) ∧ sasmMatch 257 5 = some (.len284 30, .dist4 0) ∧
    sasmMatch 3 1 = some (.len257, .dist0) := by decide +kernel

/-! ### The bit reader (40 R141, R142) -/

/-- IN = 80 01 at BITPOS = 7: READBITS(2) returns 3. -/
theorem test_readbits_crosses_a_byte :
    (match readBits 2 { inflating .header [0x80, 0x01] with pos := 1, la := 0x80, bitoff := 7 } with
    | .got v t => decide (v = 3 ∧ t.pos = 2 ∧ t.bitoff = 1)
    | .stop _ _ => false) = true := by decide +kernel

/-- IN = 63: eight bits 1, 1, 0, 0, 0, 1, 1, 0, and a ninth is exhausted. -/
theorem test_readbits_end_of_input :
    (match readBits 8 (inflating .header [0x63]) with
    | .got v t => decide (v = 0x63 ∧ stopOf (readBit t) = some .exhausted)
    | .stop _ _ => false) = true := by decide +kernel

/-! ### One step per instruction -/

/-- 42 R172, R175. -/
theorem test_rejected_block_types :
    after (.bhdrStored 1) State.reset (fun t => (t.status, t.err)) = some (.fault, .invalidBlockType) ∧
    after (.bhdrRsv 0) State.reset (fun t => (t.status, t.err)) = some (.fault, .invalidBlockType) := by decide +kernel

/-- 42 R173, R174. -/
theorem test_block_types :
    after (.bhdrFixed 1) State.reset (fun t => (t.bfinal, t.btype, t.point, t.lllen[144]?, t.dlen[30]?)) =
      some (1, 1, .symbols, some 9, some 0) ∧
    after (.bhdrDyn 0) State.reset (fun t => (t.bfinal, t.btype, t.point)) = some (0, 2, .dynHeader) := by decide +kernel

/-- 42 R178: the example, and the largest counts. -/
theorem test_dynhdr :
    after (.dynhdr 0 0 14) State.reset (fun t => (t.nlit, t.ndist, t.ncl)) = some (257, 1, 18) ∧
    after (.dynhdr 31 31 15) State.reset (fun t => (t.nlit, t.ndist, t.ncl)) = some (288, 32, 19) := by decide +kernel

/-- 42 R179, R180: CLLEN[16] = 2, [17] = 0, [18] = 1, [0] = 2; and the over-subscribed 1, 1, 1, 0. -/
theorem test_clclen :
    after (.clclen [2, 0, 1, 2]) State.reset (fun t => (t.cllen, t.point)) =
      some (2 :: List.replicate 15 0 ++ [2, 0, 1], .codeLengths) ∧
    after (.clclen [1, 1, 1, 0]) State.reset (fun t => (t.status, t.err)) = some (.fault, .malformedBitstream) := by
  decide +kernel

/-- A code-length list of 258 entries, filled up to `k`, with previous length `v`. -/
def listing (k : Nat) (v : Option (BitVec 4)) : State :=
  { inflating .codeLengths [] with nlit := 257, ndist := 1, lidx := k, prevlen := v }

/-- 42 R182: at LIDX = 65, CL.LEN 8. -/
theorem test_cl_len :
    after (.clLen 8) (listing 65 none) (fun t => (t.lens[65]?, t.lidx, t.prevlen)) = some (some 8, 66, some 8) := by
  decide +kernel

/-- 42 R183: after CL.LEN 8, CL.REP 6 appends six 8; without a previous length it faults. -/
theorem test_cl_rep :
    after (.clRep 3) (listing 66 (some 8)) (fun t => (t.lens[66]?, t.lens[71]?, t.lens[72]?, t.lidx)) =
      some (some 8, some 8, some 0, 72) ∧
    after (.clRep 3) (listing 0 none) (fun t => t.err) = some .malformedBitstream := by decide +kernel

/-- 42 R184: CL.Z3 10 appends ten zeros; it may end exactly at the end of the list. -/
theorem test_cl_z3 :
    after (.clZ3 7) (listing 248 (some 8)) (fun t => (t.lidx, t.prevlen, t.status)) = some (258, some 0, .inflate) ∧
    after (.clZ3 7) (listing 249 (some 8)) (fun t => t.err) = some .malformedBitstream := by decide +kernel

/-- 42 R186: NLIT + NDIST = 258, LIDX = 250, CL.Z11 11 faults; 42 R185. -/
theorem test_cl_z11 :
    after (.clZ11 0) (listing 250 (some 8)) (fun t => t.err) = some .malformedBitstream ∧
    after (.clZ11 127) (listing 120 (some 8)) (fun t => (t.lidx, t.prevlen)) = some (258, some 0) := by decide +kernel

/-- 43 R202, R349. -/
theorem test_lit :
    after (.lit 0x41) (copying [1] 3) (fun t => (t.out, t.outLen)) = some ([(0, 1), (1, 0x41)], 2) ∧
    after (.lit 0x41) { copying [1] 3 with cap := { Capacities.default with outCap := some 1 } } (fun t => t.err) =
      some .capacityExceeded := by decide +kernel

/-- 43 R203, 44 R290: 3 pixels of 1 bit are one byte per row, filter unit 1. -/
theorem test_eob :
    after .eob { inflating .symbols [] with bfinal := 0 } (fun t => (t.status, t.point)) = some (.inflate, .header) ∧
    after .eob { inflating .symbols [] with bfinal := 1, mode := 1, width := 3, bitdepth := 1, planes := 1 }
      (fun t => (t.status, t.rowbytes, t.fu, t.prior)) = some (.scan, 1, 1, [0]) := by decide +kernel

/-- 43 R220 to R248: every length symbol with its largest extra value. -/
def lengthCases : List (Instr × Nat) :=
    List.append [(.len257, 3), (.len258, 4), (.len259, 5), (.len260, 6), (.len261, 7), (.len262, 8)] <|
    List.append [(.len263, 9), (.len264, 10), (.len265 1, 12), (.len266 1, 14), (.len267 1, 16), (.len268 1, 18)] <|
    List.append [(.len269 3, 22), (.len270 3, 26), (.len271 3, 30), (.len272 3, 34), (.len273 7, 42), (.len274 7, 50)] <|
    List.append [(.len275 7, 58), (.len276 7, 66), (.len277 15, 82), (.len278 15, 98), (.len279 15, 114), (.len280 15, 130)] <|
    [(.len281 31, 162), (.len282 31, 194), (.len283 31, 226), (.len284 31, 258), (.len285, 258)]

theorem test_lengths :
    ∀ p ∈ lengthCases, after p.1 State.reset (fun t => (t.len.toNat, t.point)) = some (p.2, .distance) := by decide +kernel

/-- 43 R210, R211, R280, R281. -/
theorem test_reserved_symbols :
    ∀ i ∈ [Instr.llrsv286, .llrsv287, .drsv30, .drsv31],
      after i State.reset (fun t => (t.status, t.err)) = some (.fault, .malformedBitstream) := by decide +kernel

/-- 43 R250 to R279: every distance symbol with its largest extra value sets DIST (and is too far for an empty OUT). -/
def distanceCases : List (Instr × Nat) :=
    List.append [(.dist0, 1), (.dist1, 2), (.dist2, 3), (.dist3, 4), (.dist4 1, 6)] <|
    List.append [(.dist5 1, 8), (.dist6 3, 12), (.dist7 3, 16), (.dist8 7, 24), (.dist9 7, 32)] <|
    List.append [(.dist10 15, 48), (.dist11 15, 64), (.dist12 31, 96), (.dist13 31, 128), (.dist14 63, 192)] <|
    List.append [(.dist15 63, 256), (.dist16 127, 384), (.dist17 127, 512), (.dist18 255, 768), (.dist19 255, 1024)] <|
    List.append [(.dist20 511, 1536), (.dist21 511, 2048), (.dist22 1023, 3072), (.dist23 1023, 4096), (.dist24 2047, 6144)] <|
    [(.dist25 2047, 8192), (.dist26 4095, 12288), (.dist27 4095, 16384), (.dist28 8191, 24576), (.dist29 8191, 32768)]

theorem test_distances :
    ∀ p ∈ distanceCases, after p.1 State.reset (fun t => (t.dist.toNat, t.err)) = some (p.2, .malformedBitstream) := by decide +kernel

/-- 43 R287: OUT = 61 62, LEN = 5, DIST = 2 gives 61 62 61 62 61 62 61; and length 5, distance 1 after 41. -/
theorem test_overlapping_copies :
    after .dist1 (copying [0x61, 0x62] 5) (fun t => t.out.map Prod.snd) =
      some [0x61, 0x62, 0x61, 0x62, 0x61, 0x62, 0x61] ∧
    after .dist0 (copying [0x41] 5) (fun t => t.out.map Prod.snd) = some (List.replicate 6 0x41) := by decide +kernel

/-- 44 R293: row 00 : 0A FF. -/
theorem test_filt_none : after .filtNone (scanning 1 [1, 2] [0, 0x0A, 0xFF]) (fun t => t.cur) = some [0x0A, 0xFF] := by decide +kernel

/-- 44 R294: row 01 : 01 01 01; and the wrap-around FF + 02. -/
theorem test_filt_sub :
    after .filtSub (scanning 1 [0, 0, 0] [1, 1, 1, 1]) (fun t => t.cur) = some [1, 2, 3] ∧
    after .filtSub (scanning 1 [0, 0] [1, 2, 0xFF]) (fun t => t.cur) = some [2, 1] := by decide +kernel

/-- 44 R295: PRIOR = 0A 14, row 02 : 01 FF. -/
theorem test_filt_up : after .filtUp (scanning 1 [0x0A, 0x14] [2, 1, 0xFF]) (fun t => t.cur) = some [0x0B, 0x13] := by decide +kernel

/-- 44 R296: PRIOR = 0A 14, row 03 : 05 05; and a = b = 255. -/
theorem test_filt_avg :
    after .filtAvg (scanning 1 [0x0A, 0x14] [3, 5, 5]) (fun t => t.cur) = some [0x0A, 0x14] ∧ average 255 255 = 255 := by
  decide +kernel

/-- 44 R297: a = 10, b = 20, c = 5 gives b; a = b = c = 100 gives a; and one row at the left edge. -/
theorem test_filt_paeth :
    paeth 10 20 5 = 20 ∧ paeth 100 100 100 = 100 ∧
    after .filtPaeth (scanning 1 [5, 20] [4, 5, 0]) (fun t => t.cur) = some [10, 20] := by decide +kernel

/-- 44 R298. -/
theorem test_filt_inv : after (.filtInv 5) State.reset (fun t => (t.status, t.err)) = some (.fault, .invalidFilterType) := by decide +kernel

/-- 45 R321: FF 80 00 emits 255, 128, 0. -/
theorem test_unpk8 :
    after .unpk8 (unpacking 1 8 3 [0xFF, 0x80, 0]) (fun t => (t.pix.map Prod.snd, t.rows, t.rptr, t.prior)) =
      some ([255, 128, 0], 1, 4, [0xFF, 0x80, 0]) := by decide +kernel

/-- 45 R322: 01 02 FF FE emits 258, 65534. -/
theorem test_unpk16 :
    after .unpk16 (unpacking 2 16 1 [1, 2, 0xFF, 0xFE]) (fun t => t.pix.map Prod.snd) = some [258, 65534] := by decide +kernel

/-- 45 R323: WIDTH = 10, A5 C0. -/
theorem test_unpk1 :
    after .unpk1 (unpacking 10 1 1 [0xA5, 0xC0]) (fun t => t.pix.map Prod.snd) = some [1, 0, 1, 0, 0, 1, 0, 1, 1, 1] := by
  decide +kernel

/-- 45 R324: WIDTH = 3, 1B. -/
theorem test_unpk2 : after .unpk2 (unpacking 3 2 1 [0x1B]) (fun t => t.pix.map Prod.snd) = some [0, 1, 2] := by decide +kernel

/-- 45 R325: WIDTH = 3, AB C0. -/
theorem test_unpk4 : after .unpk4 (unpacking 3 4 1 [0xAB, 0xC0]) (fun t => t.pix.map Prod.snd) = some [10, 11, 12] := by decide +kernel

/-! ### Table words -/

/-- The word of a table row is fetched and run as the first instruction. -/
theorem test_fetch_word :
    ((nextOf (step (State.reset.withFetchWord 8 0x02))).map fun t => (t.btype, t.point)) = some (1, .symbols) ∧
    ((nextOf (step (State.reset.withFetchWord 16 0x101))).map fun t => (t.sym, t.len, t.point)) = some (257, 3, .distance) := by
  decide +kernel

/-! ### A state for the hypotheses of each statement

The name says which statement of Certificates/Slice0/Obligations.lean a theorem is for. -/

/-- The cells of a memory made of a list are 0 to its length - 1. -/
theorem memoryOf_addresses {α : Type} (xs : List α) (a : Nat) : (memoryOf xs a).map Prod.fst = List.range' a xs.length := by
  induction xs generalizing a with
  | nil => rfl
  | cons x xs ih => simp [memoryOf, ih, List.range'_succ]

theorem cells_memoryOf {α : Type} (xs : List α) : cellsBelow xs.length (memoryOf xs 0) := by
  rw [cellsBelow, memoryOf_addresses, List.range_eq_range']

/-- Every distance from 1 on is one a copy can run at: the state that has produced exactly that many bytes. -/
theorem copyable (d : Nat) (h : 1 ≤ d) (l : BitVec 9) : Copyable d (copying (List.replicate d 0) l) :=
  { one := h
    reach := by simp [copying]
    cells := cells_memoryOf _
    room := rfl }

theorem test_hyp_DecodeOfEncodingIsTheElement :
    (validContext (.llSymbol [1, 1]) ∧ fits (.llSymbol [1, 1]) (.lit 1) = true) ∧
    (validContext (.distance (List.replicate 32 5)) ∧ fits (.distance (List.replicate 32 5)) (.dist29 8191) = true) ∧
    (validContext (.clSymbol (List.replicate 19 5) false) ∧ fits (.clSymbol (List.replicate 19 5) false) (.clRep 0) = true) ∧
    fits (.clSymbol (List.replicate 19 5) true) (.clRep 3) = true ∧ fits (.clcLengths 4) (.clclen [0, 7, 1, 2]) = true ∧
    fits .scanline (.filtInv 5) = true ∧ fits .unpack .unpk16 = true ∧ fits .header (.bhdrRsv 1) = true ∧
    fits .dynHeader (.dynhdr 31 31 15) = true := by
  simp only [validContext, validTable]
  decide +kernel

theorem test_hyp_DecodedBitsAreTheEncoding :
    readAll (.clcLengths 4) (List.replicate 12 true) = some (.clclen [7, 7, 7, 7]) ∧
    readAll (.clcLengths 19) (List.replicate 57 false) = some (.clclen (List.replicate 19 0)) ∧
    readAll .header [true, true, true] = some (.bhdrRsv 1) := by decide +kernel

theorem test_hyp_PackedBitsAreStreamBits : 0 < 8 * (packBits [true]).length ∧ (packBits [true])[7 / 8]? = some 1 := by decide

theorem test_hyp_FixedBlockCodes : 143 < 288 ∧ 287 < 288 ∧ 29 < 32 ∧ 31 < 32 := by decide

theorem test_hyp_PrefixFreeCodes :
    validTable [3, 3, 3, 3, 3, 2, 4, 4] 15 ∧ validTable [0, 0] 7 ∧ validTable [15] 15 ∧
    { sym := 0, len := 15, code := 0 } ∈ codeWords [15] 15 := by
  simp only [validTable]
  decide +kernel

theorem test_hyp_BuildLoopAssignsTheCodes : (∀ l, l ∈ [3, 3, 3, 3, 3, 2, 4, 4] → l ≤ 15) ∧ ∀ l, l ∈ [1, 1, 1] → l ≤ 1 := by
  decide

/-- The table with the codes `0`, `10`, `11`: `1` is a proper prefix, `10` a code; in the table with the one code `10`, `11`
leads to an absent child. -/
theorem test_hyp_AbsentChildStopsDecode :
    validTable [1, 2, 2] 15 ∧ validTable [0, 2, 0, 2, 2] 15 ∧
    (∀ n, 0 < n → n ≤ [true].length → ∃ w, w ∈ codeWords [1, 2, 2] 15 ∧ n < w.len ∧
      [true].take n = (codeBits w.len w.code).take n) ∧
    (∃ w, w ∈ codeWords [1, 2, 2] 15 ∧ [true] ++ [false] = codeBits w.len w.code) ∧
    (∀ n, 0 < n → n ≤ [true].length → ∃ w, w ∈ codeWords [0, 2, 0, 2, 2] 15 ∧ n < w.len ∧
      [true].take n = (codeBits w.len w.code).take n) ∧
    ∀ w, w ∈ codeWords [0, 2, 0, 2, 2] 15 → ¬[true] ++ [true] <+: codeBits w.len w.code := by
  refine ⟨by simp only [validTable]; decide +kernel, by simp only [validTable]; decide +kernel, ?_, ?_, ?_, by decide +kernel⟩
  · intro n h1 h2
    have : n = 1 := by simp at h2; omega
    subst this
    exact ⟨{ sym := 1, len := 2, code := 2 }, by decide +kernel, by decide, by decide⟩
  · exact ⟨{ sym := 1, len := 2, code := 2 }, by decide +kernel, by decide⟩
  · intro n h1 h2
    have : n = 1 := by simp at h2; omega
    subst this
    exact ⟨{ sym := 4, len := 2, code := 2 }, by decide +kernel, by decide, by decide⟩

/-- A cursor before its first load, one inside a byte, one behind the last bit. -/
theorem test_hyp_ReadBitReturnsTheNextStreamBit :
    CursorOk (inflating .header []) ∧ bitpos (inflating .header []) = 8 * (inflating .header []).inLen ∧
    CursorOk (inflating .header [0x63]) ∧ bitpos (inflating .header [0x63]) < 8 ∧
    (memRead (inflating .header [0x63]).inMem 0).isSome = true ∧
    CursorOk { inflating .header [0x63] with pos := 1, la := 0x63, bitoff := 7 } ∧
    bitpos { inflating .header [0x63] with pos := 1, la := 0x63, bitoff := 7 } = 7 := by
  refine ⟨⟨?_, ?_, ?_, ?_⟩, ?_, ⟨?_, ?_, ?_, ?_⟩, ?_, ?_, ⟨?_, ?_, ?_, ?_⟩, ?_⟩ <;> decide

/-- All the bytes of `inflating` are written. -/
theorem inflating_written (p : Point) (bytes : List Byte) : InputWritten (inflating p bytes) :=
  fun a ha => (cellsBelow_isSome (cells_memoryOf bytes) a).mpr ha

theorem test_hyp_ReadBitsIsTheSumOfItsBits :
    InputWritten (inflating .header [0x63]) ∧ bitpos (inflating .header [0x63]) + 8 ≤ 8 * (inflating .header [0x63]).inLen ∧
    8 * (inflating .header [0x63]).inLen < bitpos (inflating .header [0x63]) + 9 :=
  ⟨inflating_written _ _, by decide, by decide⟩

theorem test_hyp_FetchReadsTheUnreadStream :
    InputWritten (inflating .header [0x63]) ∧
    (match decodeBits .header (unreadBits (inflating .header [0x63])) with
      | .got d rest => decide (d.instr = .bhdrFixed 1 ∧ rest.length = 5)
      | .stop _ _ => false) = true ∧
    decodeBits .header (unreadBits (inflating .header [])) = .stop .exhausted [] :=
  ⟨inflating_written _ _, by decide, by decide⟩

/-- BFINAL = 0; BFINAL = 1 without and with SCAN_EN. -/
theorem test_hyp_EndOfBlockTestsFinal :
    State.reset.bfinal = 0 ∧ ({ State.reset with bfinal := 1 } : State).mode = 0 ∧
    ({ State.reset with bfinal := 1, mode := 1 } : State).mode = 1 := by decide

/-- Four and nineteen fields; a table BUILD accepts and one it does not. -/
theorem test_hyp_CodeLengthFieldsFillTheirTable :
    4 ≤ [2, 0, 1, (2 : BitVec 3)].length ∧ (List.replicate 19 (5 : BitVec 3)).length ≤ 19 ∧
    overSubscribed (lengthsOf (List.replicate 19 (5 : BitVec 3))) 7 = false ∧
    overSubscribed (lengthsOf (List.replicate 19 (1 : BitVec 3))) 7 = true := by decide +kernel

/-- No previous length; a run that ends exactly at the end of the list; a run one past it. -/
theorem test_hyp_RepeatCopiesThePreviousLength :
    (listing 0 none).prevlen = none ∧
    ((listing 255 (some 8)).prevlen = some 8 ∧ (listing 255 (some 8)).lidx + (3 + (0 : BitVec 2).toNat) ≤ 257 + 1) ∧
    ((listing 256 (some 8)).prevlen = some 8 ∧ 257 + 1 < (listing 256 (some 8)).lidx + (3 + (0 : BitVec 2).toNat)) ∧
    decodeSymbol listReader (2 :: List.replicate 15 0 ++ [2, 2, 2]) maxCl (stream [0, 1, 1, 0]) =
      .got { sym := 16, len := 2, code := 1 } (fieldBits 2 (1 : BitVec 2).toNat ++ []) := by decide +kernel

/-- CL.Z3 and CL.Z11 exactly at the end of the list and one past it. -/
theorem test_hyp_ZeroRunsAppendZeros :
    (listing 255 none).lidx + (3 + (0 : BitVec 3).toNat) ≤ 258 ∧ 258 < (listing 256 none).lidx + (3 + (0 : BitVec 3).toNat) ∧
    (listing 120 none).lidx + (11 + (127 : BitVec 7).toNat) ≤ 258 ∧ 258 < (listing 121 none).lidx + (11 + (127 : BitVec 7).toNat) ∧
    (decodeSymbol listReader (2 :: List.replicate 15 0 ++ [2, 2, 2]) maxCl (stream [1, 0, 1, 1, 1]) =
      .got { sym := 17, len := 2, code := 2 } (fieldBits 3 (7 : BitVec 3).toNat ++ [])) ∧
    decodeSymbol listReader (2 :: List.replicate 15 0 ++ [2, 2, 2]) maxCl (stream [1, 1, 1, 1, 1, 1, 1, 1, 1]) =
      .got { sym := 18, len := 2, code := 3 } (fieldBits 7 (127 : BitVec 7).toNat ++ []) := by decide +kernel

/-- A complete list of zeros, which BUILD accepts, and one of ones, which it does not. -/
theorem test_hyp_ListEndSplitsTheTables :
    ((listing 258 none).status = .inflate ∧ (listing 258 none).point = .codeLengths ∧ (listing 258 none).lens.length = 320 ∧
      (listing 258 none).lidx = (listing 258 none).nlit.toNat + (listing 258 none).ndist.toNat) ∧
    overSubscribed (lengthsOf (List.replicate 288 (0 : BitVec 4))) 15 = false ∧
    overSubscribed (lengthsOf (List.replicate 288 (1 : BitVec 4))) 15 = true := by decide +kernel

theorem test_hyp_LiteralAppendsItsByte :
    State.reset.cap.outCap ≠ some State.reset.outLen ∧
    ({ State.reset with cap := { Capacities.default with outCap := some 0 } } : State).cap.outCap = some 0 := by decide

/-- The smallest and the largest distance of each of the three statements. -/
theorem test_hyp_Copies :
    Copyable 1 (copying (List.replicate 1 0) 258) ∧ Copyable (25 + (7 : BitVec 3).toNat) (copying (List.replicate 32 0) 3) ∧
    Copyable 33 (copying (List.replicate 33 0) 3) ∧ Copyable (769 + (255 : BitVec 8).toNat) (copying (List.replicate 1024 0) 3) ∧
    Copyable 1025 (copying (List.replicate 1025 0) 3) ∧
    Copyable (24577 + (8191 : BitVec 13).toNat) (copying (List.replicate 32768 0) 3) :=
  ⟨copyable 1 (by decide) _, copyable 32 (by decide) _, copyable 33 (by decide) _, copyable 1024 (by decide) _,
    copyable 1025 (by decide) _, copyable 32768 (by decide) _⟩

/-- One byte too far; nothing produced; DIST = OUT_LEN. -/
theorem test_hyp_DistanceTooFarFaults :
    (distanceOf .dist1 = some 2 ∧ (copying [0x41] 3).outLen < 2) ∧ State.reset.outLen = 0 ∧
    Copyable 2 (copying (List.replicate 2 0) 3) ∧ (copying (List.replicate 2 0) 3).outLen = 2 ∧
    1 ≤ (copying (List.replicate 2 0) 3).len.toNat :=
  ⟨by decide, by decide, copyable 2 (by decide) _, by decide, by decide⟩

theorem test_hyp_OverlapRepeatsThePattern :
    distanceOf (.dist29 8191) = some 32768 ∧ Copyable 32768 (copying (List.replicate 32768 0) 258) ∧
    (copying [0x41] 5).len = 5 ∧ (copying [0x41] 5).outLen = 1 ∧ (copying [0x41] 5).out = [(0, 0x41)] ∧
    (copying [0x41] 5).cap.outCap = none :=
  ⟨by decide, copyable 32768 (by decide) _, by decide, by decide, by decide, by decide⟩

theorem test_hyp_CopyNeverReadsAnUnwrittenCell :
    1 ≤ ({ copying [0x41] 3 with dist := 1 } : State).dist.toNat ∧
    ({ copying [0x41] 3 with dist := 1 } : State).dist.toNat ≤ (copying [0x41] 3).outLen ∧
    cellsBelow (copying [0x41] 3).outLen (copying [0x41] 3).out := ⟨by decide, by decide, cells_memoryOf _⟩

theorem test_hyp_ReservedSymbolsFault :
    decodeSymbol listReader (List.replicate 32 5) maxSym (stream [1, 1, 1, 1, 0]) = .got { sym := 30, len := 5, code := 30 } [] ∧
    decodeSymbol listReader (List.replicate 32 5) maxSym (stream [1, 1, 1, 1, 1]) = .got { sym := 31, len := 5, code := 31 } [] := by
  decide +kernel

theorem test_hyp_CapacityExceededBeforeTheWrite :
    ({ State.reset with cap := { Capacities.default with outCap := some 0, pixCap := some 0 } } : State).cap.outCap =
      some State.reset.outLen ∧
    ({ State.reset with cap := { Capacities.default with outCap := some 0, pixCap := some 0 } } : State).cap.pixCap =
      some State.reset.pixLen ∧
    State.reset.cap.outCap = none ∧ State.reset.cap.pixCap = none ∧ State.reset.err ≠ .capacityExceeded ∧
    (nextOf (engineMove State.reset)).isSome = true := by decide

/-- A copy one byte too long, from a full OUT and into the last free byte; a row one sample too long at each depth. -/
theorem test_hyp_CapacityExceededByAnElement :
    (distanceOf .dist0 = some 1 ∧ (copying [7] 3).outLen = 1 ∧ (copying [7] 3).len.toNat = 3 ∧
      cellsBelow (copying [7] 3).outLen (copying [7] 3).out ∧
      after .dist0 (limited 1 0 (copying [7] 3)) (fun t => (t.status, t.err)) = some (.fault, .capacityExceeded) ∧
      after .dist0 (limited 3 0 (copying [7] 3)) (fun t => (t.status, t.err)) = some (.fault, .capacityExceeded) ∧
      after .dist0 (limited 4 0 (copying [7] 3)) (fun t => (t.status, t.outLen)) = some (.inflate, 4)) ∧
    after .unpk8 (limited 0 2 (unpacking 1 8 3 [1, 2, 3])) (fun t => t.err) = some .capacityExceeded ∧
    after .unpk16 (limited 0 1 (unpacking 2 16 1 [1, 2, 3, 4])) (fun t => t.err) = some .capacityExceeded ∧
    after .unpk1 (limited 0 8 (unpacking 9 1 1 [1, 2])) (fun t => t.err) = some .capacityExceeded ∧
    after .unpk2 (limited 0 4 (unpacking 5 2 1 [1, 2])) (fun t => t.err) = some .capacityExceeded ∧
    after .unpk4 (limited 0 2 (unpacking 3 4 1 [1, 2])) (fun t => t.err) = some .capacityExceeded :=
  ⟨⟨by decide, by decide, by decide, cells_memoryOf _, by decide, by decide, by decide⟩, by decide, by decide, by decide, by decide,
    by decide⟩

theorem test_hyp_MatchExpandsUniquely : 3 ≤ 258 ∧ 258 ≤ 258 ∧ 1 ≤ 32768 ∧ 32768 ≤ 32768 := by decide

/-- A complete scanline at RPTR whose first byte is 5; a residual of one byte; none. -/
theorem test_hyp_Scanlines :
    ((scanning 1 [0, 0] [5, 1, 2]).status = .scan ∧ (scanning 1 [0, 0] [5, 1, 2]).point = .scanline ∧
      (scanning 1 [0, 0] [5, 1, 2]).rptr + (scanning 1 [0, 0] [5, 1, 2]).rowbytes + 1 ≤ (scanning 1 [0, 0] [5, 1, 2]).outLen ∧
      memRead (scanning 1 [0, 0] [5, 1, 2]).out (scanning 1 [0, 0] [5, 1, 2]).rptr = some 5) ∧
    ((scanning 1 [0, 0] [0]).outLen < (scanning 1 [0, 0] [0]).rptr + 2 + 1 ∧ (scanning 1 [0, 0] [0]).rptr ≠ 1) ∧
    (nextOf (engineMove (scanning 1 [0, 0] [0]))).isSome = true ∧
    ((scanning 1 [0, 0] []).outLen < (scanning 1 [0, 0] []).rptr + 2 + 1 ∧ (scanning 1 [0, 0] []).rptr = (scanning 1 [0, 0] []).outLen) ∧
    ({ scanning 1 [0, 0] [0, 1, 2, 0, 3, 4, 9] with rptr := 6 } : State).outLen = 7 := by decide

/-- A complete scanline with the filter unit 1, and one in which the whole row is the left edge. -/
theorem test_hyp_RowReady : RowReady (scanning 1 [0, 0] [4, 1, 2]) ∧ RowReady (scanning 8 [0, 0] [4, 1, 2]) :=
  ⟨⟨by decide, by decide, cells_memoryOf _, by decide⟩, ⟨by decide, by decide, cells_memoryOf _, by decide⟩⟩

/-- OUT holds the row 7, 3 filtered with Paeth over the previous row 1, 9. -/
theorem test_hyp_UndoingAFilterRecoversTheRow :
    [7, (3 : Byte)].length = (scanning 1 [1, 9] [4, 6, 250]).rowbytes ∧
    ∀ k, k < (scanning 1 [1, 9] [4, 6, 250]).rowbytes →
      memRead (scanning 1 [1, 9] [4, 6, 250]).out ((scanning 1 [1, 9] [4, 6, 250]).rptr + 1 + k) =
        (filterRow paeth (scanning 1 [1, 9] [4, 6, 250]).fu [7, 3] (scanning 1 [1, 9] [4, 6, 250]).prior)[k]? := by decide

/-- A row at each depth, its samples fitting. -/
theorem test_hyp_UnpackEmitsItsSamples :
    ((unpacking 1 8 3 [1, 2, 3]).cur.length = (unpacking 1 8 3 [1, 2, 3]).rowbytes ∧ PixReady 3 (unpacking 1 8 3 [1, 2, 3])) ∧
    PixReady 2 (unpacking 2 16 1 [1, 2, 3, 4]) ∧
    ((unpacking 9 1 1 [1, 2]).rowbytes = (9 + 7) / 8 ∧ PixReady 9 (unpacking 9 1 1 [1, 2])) ∧
    ((unpacking 5 2 1 [1, 2]).rowbytes = (5 + 3) / 4 ∧ PixReady 5 (unpacking 5 2 1 [1, 2])) ∧
    ((unpacking 3 4 1 [1, 2]).rowbytes = (3 + 1) / 2 ∧ PixReady 3 (unpacking 3 4 1 [1, 2])) :=
  ⟨⟨by decide, rfl, rfl⟩, ⟨rfl, rfl⟩, ⟨by decide, rfl, rfl⟩, ⟨by decide, rfl, rfl⟩, ⟨by decide, rfl, rfl⟩⟩

/-- Each legal depth with its geometry. -/
theorem test_hyp_EveryDepthEmitsWidthTimesPlanes :
    ∀ s ∈ List.append [unpacking 1 8 4 [1, 2, 3, 4], unpacking 2 16 1 [1, 2, 3, 4]]
      [unpacking 9 1 1 [1, 2], unpacking 5 2 1 [1, 2], unpacking 3 4 1 [1, 2]],
      s.status = .scan ∧ s.point = .unpack ∧ configOk s = true ∧ s.rowbytes = rowBytesOf s ∧ s.cur.length = s.rowbytes := by
  decide

/-- An element that completes, and an engine move that is no fault. -/
theorem test_hyp_Frames :
    (nextOf (exec .eob State.reset)).isSome = true ∧ (nextOf (engineMove State.reset)).isSome = true ∧
    (nextOf (engineMove State.reset)).map (fun t => t.status) ≠ some .fault := by decide

/-- A step that enters a fault from a state that is none. -/
theorem test_hyp_Faults :
    (inflating .header []).status ≠ .fault ∧
    (nextOf (step (inflating .header []))).map (fun t => t.status) = some .fault ∧
    (nextOf (engineMove (inflating .header []))).map (fun t => (t.status, t.err)) = some (.fault, .truncatedInput) ∧
    (nextOf (engineMove (inflating .header [0x01]))).map (fun t => (t.status, t.err)) = some (.fault, .invalidBlockType) ∧
    (nextOf (engineMove (scanning 1 [0] [5, 0]))).map (fun t => (t.status, t.err)) = some (.fault, .invalidFilterType) ∧
    (nextOf (engineMove (scanning 1 [0] [5]))).map (fun t => (t.status, t.err)) = some (.fault, .truncatedImageData) := by decide

/-- FAULT with nothing pending, and with a RESET pending. -/
theorem test_hyp_FaultIsLeftOnlyByReset :
    (raise .truncatedInput State.reset).status = .fault ∧
    (nextOf (step (raise .truncatedInput State.reset))).map (fun t => t.err) = some .truncatedInput ∧
    (nextOf (step (pending (raise .truncatedInput State.reset) (.ctrl 3)))).map (fun t => (t.status, t.err)) =
      some (.idle, .none) := by decide

/-- START without SCAN_EN, with a legal configuration, and with 2 planes below 8 bits. -/
theorem test_hyp_StartChecksTheConfiguration :
    ((pending State.reset (.ctrl 1)).status = .idle ∧ (pending State.reset (.ctrl 1)).mode = 0) ∧
    (nextOf (step (pending { State.reset with mode := 1, width := 1, bitdepth := 8, planes := 4 } (.ctrl 1)))).map
      (fun t => t.status) = some .inflate ∧
    (nextOf (step (pending { State.reset with mode := 1, width := 1, bitdepth := 4, planes := 2 } (.ctrl 1)))).map
      (fun t => (t.status, t.err)) = some (.fault, .invalidConfig) := by decide

/-- Each host move that a statement names, pending. -/
theorem test_hyp_HostMoves :
    (pending State.reset (.writeInLen 3)).hostQueue = [.writeInLen 3] ∧ withinLimit 3 State.reset.cap.inCap = true ∧
    withinLimit 4294967295 State.reset.cap.widthMax = true ∧ withinLimit 4294967296 State.reset.cap.widthMax = false ∧
    (nextOf (step (pending State.reset (.writeIn 7 9)))).map (fun t => t.inMem) = some [(7, 9)] ∧
    (nextOf (step (pending (inflating .header []) (.writeWidth 5)))).map (fun t => t.width) = some 0 ∧
    (nextOf (step (pending (raise .truncatedInput State.reset) (.readReg .err)))).map (fun t => t.hostReply) = some (some 12) ∧
    (nextOf (step (pending { copying [7] 3 with status := .done } (.readOut 0)))).map (fun t => t.hostReply) = some (some 7) := by
  decide

/-- A cell of IN written but at IN_LEN is unwritten (10 R46, 93 U4); with IN_LEN above it, it is read. -/
theorem test_read_in_stops_at_in_len :
    faultOf (step (pending { State.reset with inMem := [(0, 5), (1, 9)], inLen := 1 } (.readIn 1))) = some .unwrittenCell ∧
    (nextOf (step (pending { State.reset with inMem := [(0, 5), (1, 9)], inLen := 2 } (.readIn 1)))).map (fun t => t.hostReply) =
      some (some 9) ∧
    faultOf (step (pending State.reset (.readOut 0))) = some .unwrittenCell := by decide

/-- A read of each kind, pending in IDLE, during a run, when DONE and in FAULT. -/
theorem test_hyp_HostReadsByState :
    ((pending State.reset (.readReg .planes)).hostQueue = [.readReg .planes] ∧ State.reset.status = .idle ∧
      State.reset.status ≠ .fault) ∧
    ((inflating .header [7]).status = .inflate ∧ (scanning 1 [0] []).status = .scan ∧
      refusalOf (step (pending (inflating .header [7]) (.readReg .outLen))) = some .hostAccess ∧
      refusalOf (step (pending (inflating .header [7]) (.readIn 0))) = some .hostAccess ∧
      refusalOf (step (pending (scanning 1 [0] []) (.readPix 0))) = some .hostAccess) ∧
    (({ inflating .header [7] with status := .done } : State).status = .done ∧
      0 < (inflating .header [7]).inLen ∧ memRead (inflating .header [7]).inMem 0 = some 7 ∧
      (nextOf (step (pending { inflating .header [7] with status := .done } (.readIn 0)))).map (fun t => t.hostReply) =
        some (some 7) ∧
      memRead State.reset.inMem 0 = none ∧ State.reset.pixLen ≤ 0) ∧
    (raise .truncatedInput State.reset).status = .fault ∧
      (nextOf (step (pending (raise .truncatedInput State.reset) (.readReg .mode)))).map (fun t => t.freeCount) = some 1 := by
  decide

theorem test_hyp_ResetLeavesTheResetState : (pending State.reset (.ctrl 2)).hostQueue = [.ctrl 2] := by decide

/-- A decoded header, a legal depth, and each state that does nothing. -/
theorem test_hyp_StepRunsTheFetchedElement :
    (match decode readBit (contextOf (inflating .header [0x03])) (inflating .header [0x03]) with
      | .got d _ => decide (d.instr = .bhdrFixed 1)
      | .stop _ _ => false) = true ∧
    (listing 257 none).lidx < (listing 257 none).nlit.toNat + (listing 257 none).ndist.toNat ∧
    unpackInstr (unpacking 1 8 3 [1, 2, 3]).bitdepth.toNat = some .unpk8 ∧ State.reset.status = .idle ∧
    (pending State.reset .elapse).hostQueue = [.elapse] := by decide

/-- Why the fetch of a state stops, if it does. -/
def stopAt (s : State) : Option Stop := stopOf (decode readBit (contextOf s) s)

/-- A fetch that stops for each cause: no byte; the distance code 11111 of a fixed block; a byte announced and not written; a
symbol 288; and a BITDEPTH that selects no element. -/
theorem test_hyp_FetchStops :
    stopAt (inflating .header []) = some .exhausted ∧
    stopAt { inflating .distance [0xFF] with dlen := fixedD } = some .malformed ∧
    (nextOf (engineMove { inflating .distance [0xFF] with dlen := fixedD })).map (fun t => (t.status, t.err)) =
      some (.fault, .malformedBitstream) ∧
    stopAt { inflating .header [] with inLen := 1 } = some .unwritten ∧
    stopAt { inflating .symbols [0] with lllen := List.replicate 288 0 ++ [1] } = some .noElement ∧
    unpackInstr (unpacking 1 3 1 [1]).bitdepth.toNat = none := by decide +kernel

/-- A started run on the stream 03 00 meets the invariant. -/
theorem inflating_inv : Inv (inflating .header [0x03, 0x00]) where
  inForm := by decide
  outForm := rfl
  pixForm := rfl
  tables := by decide +kernel
  cursor := ⟨by decide, by decide, by decide, by decide⟩
  limits := by decide
  err := by decide
  idle := by decide
  config := by decide
  final := by decide
  inflate := by decide
  clcCount := by decide
  counts := by decide
  list := by decide
  length := by decide
  scan := fun h => absurd h (by decide)
  finished := by decide

theorem test_hyp_Invariant :
    Inv (inflating .header [0x03, 0x00]) ∧ InputWritten (inflating .header [0x03, 0x00]) ∧
    (inflating .header [0x03, 0x00]).hostQueue = [] ∧ running (inflating .header [0x03, 0x00]) = true ∧
    (nextOf (step (inflating .header [0x03, 0x00]))).isSome = true :=
  ⟨inflating_inv, inflating_written _ _, rfl, rfl, by decide +kernel⟩

/-- The EOB of a final fixed block, with SCAN_EN = 0. -/
def atFinalEob : State :=
  { inflating .symbols [0x00] with bfinal := 1, btype := 1, lllen := fixedLL, dlen := fixedD }

/-- The end of the scanlines of an image of one row of one 8-bit sample. -/
def atLastScanline : State :=
  { scanning 1 [7] [0, 7] with
    bfinal := 1, width := 1, bitdepth := 8, planes := 1, rptr := 2, rows := 1, cur := [7], pix := [(0, 7)], pixLen := 1 }

theorem atFinalEob_inv : Inv atFinalEob where
  inForm := by decide
  outForm := rfl
  pixForm := rfl
  tables := by decide +kernel
  cursor := ⟨by decide, by decide, by decide, by decide⟩
  limits := by decide
  err := by decide
  idle := by decide
  config := by decide
  final := by decide
  inflate := by decide
  clcCount := by decide
  counts := by decide
  list := by decide
  length := by decide
  scan := fun h => absurd h (by decide)
  finished := by decide

theorem atLastScanline_inv : Inv atLastScanline where
  inForm := by decide
  outForm := rfl
  pixForm := rfl
  tables := by decide +kernel
  cursor := ⟨by decide, by decide, by decide, by decide⟩
  limits := by decide
  err := by decide
  idle := by decide
  config := by decide
  final := by decide
  inflate := by decide
  clcCount := by decide
  counts := by decide
  list := by decide
  length := by decide
  scan := fun _ => ⟨by decide, by decide, by decide, by decide, by decide, by decide, by decide, by decide, by decide⟩
  finished := by decide

/-- A state of the invariant whose engine move enters DONE, with SCAN_EN = 0 and with SCAN_EN = 1. -/
theorem test_hyp_DoneDeliversTheResult :
    (Inv atFinalEob ∧ atFinalEob.status ≠ .done ∧
      (nextOf (engineMove atFinalEob)).map (fun t => (t.status, t.mode, t.bfinal)) = some (.done, 0, 1)) ∧
    Inv atLastScanline ∧ atLastScanline.status ≠ .done ∧
      (nextOf (engineMove atLastScanline)).map (fun t => (t.status, t.mode, t.bfinal)) = some (.done, 1, 1) :=
  ⟨⟨atFinalEob_inv, by decide, by decide +kernel⟩, atLastScanline_inv, by decide, by decide⟩

end Sys2Proof.Tests
end

section
/-! The error kinds the CORE raises (00 R6): every move that enters FAULT takes its kind from the seven of
`ErrKind.raisedByCore`. The engine's part goes over the cases of `Effect` and `EngineCase`, the host's over its moves. -/

namespace Sys2Proof.Machine

open Sys2Proof

/-- The seven kinds the CORE raises (60 R341); the other kinds are reserved for host software (00 R6). -/
def ErrKind.raisedByCore : ErrKind → Bool
  | .truncatedImageData | .invalidFilterType | .invalidBlockType | .malformedBitstream | .truncatedInput | .invalidConfig
  | .capacityExceeded => true
  | _ => false

/-- If the move from `s` to `t` entered FAULT, ERR holds a kind of the CORE. -/
def EntersCoreFault (s t : State) : Prop := t.status = .fault → s.status = .fault ∨ t.err.raisedByCore = true

section
variable {s t u : State}

theorem EntersCoreFault.of_raise {k : ErrKind} (hk : k.raisedByCore = true) : EntersCoreFault s (raise k u) := fun _ => .inr hk

theorem EntersCoreFault.of_status (h : t.status = s.status) : EntersCoreFault s t := fun hf => .inl (h ▸ hf)

theorem EntersCoreFault.of_not_fault (h : t.status ≠ .fault) : EntersCoreFault s t := fun hf => absurd hf h

/-- The relation looks only at STATE of the state before. -/
theorem EntersCoreFault.congr_left (h : EntersCoreFault u t) (hu : u.status = s.status) : EntersCoreFault s t :=
  fun hf => hu ▸ h hf

/-! ### The engine -/

/-- The block loop's end enters no fault: it starts phase SCAN, ends in DONE or goes on. -/
theorem blockEnd_entersCoreFault (s : State) : EntersCoreFault s (blockEnd s) := by
  unfold blockEnd
  split
  · split
    · exact .of_not_fault (by simp)
    · exact .of_not_fault (by simp)
  · exact .of_status rfl

/-- The end of the scanlines is DONE or TruncatedImageData. -/
theorem scanEnd_entersCoreFault (s : State) : EntersCoreFault s (scanEnd s) := by
  unfold scanEnd
  split
  · exact .of_not_fault (by simp)
  · exact .of_raise rfl

theorem Grown.status_eq (h : Grown s t) : t.status = s.status := by rw [h.frame]

theorem Emitted.status_eq (h : Emitted s t) : t.status = s.status := by rw [h.frame]

/-- Every element that enters a fault raises a kind of the CORE. -/
theorem Effect.entersCoreFault {i : Instr} (h : Effect i s t) : EntersCoreFault s t := by
  cases h with
  | header | clcBad | lensBad | litFull | reserved | far | copyFull | filterBad | unpackFull => exact .of_raise rfl
  | fixed | dyn | counts | clc | lit | length | filter => exact .of_status rfl
  | lens _ _ _ _ ht => exact .of_status (congrArg State.status ht :)
  | eob => exact blockEnd_entersCoreFault s
  | copy _ _ _ hg => exact .of_status hg.status_eq
  | unpack _ _ hg => exact .of_status hg.status_eq

/-- The fetch leaves STATE as it is. -/
theorem fetchedState_status_eq (h : sameButCursor s u) (d : Decoded) : (fetchedState d u).status = s.status := by
  rw [fetched_frame h d]

/-- Every move of the engine that enters a fault raises a kind of the CORE. -/
theorem engineMove_entersCoreFault (h : engineMove s = .next t) : EntersCoreFault s t := by
  cases engineMove_cases h with
  | rest _ ht => exact .of_status (congrArg State.status ht :)
  | listBad _ _ _ ht => exact ht ▸ .of_raise rfl
  | listEnd _ _ _ ht => exact .of_status (congrArg State.status ht :)
  | element _ _ _ d _ _ hu _ ht => exact ht.entersCoreFault.congr_left (fetchedState_status_eq hu d)
  | exhausted _ _ _ _ _ ht => exact ht ▸ .of_raise rfl
  | malformed _ _ _ _ _ ht => exact ht ▸ .of_raise rfl
  | scanline _ _ _ _ _ _ ht => exact ht.entersCoreFault.congr_left rfl
  | scanEnd _ _ _ ht => exact ht ▸ scanEnd_entersCoreFault s
  | unpack _ _ _ _ _ ht => exact ht.entersCoreFault

/-! ### The host -/

/-- A host write of a register keeps STATE and ERR wherever the write itself does. -/
theorem whileIdle_status_err {f : State → State} (hf : (f s).status = s.status ∧ (f s).err = s.err) :
    (whileIdle f s).status = s.status ∧ (whileIdle f s).err = s.err := by
  unfold whileIdle
  split
  · exact hf
  · exact ⟨rfl, rfl⟩

/-- A host read of a register keeps STATE and ERR. -/
theorem readRegister_status_err {r : HostReg} (h : readRegister r s = .next t) : t.status = s.status ∧ t.err = s.err := by
  unfold readRegister at h
  split at h
  · cases h; exact ⟨rfl, rfl⟩
  · split at h
    · cases h; exact ⟨rfl, rfl⟩
    · split at h <;> cases h
      exact ⟨rfl, rfl⟩

/-- A host read of a cell keeps STATE and ERR. -/
theorem readCell_status_err {n len a : Nat} {m : Memory (BitVec n)} (h : readCell len m a s = .next t) :
    t.status = s.status ∧ t.err = s.err := by
  unfold readCell at h
  split at h
  · cases h
  · split at h
    · cases h; exact ⟨rfl, rfl⟩
    · split at h <;> cases h
      exact ⟨rfl, rfl⟩

/-- A host write of a cell of IN keeps STATE and ERR. -/
theorem writeInCell_status_err {a : Nat} {b : Byte} (h : writeInCell a b s = .next t) :
    t.status = s.status ∧ t.err = s.err := by
  unfold writeInCell at h
  split at h
  · split at h <;> cases h
    exact ⟨rfl, rfl⟩
  · cases h

/-- Only a write of CTRL changes STATE or ERR (10 R28, R33). -/
theorem hostMove_status_err {a : HostAction} (h : hostMove a s = .next t) (ha : ∀ v, a ≠ .ctrl v) :
    t.status = s.status ∧ t.err = s.err := by
  cases a with
  | ctrl v => exact absurd rfl (ha v)
  | writeMode | writeBitdepth | writePlanes => cases h; exact whileIdle_status_err ⟨rfl, rfl⟩
  | writeInLen | writeWidth =>
    simp only [hostMove] at h
    split at h <;> cases h
    exact whileIdle_status_err ⟨rfl, rfl⟩
  | writeIn => exact writeInCell_status_err h
  | readReg => exact readRegister_status_err h
  | readIn | readOut | readPix => exact readCell_status_err h
  | elapse => cases h; exact ⟨rfl, rfl⟩

@[simp] theorem resetCore_status (s : State) : (resetCore s).status = .idle := rfl

/-- A write of CTRL enters a fault only by START, with InvalidConfig. -/
theorem writeCtrl_entersCoreFault (v : BitVec 2) (s : State) : EntersCoreFault s (writeCtrl v s) := by
  unfold writeCtrl
  split
  · exact .of_not_fault (by simp)
  · split
    · unfold start
      split
      · exact .of_raise rfl
      · exact .of_not_fault (by simp)
    · exact .of_status rfl

/-- Every move of the host that enters a fault raises a kind of the CORE. -/
theorem hostMove_entersCoreFault {a : HostAction} (h : hostMove a s = .next t) : EntersCoreFault s t := by
  by_cases ha : ∃ v, a = .ctrl v
  · obtain ⟨v, rfl⟩ := ha
    cases h
    exact writeCtrl_entersCoreFault v s
  · exact .of_status (hostMove_status_err h (not_exists.mp ha)).1

/-! ### A step -/

/-- A step is a move of the engine, with nothing or an `elapse` pending, or the host's oldest pending move (entry 4). -/
theorem step_cases (h : step s = .next t) :
    (s.hostQueue = [] ∧ engineMove s = .next t) ∨
    (∃ q, s.hostQueue = .elapse :: q ∧ engineMove { s with hostQueue := q } = .next t) ∨
    ∃ a q, s.hostQueue = a :: q ∧ a ≠ .elapse ∧ hostMove a { s with hostQueue := q } = .next t := by
  unfold step nextTurn at h
  cases hq : s.hostQueue with
  | nil => rw [hq] at h; exact .inl ⟨rfl, h⟩
  | cons a q =>
    rw [hq] at h
    cases a with
    | elapse => exact .inr (.inl ⟨q, rfl, h⟩)
    | _ => exact .inr (.inr ⟨_, q, rfl, by simp, h⟩)

/-- Every step that enters a fault raises a kind of the CORE. -/
theorem step_entersCoreFault (h : step s = .next t) : EntersCoreFault s t := by
  rcases step_cases h with ⟨-, he⟩ | ⟨q, -, he⟩ | ⟨a, q, -, -, hh⟩
  · exact engineMove_entersCoreFault he
  · exact (engineMove_entersCoreFault he).congr_left rfl
  · exact (hostMove_entersCoreFault hh).congr_left rfl

end

/-- A kind of the CORE is none of those reserved for host software, and not the code 0. -/
theorem ErrKind.not_reserved_of_raisedByCore {k : ErrKind} (h : k.raisedByCore = true) :
    k ≠ .none ∧ k ≠ .unexpectedEof ∧ k ≠ .invalidSignature ∧ k ≠ .invalidChunkType ∧ k ≠ .chunkTooLarge ∧
    k ≠ .missingRequiredChunk ∧ k ≠ .invalidChunkLength ∧ k ≠ .invalidSignificantBits := by
  refine ⟨?_, ?_, ?_, ?_, ?_, ?_, ?_, ?_⟩ <;> rintro rfl <;> cases h

/-- Settles O47: a step that enters FAULT raises one of the CORE's seven kinds (`step_entersCoreFault`); the codes are those
of the definition. `test_hyp_Faults` has steps that enter FAULT. -/
theorem onlyTheCoresKindsAreRaised : Obligations.OnlyTheCoresKindsAreRaised := by
  unfold Obligations.OnlyTheCoresKindsAreRaised
  refine ⟨fun s t h hs ht => ?_, rfl, rfl, rfl, rfl, rfl, rfl, rfl, rfl, rfl, rfl, rfl, rfl, rfl, rfl, rfl⟩
  exact ErrKind.not_reserved_of_raisedByCore ((step_entersCoreFault h ht).resolve_left hs)

end Sys2Proof.Machine
end

section
/-! The fetch refines reading a list (10 R22, R25): `readBit_agree`, lifted to the decoder by `decode_agree`, read off at the
state itself. -/

namespace Sys2Proof.Machine

open Sys2Proof

section
variable {c : Context} {s : State}

/-- The decoder through READBIT and the decoder on the unread bits agree, and stay related. -/
theorem decode_unreadBits_agree (hc : CursorOk s) (hw : InputWritten s) :
    Agree (Reading s) (decode readBit c s) (decodeBits c (unreadBits s)) :=
  decode_agree (readBit_agree s) c { same := rfl, cursor := hc, written := hw, unread := rfl }

/-- What agrees with a value read is that value, read. -/
theorem Agree.of_got {σ τ α : Type} {R : σ → τ → Prop} {g : Got σ α} {a : α} {t : τ} (h : Agree R g (.got a t)) :
    ∃ u, g = .got a u ∧ R u t := by
  cases g with
  | got b u => obtain ⟨rfl, hr⟩ := h; exact ⟨u, rfl, hr⟩
  | stop w u => exact h.elim

/-- What agrees with a stop is that stop. -/
theorem Agree.of_stop {σ τ α : Type} {R : σ → τ → Prop} {g : Got σ α} {w : Stop} {t : τ} (h : Agree R g (.stop w t)) :
    ∃ u, g = .stop w u ∧ R u t := by
  cases g with
  | got b u => exact h.elim
  | stop v u => obtain ⟨rfl, hr⟩ := h; exact ⟨u, rfl, hr⟩

end

/-- Settles O12: the two decoders agree (`decode_unreadBits_agree`), for an element as for a stop. -/
theorem fetchReadsTheUnreadStream : Obligations.FetchReadsTheUnreadStream := by
  unfold Obligations.FetchReadsTheUnreadStream
  intro c s hc hw
  have key := decode_unreadBits_agree (c := c) hc hw
  constructor
  · intro d rest hd
    obtain ⟨t, ht, hr⟩ := Agree.of_got (hd ▸ key)
    exact ⟨t, ht, hr.same, hr.cursor, hr.unread⟩
  · intro w rest hd
    obtain ⟨t, ht, hr⟩ := Agree.of_stop (hd ▸ key)
    exact ⟨t, ht, hr.same, hr.cursor, hr.unread⟩

end Sys2Proof.Machine
end

section
/-! What an element may write (10 R26 to R30), said once: `overlay i s t` is `s` with the registers the spec names for the
element `i` taken from `t`, and every next state of `i` is such an overlay (`Effect.eq_overlay`). -/

namespace Sys2Proof.Machine

open Sys2Proof

/-- `s` with the registers that the elements of format `f` other than LIT and EOB may write, STATE, ERR and the point
reached among them, taken from `t`. -/
def formatOverlay (f : Format) (s t : State) : State :=
  match f with
  | .bhdr =>
    { s with
      status := t.status, err := t.err, point := t.point, bfinal := t.bfinal, btype := t.btype, lllen := t.lllen
      dlen := t.dlen }
  | .dynhdr =>
    { s with
      point := t.point, hlit := t.hlit, nlit := t.nlit, hdist := t.hdist, ndist := t.ndist, hclen := t.hclen, ncl := t.ncl }
  | .clclen =>
    { s with status := t.status, err := t.err, point := t.point, cllen := t.cllen, lidx := t.lidx, prevlen := t.prevlen }
  | .cl => { s with status := t.status, err := t.err, lens := t.lens, lidx := t.lidx, prevlen := t.prevlen }
  | .ll => { s with status := t.status, err := t.err, point := t.point, len := t.len }
  | .d => { s with status := t.status, err := t.err, point := t.point, dist := t.dist, out := t.out, outLen := t.outLen }
  | .scanline => { s with status := t.status, err := t.err, point := t.point, cur := t.cur, col := t.col }
  | .unpack =>
    { s with
      status := t.status, err := t.err, point := t.point, pix := t.pix, pixLen := t.pixLen, rows := t.rows, prior := t.prior
      rptr := t.rptr }

/-- `s` with the registers that element `i` may write taken from `t`. -/
def overlay (i : Instr) (s t : State) : State :=
  match i with
  | .lit _ => { s with status := t.status, err := t.err, out := t.out, outLen := t.outLen }
  | .eob =>
    { s with status := t.status, point := t.point, rowbytes := t.rowbytes, fu := t.fu, prior := t.prior, rptr := t.rptr }
  | i => formatOverlay i.format s t

section
variable {i : Instr} {s t : State}

/-- Apart from LIT and EOB the format says what is written. -/
theorem overlay_of_ne (hl : ∀ b, i ≠ .lit b) (he : i ≠ .eob) : overlay i s t = formatOverlay i.format s t := by
  unfold overlay
  split
  · exact absurd rfl (hl _)
  · exact absurd rfl he
  · rfl

/-- A next state that is an overlay by its format, the format being another than LL. -/
theorem eq_overlay_of_format {f : Format} (hi : i.format = f) (hf : f ≠ .ll) (ht : t = formatOverlay f s t) :
    t = overlay i s t := by
  rwa [overlay_of_ne, hi]
  · rintro b rfl
    exact hf hi.symm
  · rintro rfl
    exact hf hi.symm

/-- The symbols from 257 on are no LIT and not EOB. -/
theorem eq_overlay_of_number (hi : i.format = .ll) (hn : 257 ≤ i.number) (ht : t = formatOverlay .ll s t) :
    t = overlay i s t := by
  rwa [overlay_of_ne, hi]
  · rintro b rfl
    have := b.isLt
    simp only [Instr.number] at hn
    omega
  · rintro rfl
    simp [Instr.number] at hn

/-- Only elements of format D have a distance. -/
theorem format_of_distanceOf {d : Nat} (h : distanceOf i = some d) : i.format = .d := by
  unfold distanceOf at h
  split at h
  · assumption
  · cases h

/-- EOB writes what the entry to phase SCAN writes. -/
theorem blockEnd_eq_overlay (s : State) : blockEnd s = overlay .eob s (blockEnd s) := by
  unfold blockEnd
  split
  · split <;> rfl
  · rfl

/-- An element writes its own registers only. -/
theorem Effect.eq_overlay (h : Effect i s t) : t = overlay i s t := by
  cases h with
  | header f b hi => rcases hi with ⟨rfl, -⟩ | ⟨rfl, -⟩ <;> rfl
  | fixed | dyn | counts | clcBad | clc | litFull | lit | filterBad => rfl
  | lensBad hi => exact eq_overlay_of_format hi (by decide) rfl
  | lens hi _ _ _ ht => exact eq_overlay_of_format hi (by decide) (by rw [ht]; rfl)
  | eob => exact blockEnd_eq_overlay s
  | length l hi h1 => exact eq_overlay_of_number hi h1 rfl
  | reserved hi => rcases hi with rfl | rfl | rfl | rfl <;> rfl
  | far d hi => exact eq_overlay_of_format (format_of_distanceOf hi) (by decide) rfl
  | copyFull d hi _ hg | copy d hi _ hg =>
    exact eq_overlay_of_format (format_of_distanceOf hi) (by decide) (by rw [hg.frame]; rfl)
  | filter row hi => exact eq_overlay_of_format hi (by decide) rfl
  | unpackFull hi hg => exact eq_overlay_of_format hi (by decide) (by rw [hg.frame]; rfl)
  | unpack n hi hg =>
    have hf : i.format = .unpack := by rcases hi with ⟨rfl, -⟩ | ⟨rfl, -⟩ | ⟨rfl | rfl | rfl, -⟩ <;> rfl
    exact eq_overlay_of_format hf (by decide) (by rw [hg.frame]; rfl)

end

/-- Settles O44: the next state is an overlay, and the overlay takes none of the registers named. -/
theorem elementsWriteOnlyTheirRegisters : Obligations.ElementsWriteOnlyTheirRegisters := by
  unfold Obligations.ElementsWriteOnlyTheirRegisters
  intro i s t h
  rw [(exec_effect i h).eq_overlay]
  by_cases hl : ∃ b, i = .lit b
  · obtain ⟨b, rfl⟩ := hl
    simp [overlay, Instr.format]
  · by_cases he : i = .eob
    · subst he
      simp [overlay, Instr.format]
    · rw [overlay_of_ne (not_exists.mp hl) he]
      cases hf : i.format <;> simp [formatOverlay, he]

end Sys2Proof.Machine
end

section
/-! What no element and no move of the engine writes (10 R23, R42; 20 R71, R83), as views of the state. -/

namespace Sys2Proof.Machine

open Sys2Proof

/-- IN, the host registers 3 to 7 and the parameters. -/
def inputAndConfig (s : State) : Memory Byte × Nat × BitVec 1 × Nat × BitVec 5 × BitVec 3 × Capacities :=
  (s.inMem, s.inLen, s.mode, s.width, s.bitdepth, s.planes, s.cap)

/-- The registers that only a fetch writes. -/
def fetchRegisters (s : State) : Nat × Byte × Nat × BitVec 9 × BitVec 5 × BitVec 15 × BitVec 4 × Byte :=
  (s.pos, s.la, s.bitoff, s.sym, s.dsym, s.code, s.clen, s.ft)

/-- The model's own fields of the host (entries 4 to 6). -/
def hostFields (s : State) : List HostAction × Option Nat × Nat := (s.hostQueue, s.hostReply, s.freeCount)

section
variable {i : Instr} {s t u : State}

/-- An overlay takes nothing of IN, the configuration, the cursor, the fetched registers and the host's fields. -/
theorem overlay_views (i : Instr) (s t : State) :
    inputAndConfig (overlay i s t) = inputAndConfig s ∧ fetchRegisters (overlay i s t) = fetchRegisters s ∧
    hostFields (overlay i s t) = hostFields s := by
  unfold overlay
  split
  · exact ⟨rfl, rfl, rfl⟩
  · exact ⟨rfl, rfl, rfl⟩
  · cases i.format <;> exact ⟨rfl, rfl, rfl⟩

/-- No element writes IN, the configuration, the cursor, the fetched registers or the host's fields. -/
theorem Effect.views (h : Effect i s t) :
    inputAndConfig t = inputAndConfig s ∧ fetchRegisters t = fetchRegisters s ∧ hostFields t = hostFields s := by
  rw [h.eq_overlay]
  exact overlay_views i s t

/-- A fetch leaves IN and the configuration as they are. -/
theorem fetchedState_inputAndConfig (h : sameButCursor s u) (d : Decoded) :
    inputAndConfig (fetchedState d u) = inputAndConfig s := by
  rw [fetched_frame h d]
  rfl

/-- The end of the scanlines writes none of them either. -/
theorem scanEnd_views (s : State) :
    inputAndConfig (scanEnd s) = inputAndConfig s ∧ fetchRegisters (scanEnd s) = fetchRegisters s ∧
    hostFields (scanEnd s) = hostFields s := by
  unfold scanEnd
  split <;> exact ⟨rfl, rfl, rfl⟩

/-- No move of the engine writes IN or the configuration. -/
theorem engineMove_inputAndConfig (h : engineMove s = .next t) : inputAndConfig t = inputAndConfig s := by
  cases engineMove_cases h with
  | rest _ ht => exact congrArg inputAndConfig ht
  | listBad _ _ _ ht | listEnd _ _ _ ht => exact (congrArg inputAndConfig ht :)
  | element _ _ _ d u _ hu _ ht => exact ht.views.1.trans (fetchedState_inputAndConfig hu d)
  | exhausted _ _ u _ hu ht | malformed _ _ u _ hu ht =>
    exact (congrArg inputAndConfig ht).trans (congrArg inputAndConfig hu :)
  | scanline _ _ _ _ _ _ ht => exact ht.views.1
  | scanEnd _ _ _ ht => exact (congrArg inputAndConfig ht).trans (scanEnd_views s).1
  | unpack _ _ _ _ _ ht => exact ht.views.1

end

/-- Settles O45: the views are kept by every move of the engine and by every element. -/
theorem engineNeverWritesInputOrConfiguration : Obligations.EngineNeverWritesInputOrConfiguration := by
  unfold Obligations.EngineNeverWritesInputOrConfiguration
  constructor
  · intro s t h
    simpa [inputAndConfig] using engineMove_inputAndConfig h
  · intro i s t h
    obtain ⟨hc, hf, hh⟩ := (exec_effect i h).views
    simp only [inputAndConfig, fetchRegisters, hostFields, Prod.mk.injEq] at hc hf hh
    simp [hc, hf, hh]

end Sys2Proof.Machine
end

section
/-! Append-only outputs and a cursor that only advances (10 R23, R39; 20 R72, R74). -/

namespace Sys2Proof.Machine

open Sys2Proof

/-- A memory that the engine fills from cell 0 on, with its length register and its capacity: OUT or PIX. -/
structure Store (α : Type) where
  cap   : Option Nat
  len   : Nat
  cells : Memory α

/-- OUT. -/
def outStore (s : State) : Store Byte := ⟨s.cap.outCap, s.outLen, s.out⟩

/-- PIX. -/
def pixStore (s : State) : Store Sample := ⟨s.cap.pixCap, s.pixLen, s.pix⟩

/-- From `m` to `n` a store only grows: what was produced stays, and `n` still is the cells below its length, within its
capacity, if `m` was. -/
structure Store.AppendsTo {α : Type} (m n : Store α) : Prop where
  more   : m.len ≤ n.len
  kept   : ∀ a, a < m.len → memRead n.cells a = memRead m.cells a
  filled : cellsBelow m.len m.cells → cellsBelow n.len n.cells
  room   : withinLimit m.len m.cap = true → withinLimit n.len n.cap = true

theorem Store.AppendsTo.refl {α : Type} (m : Store α) : m.AppendsTo m := ⟨le_rfl, fun _ _ => rfl, id, id⟩

/-- A store left alone. -/
theorem Store.AppendsTo.of_eq {α : Type} {m n : Store α} (h : n = m) : m.AppendsTo n := h ▸ .refl m

section
variable {i : Instr} {s t u : State}

/-- COPY and APPEND append to OUT and leave PIX alone. -/
theorem Grown.stores (h : Grown s t) : (outStore s).AppendsTo (outStore t) ∧ pixStore t = pixStore s :=
  ⟨⟨h.more, h.kept, h.cells, h.room⟩, (congrArg pixStore h.frame :)⟩

/-- EMIT appends to PIX and leaves OUT alone. -/
theorem Emitted.stores (h : Emitted s t) : (pixStore s).AppendsTo (pixStore t) ∧ outStore t = outStore s :=
  ⟨⟨h.more, h.kept, h.cells, h.room⟩, (congrArg outStore h.frame :)⟩

/-- The end of a block leaves the outputs alone. -/
theorem blockEnd_stores (s : State) : outStore (blockEnd s) = outStore s ∧ pixStore (blockEnd s) = pixStore s := by
  unfold blockEnd
  split
  · split <;> exact ⟨rfl, rfl⟩
  · exact ⟨rfl, rfl⟩

/-- The end of the scanlines leaves the outputs alone. -/
theorem scanEnd_stores (s : State) : outStore (scanEnd s) = outStore s ∧ pixStore (scanEnd s) = pixStore s := by
  unfold scanEnd
  split <;> exact ⟨rfl, rfl⟩

/-- A fetch leaves the outputs alone. -/
theorem fetchedState_stores (h : sameButCursor s u) (d : Decoded) :
    outStore (fetchedState d u) = outStore s ∧ pixStore (fetchedState d u) = pixStore s := by
  rw [fetched_frame h d]
  exact ⟨rfl, rfl⟩

/-- An element only appends. -/
theorem Effect.stores (h : Effect i s t) :
    (outStore s).AppendsTo (outStore t) ∧ (pixStore s).AppendsTo (pixStore t) := by
  cases h with
  | lit b hc =>
    have hg := (append_grown ((append_cases b s).resolve_left fun h => hc h.1).2).1
    exact ⟨hg.stores.1, .refl _⟩
  | copyFull _ _ _ hg | copy _ _ _ hg => exact ⟨hg.stores.1, .of_eq hg.stores.2⟩
  | unpackFull _ hg | unpack _ _ hg => exact ⟨.of_eq hg.stores.2, hg.stores.1⟩
  | eob => exact ⟨.of_eq (blockEnd_stores s).1, .of_eq (blockEnd_stores s).2⟩
  | lens _ _ _ _ ht => exact ⟨.of_eq (congrArg outStore ht :), .of_eq (congrArg pixStore ht :)⟩
  | header | fixed | dyn | counts | clcBad | clc | lensBad | litFull | length | reserved | far | filter | filterBad =>
    exact ⟨.refl _, .refl _⟩

/-- A move of the engine only appends. -/
theorem engineMove_stores (h : engineMove s = .next t) :
    (outStore s).AppendsTo (outStore t) ∧ (pixStore s).AppendsTo (pixStore t) := by
  cases engineMove_cases h with
  | rest _ ht => exact ⟨.of_eq (congrArg outStore ht), .of_eq (congrArg pixStore ht)⟩
  | listBad _ _ _ ht | listEnd _ _ _ ht => exact ⟨.of_eq (congrArg outStore ht :), .of_eq (congrArg pixStore ht :)⟩
  | element _ _ _ d u _ hu _ ht =>
    obtain ⟨ho, hp⟩ := fetchedState_stores hu d
    exact ho ▸ hp ▸ ht.stores
  | exhausted _ _ u _ hu ht | malformed _ _ u _ hu ht =>
    exact ⟨.of_eq ((congrArg outStore ht).trans (congrArg outStore hu :)),
      .of_eq ((congrArg pixStore ht).trans (congrArg pixStore hu :))⟩
  | scanline _ _ _ _ _ _ ht => exact ht.stores
  | scanEnd _ _ _ ht =>
    rw [ht, (scanEnd_stores s).1, (scanEnd_stores s).2]
    exact ⟨.refl _, .refl _⟩
  | unpack _ _ _ _ _ ht => exact ht.stores

/-! ### BITPOS -/

/-- BITPOS depends on the cursor only. -/
theorem bitpos_congr (h : fetchRegisters t = fetchRegisters s) : bitpos t = bitpos s := by
  simp only [fetchRegisters, Prod.mk.injEq] at h
  obtain ⟨hp, -, hb, -⟩ := h
  rw [bitpos, bitpos, hp, hb]

/-- A bit read does not move the cursor back. -/
theorem bitpos_le_readBit (s : State) : bitpos s ≤ bitpos (sourceOf (readBit s)) := by
  rcases readBit_cases s with ⟨-, h⟩ | ⟨-, -, h⟩ | ⟨-, -, -, h⟩ | ⟨v, h8, -, -, h⟩ <;>
    rw [h] <;> simp only [sourceOf, bitpos] <;> omega

/-- A decode does not move the cursor back. -/
theorem bitpos_le_decode (c : Context) (s : State) : bitpos s ≤ bitpos (sourceOf (decode readBit c s)) :=
  decode_preserves (P := fun t => bitpos s ≤ bitpos t) (fun t ht => ht.trans (bitpos_le_readBit t)) c le_rfl

/-- The cursor an element runs on is the cursor behind its bits. -/
theorem fetchedState_bitpos (d : Decoded) (u : State) : bitpos (fetchedState d u) = bitpos u := by
  rw [fetchedState_frame]
  rfl

/-- A move of the engine does not move the cursor back. -/
theorem bitpos_le_engineMove (h : engineMove s = .next t) : bitpos s ≤ bitpos t := by
  have hle := bitpos_le_decode (contextOf s) s
  cases engineMove_cases h with
  | rest _ ht => rw [ht]
  | listBad _ _ _ ht | listEnd _ _ _ ht => exact (bitpos_congr (congrArg fetchRegisters ht :)).ge
  | element _ _ _ d u hd _ _ ht =>
    rw [hd] at hle
    rw [bitpos_congr ht.views.2.1, fetchedState_bitpos]
    exact hle
  | exhausted _ _ u hd _ ht | malformed _ _ u hd _ ht =>
    rw [hd] at hle
    rw [ht]
    exact hle
  | scanline _ _ _ ft _ _ ht => exact (bitpos_congr (s := { s with ft := ft }) ht.views.2.1).ge
  | scanEnd _ _ _ ht => exact ht ▸ (bitpos_congr (scanEnd_views s).2.1).ge
  | unpack _ _ _ _ _ ht => exact (bitpos_congr ht.views.2.1).ge

end

/-- Settles O46: both stores only grow (`engineMove_stores`) and BITPOS does not decrease (`bitpos_le_engineMove`). -/
theorem outputsOnlyGrow : Obligations.OutputsOnlyGrow := by
  unfold Obligations.OutputsOnlyGrow
  intro s t h _
  obtain ⟨ho, hp⟩ := engineMove_stores h
  exact ⟨ho.more, hp.more, bitpos_le_engineMove h, ho.kept, hp.kept⟩

end Sys2Proof.Machine
end

section
/-! The moves of the host (10 R31 to R42, 60 R359): a pending move is made first, and what each read and write does by STATE. -/

namespace Sys2Proof.Machine

open Sys2Proof

section
variable {s : State} {rest : List HostAction}

/-- A pending move of the host other than `elapse` is the step. -/
theorem step_hostMove {a : HostAction} (h : s.hostQueue = a :: rest) (ha : a ≠ .elapse) :
    step s = hostMove a { s with hostQueue := rest } := by
  unfold step nextTurn
  rw [h]
  cases a with
  | elapse => exact absurd rfl ha
  | _ => rfl

/-! ### Reads of registers -/

/-- STATUS, ERR and CTRL answer their value in every state. -/
theorem readRegister_specified {r : HostReg} (hr : alwaysSpecified r = true) :
    readRegister r s = .next (reply (regValue s r) s) := if_pos hr

/-- Outside FAULT the registers 3 to 7 answer their value, and the registers 8 to 10 do unless the engine runs. -/
theorem readRegister_value {r : HostReg} (hf : s.status ≠ .fault) (hr : resultReg r = true → running s = false) :
    readRegister r s = .next (reply (regValue s r) s) := by
  have hn : (resultReg r && running s) = false := by
    cases h : resultReg r with
    | false => rfl
    | true => exact hr h
  simp [readRegister, hf, hn]

/-- The registers 8 to 10 are none of CTRL, STATUS and ERR. -/
theorem alwaysSpecified_of_resultReg {r : HostReg} : resultReg r = true → alwaysSpecified r = false := by
  cases r <;> decide

/-- While the engine runs the registers 8 to 10 are not read. -/
theorem readRegister_running {r : HostReg} (hf : s.status ≠ .fault) (hr : resultReg r = true) (hs : running s = true) :
    readRegister r s = .refused .hostAccess := by
  simp [readRegister, alwaysSpecified_of_resultReg hr, hf, hr, hs]

/-- In FAULT the registers 3 to 10 answer a free value. -/
theorem readRegister_fault {r : HostReg} (hf : s.status = .fault) (hr : alwaysSpecified r = false) :
    readRegister r s = .next (replyFree 0 s) := by
  simp [readRegister, hr, hf]

/-! ### Reads of cells -/

/-- With the engine at rest and no fault a written cell below the length answers its value. -/
theorem readCell_value {n len a : Nat} {m : Memory (BitVec n)} {v : BitVec n} (hr : running s = false) (hf : s.status ≠ .fault)
    (ha : a < len) (hv : memRead m a = some v) : readCell len m a s = .next (reply v.toNat s) := by
  simp [readCell, hr, hf, readBelow_lt m ha, hv]

/-- With the engine at rest and no fault any other cell is unwritten. -/
theorem readCell_unwritten {n len a : Nat} {m : Memory (BitVec n)} (hr : running s = false) (hf : s.status ≠ .fault)
    (h : len ≤ a ∨ memRead m a = none) : readCell len m a s = .fault .unwrittenCell := by
  have hb : readBelow len m a = none := by
    rcases h with h | h
    · exact readBelow_ge m h
    · unfold readBelow
      split
      · exact h
      · rfl
  simp [readCell, hr, hf, hb]

/-- While the engine runs no cell is read. -/
theorem readCell_running {n len a : Nat} {m : Memory (BitVec n)} (hr : running s = true) :
    readCell len m a s = .refused .hostAccess := if_pos hr

/-- In FAULT a cell answers a free value of its width. -/
theorem readCell_fault {n len a : Nat} {m : Memory (BitVec n)} (hf : s.status = .fault) :
    readCell len m a s = .next (replyFree (2 ^ n) s) := by
  have hr : running s = false := by simp [running, hf]
  simp [readCell, hr, hf]

/-! ### Writes -/

/-- A register write while IDLE. -/
theorem whileIdle_idle (f : State → State) (h : s.status = .idle) : whileIdle f s = f s := if_pos h

/-- A register write in any other state. -/
theorem whileIdle_ignored (f : State → State) (h : s.status ≠ .idle) : whileIdle f s = s := if_neg h

end

/-- Settles O51: the cases of `writeCtrl`, and `readRegister_specified` for the two registers. -/
theorem controlRegisterBits : Obligations.ControlRegisterBits := by
  unfold Obligations.ControlRegisterBits
  refine ⟨fun s v rest h => ?_, fun s rest h => ?_, fun s rest h => ?_⟩
  · rw [step_hostMove h (by simp)]
    refine ⟨?_, ?_, ?_, ?_⟩
    · rintro (rfl | rfl) <;> rfl
    · rintro rfl hs
      simp [hostMove, writeCtrl, hs]
    · rintro rfl hs
      simp [hostMove, writeCtrl, hs]
    · rintro rfl
      rfl
  · rw [step_hostMove h (by simp)]
    exact readRegister_specified rfl
  · refine ⟨(EngineState.number s.status).toNat, ?_, ?_, ?_⟩
    · cases s.status <;> decide
    · rw [step_hostMove h (by simp)]
      exact readRegister_specified rfl
    · cases s.status <;> decide

/-- Settles O52: a register write is `whileIdle`, a write of IN is `memWrite`. -/
theorem hostWritesActOnlyWhileIdle : Obligations.HostWritesActOnlyWhileIdle := by
  unfold Obligations.HostWritesActOnlyWhileIdle
  intro s rest
  refine ⟨fun n h hn => ?_, fun v h => ?_, fun n h hn => ?_, fun v h => ?_, fun v h => ?_, fun a b h hs ha => ?_,
    fun a b h hs => ?_⟩
  all_goals rw [step_hostMove h (by simp)]
  · by_cases hs : s.status = .idle <;> simp [hostMove, hn, whileIdle_idle, whileIdle_ignored, hs]
  · by_cases hs : s.status = .idle <;> simp [hostMove, whileIdle_idle, whileIdle_ignored, hs]
  · by_cases hs : s.status = .idle <;> simp [hostMove, hn, whileIdle_idle, whileIdle_ignored, hs]
  · by_cases hs : s.status = .idle <;> simp [hostMove, whileIdle_idle, whileIdle_ignored, hs]
  · by_cases hs : s.status = .idle <;> simp [hostMove, whileIdle_idle, whileIdle_ignored, hs]
  · refine ⟨{ s with hostQueue := rest, inMem := memWrite s.inMem a b }, ?_, memRead_memWrite_same _ _ _,
      fun k hk => memRead_memWrite_other _ _ hk, rfl⟩
    simp [hostMove, writeInCell, hs, ha]
  · simp [hostMove, writeInCell, hs]

/-- Settles O54: the four parts are the lemmas on `readRegister` and `readCell`, by STATE. -/
theorem hostReadsByState : Obligations.HostReadsByState := by
  unfold Obligations.HostReadsByState
  intro s rest
  let q : State := { s with hostQueue := rest }
  refine ⟨fun h => ?_, fun h => ?_, fun hf r v hv h => ?_, fun hs a ha h => ?_, fun hs => ?_, fun hf => ?_⟩
  · rw [step_hostMove h (by simp)]
    exact readRegister_specified rfl
  · rw [step_hostMove h (by simp)]
    exact readRegister_specified rfl
  · rw [step_hostMove h (by simp)]
    rcases hv with ⟨rfl, rfl⟩ | ⟨rfl, rfl⟩ | ⟨rfl, rfl⟩ | ⟨rfl, rfl⟩ | ⟨rfl, rfl⟩ <;>
      exact readRegister_value hf (fun hr => nomatch hr)
  · have hr : running q = true := by rcases hs with hs | hs <;> simp [running, q, hs]
    have hf : q.status ≠ .fault := by rcases hs with hs | hs <;> simp [q, hs]
    rw [step_hostMove h (by rcases ha with rfl | rfl | rfl | ⟨k, rfl⟩ | ⟨k, rfl⟩ | ⟨k, rfl⟩ <;> simp)]
    rcases ha with rfl | rfl | rfl | ⟨k, rfl⟩ | ⟨k, rfl⟩ | ⟨k, rfl⟩
    · exact readRegister_running hf rfl hr
    · exact readRegister_running hf rfl hr
    · exact readRegister_running hf rfl hr
    · exact readCell_running hr
    · exact readCell_running hr
    · exact readCell_running hr
  · have hr : running q = false := by rcases hs with hs | hs <;> simp [running, q, hs]
    have hf : q.status ≠ .fault := by rcases hs with hs | hs <;> simp [q, hs]
    refine ⟨fun r v hv h => ?_, fun a v h ha hv => ?_, fun a v h ha hv => ?_, fun a v h ha hv => ?_, fun a ha => ?_⟩
    · rw [step_hostMove h (by simp)]
      rcases hv with ⟨rfl, rfl⟩ | ⟨rfl, rfl⟩ | ⟨rfl, rfl⟩ <;> exact readRegister_value hf fun _ => hr
    · rw [step_hostMove h (by simp)]
      exact readCell_value hr hf ha hv
    · rw [step_hostMove h (by simp)]
      exact readCell_value hr hf ha hv
    · rw [step_hostMove h (by simp)]
      exact readCell_value hr hf ha hv
    · rcases ha with ⟨h, hu⟩ | ⟨h, hu⟩ | ⟨h, hu⟩ <;> rw [step_hostMove h (by simp)] <;> exact readCell_unwritten hr hf hu
  · have hfree (n : Nat) : Config.freeReading s.freeCount % 2 ^ n < 2 ^ n := Nat.mod_lt _ (Nat.two_pow_pos n)
    refine ⟨fun r hr h => ⟨Config.freeReading s.freeCount % 0, ?_⟩, fun a h => ⟨_, hfree 8, ?_⟩, fun a h => ⟨_, hfree 16, ?_⟩⟩
    · have hn : alwaysSpecified r = false := by
        clear h
        revert r
        decide
      rw [step_hostMove h (by simp)]
      exact readRegister_fault hf hn
    · rcases h with h | h <;> rw [step_hostMove h (by simp)] <;> exact readCell_fault hf
    · rw [step_hostMove h (by simp)]
      exact readCell_fault hf

end Sys2Proof.Machine
end

section
/-! The invariant taken apart: what it says in every STATE (`Stored`), and what it adds while IDLE, in phase INFLATE, in phase
SCAN and at DONE. Each part is a condition of its own, and together they are `Inv` again. -/

namespace Sys2Proof.Machine

open Sys2Proof

/-- What Inv says in every STATE: the memories, the tables, the cursor and the lengths. -/
structure Stored (s : State) : Prop where
  inForm  : Memory.wf s.inMem = true
  outForm : cellsBelow s.outLen s.out
  pixForm : cellsBelow s.pixLen s.pix
  tables  : s.lens.length = 320 ∧ s.cllen.length = 19 ∧ s.lllen.length = 288 ∧ s.dlen.length = 32
  cursor  : CursorOk s
  limits  : withinLimit s.inLen s.cap.inCap = true ∧ withinLimit s.width s.cap.widthMax = true ∧
    withinLimit s.outLen s.cap.outCap = true ∧ withinLimit s.pixLen s.cap.pixCap = true

/-- IDLE: the cursor and the counters as reset left them. -/
structure AtRest (s : State) : Prop where
  status : s.status = .idle
  err    : s.err = .none
  pos    : s.pos = 0
  bitoff : s.bitoff = 8
  outLen : s.outLen = 0
  rows   : s.rows = 0
  pixLen : s.pixLen = 0

/-- Phase INFLATE: its points, and the working registers of the element read next. -/
structure Inflating (s : State) : Prop where
  status   : s.status = .inflate
  err      : s.err = .none
  config   : scanEnabled s = true → configOk s = true
  point    : inflatePoint s.point = true
  rows     : s.rows = 0
  pixLen   : s.pixLen = 0
  clcCount : s.point = .clcLengths → 4 ≤ s.ncl.toNat ∧ s.ncl.toNat ≤ 19
  counts   : s.point = .clcLengths ∨ s.point = .codeLengths →
    257 ≤ s.nlit.toNat ∧ s.nlit.toNat ≤ 288 ∧ 1 ≤ s.ndist.toNat ∧ s.ndist.toNat ≤ 32
  list     : s.point = .codeLengths → s.lidx ≤ listTotal s
  length   : s.point = .distance → 3 ≤ s.len.toNat ∧ s.len.toNat ≤ 258

/-- Phase SCAN. -/
structure Scanning (s : State) : Prop where
  status : s.status = .scan
  err    : s.err = .none
  config : scanEnabled s = true → configOk s = true
  final  : s.bfinal = 1
  row    : ScanOk s

/-- DONE. -/
structure Finished (s : State) : Prop where
  status : s.status = .done
  err    : s.err = .none
  config : scanEnabled s = true → configOk s = true
  final  : s.bfinal = 1
  whole  : scanEnabled s = true → s.outLen = s.rows * (rowBytesOf s + 1) ∧ s.pixLen = s.rows * samplesPerRow s

section
variable {s t : State}

/-! ### From Inv to its parts -/

theorem Inv.stored (h : Inv s) : Stored s := { h with }

theorem Inv.atRest (h : Inv s) (hs : s.status = .idle) : AtRest s := by
  obtain ⟨h1, h2, h3, h4, h5⟩ := h.idle hs
  exact ⟨hs, h.err.mpr (by simp [hs]), h1, h2, h3, h4, h5⟩

theorem Inv.inflating (h : Inv s) (hs : s.status = .inflate) : Inflating s := by
  obtain ⟨hp, hr, hx⟩ := h.inflate hs
  exact ⟨hs, h.err.mpr (by simp [hs]), h.config (.inl hs), hp, hr, hx, h.clcCount hs, h.counts hs, h.list hs, h.length hs⟩

theorem Inv.scanning (h : Inv s) (hs : s.status = .scan) : Scanning s :=
  ⟨hs, h.err.mpr (by simp [hs]), h.config (.inr (.inl hs)), h.final (.inl hs), h.scan hs⟩

/-! ### From the parts to Inv -/

theorem Stored.inv_of_atRest (hs : Stored s) (h : AtRest s) : Inv s :=
  { hs with
    err := by simp [h.status, h.err]
    idle := fun _ => ⟨h.pos, h.bitoff, h.outLen, h.rows, h.pixLen⟩
    config := by simp [h.status]
    final := by simp [h.status]
    inflate := by simp [h.status]
    clcCount := by simp [h.status]
    counts := by simp [h.status]
    list := by simp [h.status]
    length := by simp [h.status]
    scan := by simp [h.status]
    finished := by simp [h.status] }

theorem Stored.inv_of_inflating (hs : Stored s) (h : Inflating s) : Inv s :=
  { hs with
    err := by simp [h.status, h.err]
    idle := by simp [h.status]
    config := fun _ => h.config
    final := by simp [h.status]
    inflate := fun _ => ⟨h.point, h.rows, h.pixLen⟩
    clcCount := fun _ => h.clcCount
    counts := fun _ => h.counts
    list := fun _ => h.list
    length := fun _ => h.length
    scan := by simp [h.status]
    finished := by simp [h.status] }

theorem Stored.inv_of_scanning (hs : Stored s) (h : Scanning s) : Inv s :=
  { hs with
    err := by simp [h.status, h.err]
    idle := by simp [h.status]
    config := fun _ => h.config
    final := fun _ => h.final
    inflate := by simp [h.status]
    clcCount := by simp [h.status]
    counts := by simp [h.status]
    list := by simp [h.status]
    length := by simp [h.status]
    scan := fun _ => h.row
    finished := by simp [h.status] }

theorem Stored.inv_of_finished (hs : Stored s) (h : Finished s) : Inv s :=
  { hs with
    err := by simp [h.status, h.err]
    idle := by simp [h.status]
    config := fun _ => h.config
    final := fun _ => h.final
    inflate := by simp [h.status]
    clcCount := by simp [h.status]
    counts := by simp [h.status]
    list := by simp [h.status]
    length := by simp [h.status]
    scan := by simp [h.status]
    finished := fun _ => h.whole }

/-- In FAULT Inv says nothing more but that ERR holds a kind. -/
theorem Stored.inv_of_fault (hs : Stored s) (h : s.status = .fault) (he : s.err ≠ .none) : Inv s :=
  { hs with
    err := by simp [h, he]
    idle := by simp [h]
    config := by simp [h]
    final := by simp [h]
    inflate := by simp [h]
    clcCount := by simp [h]
    counts := by simp [h]
    list := by simp [h]
    length := by simp [h]
    scan := by simp [h]
    finished := by simp [h] }

/-! ### The cursor -/

/-- A cursor before its first load is sound. -/
theorem CursorOk.of_fresh (hp : s.pos = 0) (hb : s.bitoff = 8) : CursorOk s where
  offset := hb.le
  inside := by omega
  fresh _ := hb
  lookahead h := by omega

/-- Soundness of the cursor depends on the cursor and IN only. -/
theorem CursorOk.congr (h : CursorOk s) (hf : fetchRegisters t = fetchRegisters s) (hc : inputAndConfig t = inputAndConfig s) :
    CursorOk t := by
  simp only [fetchRegisters, inputAndConfig, Prod.mk.injEq] at hf hc
  obtain ⟨hp, hl, hb, -⟩ := hf
  obtain ⟨hm, hn, -⟩ := hc
  constructor
  · rw [hb]; exact h.offset
  · rw [hp, hn]; exact h.inside
  · rw [hp, hb]; exact h.fresh
  · rw [hp, hl, hb, hm]; exact h.lookahead

/-- A bit read keeps the cursor sound, whatever of IN is written. -/
theorem readBit_cursorOk (h : CursorOk s) : CursorOk (sourceOf (readBit s)) := by
  have hoff := h.offset
  rcases readBit_cases s with ⟨h8, hr⟩ | ⟨_, _, hr⟩ | ⟨_, _, _, hr⟩ | ⟨v, _, hp, hm, hr⟩ <;> rw [hr]
  · exact { offset := by show s.bitoff + 1 ≤ 8; omega
            inside := h.inside
            fresh := fun h0 => absurd (h.fresh h0) h8
            lookahead := fun _ => h.lookahead (by omega) }
  · exact h
  · exact h
  · exact { offset := by show 1 ≤ 8; omega
            inside := hp
            fresh := fun h0 => absurd h0 (Nat.succ_ne_zero s.pos)
            lookahead := fun _ => hm }

/-- A decode keeps the cursor sound. -/
theorem decode_cursorOk (c : Context) (h : CursorOk s) : CursorOk (sourceOf (decode readBit c s)) :=
  decode_preserves (fun _ => readBit_cursorOk) c h

end

/-- The reset of a reset state is that state. -/
theorem resetCore_reset : resetCore State.reset = State.reset := rfl

/-- A reset state meets Inv: it is at rest, its memories are empty and its tables have their sizes. -/
theorem resetCore_inv (s : State) : Inv (resetCore s) := by
  have zero_within : ∀ c : Option Nat, withinLimit 0 c = true := fun c => by cases c <;> simp
  have hs : Stored (resetCore s) :=
    { inForm := rfl
      outForm := rfl
      pixForm := rfl
      tables := ⟨List.length_replicate, List.length_replicate, List.length_replicate, List.length_replicate⟩
      cursor := .of_fresh rfl rfl
      limits := ⟨zero_within _, zero_within _, zero_within _, zero_within _⟩ }
  exact hs.inv_of_atRest ⟨rfl, rfl, rfl, rfl, rfl, rfl, rfl⟩

/-- Settles O56: `resetCore_inv`; State.reset is a reset state. -/
theorem resetMeetsTheInvariant : Obligations.ResetMeetsTheInvariant := by
  unfold Obligations.ResetMeetsTheInvariant
  exact ⟨resetCore_reset ▸ resetCore_inv State.reset, resetCore_inv⟩

end Sys2Proof.Machine
end

section
/-! What Inv says in every STATE, the engine keeps: `engineMove_stored`. -/

namespace Sys2Proof.Machine

open Sys2Proof

/-- The sizes of LENS, CLLEN, LLLEN and DLEN. -/
def tableSizes (s : State) : Nat × Nat × Nat × Nat := (s.lens.length, s.cllen.length, s.lllen.length, s.dlen.length)

section
variable {i : Instr} {s t u : State}

theorem fixedLL_length : fixedLL.length = 288 := by simp [fixedLL]

theorem fixedD_length : fixedD.length = 32 := by simp [fixedD]

/-- The end of a block changes no table. -/
theorem blockEnd_tableSizes (s : State) : tableSizes (blockEnd s) = tableSizes s := by
  unfold blockEnd
  split
  · split <;> rfl
  · rfl

/-- The end of the scanlines changes no table. -/
theorem scanEnd_tableSizes (s : State) : tableSizes (scanEnd s) = tableSizes s := by
  unfold scanEnd
  split <;> rfl

/-- The split of LENS fills tables of their sizes. -/
theorem splitLens_tableSizes (s : State) : tableSizes (splitLens s) = (s.lens.length, s.cllen.length, 288, 32) := by
  simp [tableSizes, splitLens]

/-- No element changes the size of a table, those of a fixed block and CLLEN having the sizes of 10 R29. -/
theorem Effect.tableSizes_eq (h : Effect i s t) (hs : tableSizes s = (320, 19, 288, 32)) : tableSizes t = (320, 19, 288, 32) := by
  cases h with
  | fixed =>
    simp only [tableSizes, Prod.mk.injEq] at hs ⊢
    exact ⟨hs.1, hs.2.1, fixedLL_length, fixedD_length⟩
  | clcBad _ _ hT | clc _ _ hT =>
    simp only [tableSizes, Prod.mk.injEq] at hs ⊢
    exact ⟨hs.1, hT, hs.2.2⟩
  | lens _ hl _ _ ht =>
    rw [ht]
    simp only [tableSizes, Prod.mk.injEq] at hs ⊢
    exact ⟨hl.trans hs.1, hs.2⟩
  | eob => rwa [blockEnd_tableSizes]
  | copyFull _ _ _ hg | copy _ _ _ hg => exact (congrArg tableSizes hg.frame).trans hs
  | unpackFull _ hg | unpack _ _ hg => exact (congrArg tableSizes hg.frame).trans hs
  | header | dyn | counts | lensBad | litFull | lit | length | reserved | far | filter | filterBad => exact hs

/-- A fetch changes no table. -/
theorem fetchedState_tableSizes (h : sameButCursor s u) (d : Decoded) : tableSizes (fetchedState d u) = tableSizes s := by
  rw [fetched_frame h d]
  rfl

/-- No move of the engine changes the size of a table. -/
theorem engineMove_tableSizes (h : engineMove s = .next t) (hs : tableSizes s = (320, 19, 288, 32)) :
    tableSizes t = (320, 19, 288, 32) := by
  cases engineMove_cases h with
  | rest _ ht => rwa [ht]
  | listBad _ _ _ ht | listEnd _ _ _ ht =>
    simp only [tableSizes, Prod.mk.injEq] at hs
    refine (congrArg tableSizes ht).trans ((splitLens_tableSizes s).trans ?_)
    rw [hs.1, hs.2.1]
  | element _ _ _ d u _ hu _ ht => exact ht.tableSizes_eq ((fetchedState_tableSizes hu d).trans hs)
  | exhausted _ _ u _ hu ht | malformed _ _ u _ hu ht =>
    exact (congrArg tableSizes ht).trans ((congrArg tableSizes hu :).trans hs)
  | scanline _ _ _ _ _ _ ht => exact ht.tableSizes_eq hs
  | scanEnd _ _ _ ht => rwa [ht, scanEnd_tableSizes]
  | unpack _ _ _ _ _ ht => exact ht.tableSizes_eq hs

/-- An element keeps the cursor sound. -/
theorem Effect.cursorOk (h : Effect i s t) (hs : CursorOk s) : CursorOk t := hs.congr h.views.2.1 h.views.1

/-- The cursor an element runs on is as sound as the one behind its bits. -/
theorem fetchedState_cursorOk (h : CursorOk u) (d : Decoded) : CursorOk (fetchedState d u) := by
  rw [fetchedState_frame]
  exact ⟨h.offset, h.inside, h.fresh, h.lookahead⟩

/-- A move of the engine keeps the cursor sound. -/
theorem engineMove_cursorOk (h : engineMove s = .next t) (hs : CursorOk s) : CursorOk t := by
  have hu := decode_cursorOk (contextOf s) hs
  cases engineMove_cases h with
  | rest _ ht => rwa [ht]
  | listBad _ _ _ ht | listEnd _ _ _ ht =>
    exact hs.congr (congrArg fetchRegisters ht :) (congrArg inputAndConfig ht :)
  | element _ _ _ d u hd _ _ ht =>
    rw [hd] at hu
    exact ht.cursorOk (fetchedState_cursorOk hu d)
  | exhausted _ _ u hd _ ht | malformed _ _ u hd _ ht =>
    rw [hd] at hu
    exact CursorOk.congr hu (congrArg fetchRegisters ht :) (congrArg inputAndConfig ht :)
  | scanline _ _ _ ft _ _ ht => exact ht.cursorOk ⟨hs.offset, hs.inside, hs.fresh, hs.lookahead⟩
  | scanEnd _ _ _ ht => exact ht ▸ hs.congr (scanEnd_views s).2.1 (scanEnd_views s).1
  | unpack _ _ _ _ _ ht => exact ht.cursorOk hs

/-- A move of the engine keeps what Inv says in every STATE. -/
theorem engineMove_stored (h : engineMove s = .next t) (hs : Stored s) : Stored t := by
  obtain ⟨ho, hp⟩ := engineMove_stores h
  have hv := engineMove_inputAndConfig h
  have htab := engineMove_tableSizes h (by obtain ⟨h1, h2, h3, h4⟩ := hs.tables; simp [tableSizes, h1, h2, h3, h4])
  obtain ⟨hin, hwidth, hout, hpix⟩ := hs.limits
  simp only [inputAndConfig, tableSizes, Prod.mk.injEq] at hv htab
  obtain ⟨hm, hn, -, hw, -, -, hc⟩ := hv
  exact {
    inForm := by rw [hm]; exact hs.inForm
    outForm := ho.filled hs.outForm
    pixForm := hp.filled hs.pixForm
    tables := htab
    cursor := engineMove_cursorOk h hs.cursor
    limits := ⟨by rw [hn, hc]; exact hin, by rw [hw, hc]; exact hwidth, ho.room hout, hp.room hpix⟩ }

end
end Sys2Proof.Machine
end

section
/-! Phase by phase, an element leaves what Inv says of the element read next: `Effect.inv_of_inflating`, `Effect.inv_of_scanning`;
then the moves that are no element, and `engineMove_inv`. -/

namespace Sys2Proof.Machine

open Sys2Proof

/-- The format of the element read at a point. -/
def Point.format : Point → Format
  | .header => .bhdr
  | .dynHeader => .dynhdr
  | .clcLengths => .clclen
  | .codeLengths => .cl
  | .symbols => .ll
  | .distance => .d
  | .scanline => .scanline
  | .unpack => .unpack

/-- The context at a point reads the point's format. -/
theorem contextOf_format (s : State) : (contextOf s).format = s.point.format := by
  unfold contextOf
  cases s.point <;> rfl

/-- An element's format tells the point it was read at. -/
theorem Point.format_injective {p q : Point} : p.format = q.format → p = q := by
  cases p <;> cases q <;> decide

/-- What the conditions of phase INFLATE say of no particular element looks only at these. -/
def phaseView (s : State) : EngineState × ErrKind × Nat × Nat × BitVec 1 × Nat × BitVec 5 × BitVec 3 :=
  (s.status, s.err, s.rows, s.pixLen, s.mode, s.width, s.bitdepth, s.planes)

section
variable {i : Instr} {s t u : State}

/-- At a point whose element needs nothing of the working registers, phase INFLATE goes on. -/
theorem Inflating.moved (h : Inflating s) (hv : phaseView t = phaseView s)
    (hp : t.point = .header ∨ t.point = .dynHeader ∨ t.point = .symbols) : Inflating t := by
  simp only [phaseView, Prod.mk.injEq] at hv
  obtain ⟨hs, he, hr, hx, hm, hw, hd, hpl⟩ := hv
  have hpt : inflatePoint t.point = true ∧ t.point ≠ .clcLengths ∧ t.point ≠ .codeLengths ∧ t.point ≠ .distance := by
    rcases hp with hp | hp | hp <;> simp [hp, inflatePoint]
  obtain ⟨hi, h1, h2, h3⟩ := hpt
  exact {
    status := hs.trans h.status
    err := he.trans h.err
    config := by
      have := h.config
      simpa only [scanEnabled, configOk, hm, hw, hd, hpl] using this
    point := hi
    rows := hr.trans h.rows
    pixLen := hx.trans h.pixLen
    clcCount := fun hc => absurd hc h1
    counts := fun hc => hc.elim (fun hc => absurd hc h1) (fun hc => absurd hc h2)
    list := fun hc => absurd hc h2
    length := fun hc => absurd hc h3 }

/-- The block loop after EOB: the next header, phase SCAN with the row geometry and no row done, or DONE. -/
theorem blockEnd_inv (hst : Stored (blockEnd s)) (h : Inflating s) : Inv (blockEnd s) := by
  unfold blockEnd at hst ⊢
  split at hst
  · rename_i hf
    have hfin : s.bfinal = 1 := by simpa [finalBlock] using hf
    rw [if_pos hf]
    split at hst
    · rename_i he
      rw [if_pos he]
      exact hst.inv_of_scanning {
        status := rfl
        err := h.err
        config := h.config
        final := hfin
        row := {
          enabled := he
          bytes := rfl
          unit := rfl
          prior := List.length_replicate
          rptr := by simp [h.rows]
          bound := Nat.zero_le _
          pixels := by simp [h.rows, h.pixLen]
          point := rfl
          row := fun hc => nomatch hc } }
    · rename_i he
      rw [if_neg he]
      exact hst.inv_of_finished {
        status := rfl
        err := h.err
        config := h.config
        final := hfin
        whole := fun hc => absurd hc he }
  · rename_i hf
    rw [if_neg hf]
    exact hst.inv_of_inflating (h.moved rfl (.inl rfl))

/-- An element of phase INFLATE leaves a state of the invariant. -/
theorem Effect.inv_of_inflating (h : Effect i s t) (hst : Stored t) (hi : Inflating s) (hf : i.format = s.point.format)
    (hl : s.point = .codeLengths → s.lidx < listTotal s) : Inv t := by
  cases h with
  | header | clcBad | lensBad | litFull | reserved | far | copyFull | filterBad | unpackFull =>
    exact hst.inv_of_fault rfl (by simp)
  | fixed => exact hst.inv_of_inflating (hi.moved rfl (.inr (.inr rfl)))
  | dyn => exact hst.inv_of_inflating (hi.moved rfl (.inr (.inl rfl)))
  | counts l d c =>
    have hl := l.isLt
    have hd := d.isLt
    have hc := c.isLt
    exact hst.inv_of_inflating { hi with
      point := rfl
      clcCount := fun _ => by simp only [BitVec.toNat_ofNat]; omega
      counts := fun _ => by simp only [BitVec.toNat_ofNat]; omega
      list := fun hp => nomatch hp
      length := fun hp => nomatch hp }
  | clc =>
    have hp : s.point = .clcLengths := Point.format_injective hf.symm
    exact hst.inv_of_inflating { hi with
      point := rfl
      clcCount := fun hp => nomatch hp
      counts := fun _ => hi.counts (.inl hp)
      list := fun _ => Nat.zero_le _
      length := fun hp => nomatch hp }
  | lens hcl _ _ hb ht =>
    have hp : s.point = .codeLengths := Point.format_injective (hf.symm.trans hcl)
    have hle : t.lidx ≤ listTotal s := by
      rcases hb with ⟨n, -, hb⟩ | hb
      · have := hl hp
        omega
      · exact hb
    refine hst.inv_of_inflating ?_
    rw [ht]
    exact { hi with list := fun _ => hle }
  | lit =>
    have hp : s.point = .symbols := Point.format_injective hf.symm
    exact hst.inv_of_inflating (hi.moved rfl (.inr (.inr hp)))
  | eob => exact blockEnd_inv hst hi
  | length l hll h1 h2 h3 h4 =>
    exact hst.inv_of_inflating { hi with
      point := rfl
      clcCount := fun hp => nomatch hp
      counts := fun hp => by simp at hp
      list := fun hp => nomatch hp
      length := fun _ => by simp only [setLength_len, BitVec.toNat_ofNat]; omega }
  | copy _ _ _ hg => exact hst.inv_of_inflating (hi.moved (congrArg phaseView hg.frame :) (.inr (.inr rfl)))
  | filter _ hsc =>
    have hp : s.point = .scanline := Point.format_injective (hf.symm.trans hsc)
    have := hi.point
    rw [hp] at this
    cases this
  | unpack n hun =>
    have hp : s.point = .unpack := Point.format_injective (hf.symm.trans
      (by rcases hun with ⟨rfl, -⟩ | ⟨rfl, -⟩ | ⟨rfl | rfl | rfl, -⟩ <;> rfl))
    have := hi.point
    rw [hp] at this
    cases this

/-- Which element a BITDEPTH selects. -/
theorem unpackInstr_cases {n : Nat} (h : unpackInstr n = some i) :
    (n = 1 ∧ i = .unpk1) ∨ (n = 2 ∧ i = .unpk2) ∨ (n = 4 ∧ i = .unpk4) ∨ (n = 8 ∧ i = .unpk8) ∨ (n = 16 ∧ i = .unpk16) := by
  unfold unpackInstr at h
  split_ifs at h <;> cases h <;> simp [*]

/-- The unpack element of a depth is of the format of unpacks. -/
theorem unpackInstr_format {n : Nat} (h : unpackInstr n = some i) : i.format = .unpack := by
  rcases unpackInstr_cases h with ⟨-, rfl⟩ | ⟨-, rfl⟩ | ⟨-, rfl⟩ | ⟨-, rfl⟩ | ⟨-, rfl⟩ <;> rfl

/-- The scanline element of a byte is of the format of scanlines. -/
theorem scanlineInstr_format (n : Nat) : (scanlineInstr n).format = .scanline := by
  unfold scanlineInstr
  split_ifs <;> rfl

/-- Below 8 bits a legal configuration has one plane (60 R347). -/
theorem configOk_planes (h : configOk s = true) (hd : s.bitdepth.toNat < 8) : s.planes.toNat = 1 := by
  simp only [configOk, Bool.and_eq_true, Bool.or_eq_true, decide_eq_true_eq, beq_iff_eq] at h
  rcases h.2 with h8 | hp
  · omega
  · rw [hp]
    rfl

/-- An UNPACK emits the samples of a row: WIDTH * PLANES of them in every legal configuration (45 R320 to R325). -/
theorem samples_of_row {n : Nat} (hc : configOk s = true) (hb : s.rowbytes = rowBytesOf s)
    (hi : unpackInstr s.bitdepth.toNat = some i)
    (hn : (i = .unpk8 ∧ n = s.rowbytes) ∨ (i = .unpk16 ∧ n = s.rowbytes / 2) ∨
      ((i = .unpk1 ∨ i = .unpk2 ∨ i = .unpk4) ∧ n = s.width)) : n = samplesPerRow s := by
  unfold rowBytesOf bppBits at hb
  unfold samplesPerRow
  have narrow (hd : s.bitdepth.toNat < 8) (hw : n = s.width) : n = s.width * s.planes.toNat := by
    rw [hw, configOk_planes hc hd, Nat.mul_one]
  rcases unpackInstr_cases hi with ⟨hd, rfl⟩ | ⟨hd, rfl⟩ | ⟨hd, rfl⟩ | ⟨hd, rfl⟩ | ⟨hd, rfl⟩ <;> simp at hn
  · exact narrow (by omega) hn
  · exact narrow (by omega) hn
  · exact narrow (by omega) hn
  · rw [hd, Nat.mul_left_comm] at hb
    omega
  · rw [hd, Nat.mul_left_comm] at hb
    omega

/-- A scanline or an unpack element of phase SCAN leaves a state of the invariant. -/
theorem Effect.inv_of_scanning (h : Effect i s t) (hst : Stored t) (hs : Scanning s) (hf : i.format = .scanline ∨ i.format = .unpack)
    (hl : i.format = .scanline → s.rptr + s.rowbytes + 1 ≤ s.outLen)
    (hu : i.format = .unpack → s.point = .unpack ∧ unpackInstr s.bitdepth.toNat = some i) : Inv t := by
  have hrow := hs.row
  cases h with
  | header | clcBad | lensBad | litFull | reserved | far | copyFull | filterBad | unpackFull =>
    exact hst.inv_of_fault rfl (by simp)
  | fixed | dyn | counts | clc | lit | eob => simp [Instr.format] at hf
  | lens hcl => simp [hcl] at hf
  | length _ hll => simp [hll] at hf
  | copy _ hd => simp [format_of_distanceOf hd] at hf
  | filter row hsc hlen =>
    exact hst.inv_of_scanning { hs with
      row := { hrow with
        point := rfl
        row := fun _ => ⟨hlen, hl hsc⟩ } }
  | unpack n hun hg hlen =>
    obtain ⟨hp, hi⟩ := hu (by rcases hun with ⟨rfl, -⟩ | ⟨rfl, -⟩ | ⟨rfl | rfl | rfl, -⟩ <;> rfl)
    obtain ⟨hcur, hbound⟩ := hrow.row hp
    have hcount := samples_of_row (hs.config hrow.enabled) hrow.bytes hi hun
    rename_i u
    obtain ⟨p, k, rfl⟩ : ∃ p k, u = { s with pix := p, pixLen := k } := ⟨_, _, hg.frame⟩
    exact hst.inv_of_scanning { hs with
      row := { hrow with
        prior := hcur
        rptr := by
          show s.rptr + s.rowbytes + 1 = (s.rows + 1) * (s.rowbytes + 1)
          rw [hrow.rptr]
          ring
        bound := hbound
        pixels := by
          show k = (s.rows + 1) * samplesPerRow s
          rw [show k = s.pixLen + n from hlen, hrow.pixels, hcount]
          ring
        point := rfl
        row := fun hc => nomatch hc } }

/-- The end of the scanlines: whole rows are DONE, a rest is a fault. -/
theorem scanEnd_inv (hst : Stored (scanEnd s)) (h : Scanning s) : Inv (scanEnd s) := by
  have hrow := h.row
  unfold scanEnd at hst ⊢
  split at hst
  · rename_i he
    rw [if_pos he]
    exact hst.inv_of_finished { h with
      status := rfl
      whole := fun _ => ⟨by show s.outLen = _; rw [← he, hrow.rptr, hrow.bytes]; rfl, hrow.pixels⟩ }
  · rename_i he
    rw [if_neg he]
    exact hst.inv_of_fault rfl (by simp)

/-- A fetch leaves the conditions of phase INFLATE. -/
theorem fetchedState_inflating (h : sameButCursor s u) (d : Decoded) (hi : Inflating s) : Inflating (fetchedState d u) := by
  rw [fetched_frame h d]
  exact { hi with }

/-- A fetch leaves the point and the place in the code-length list. -/
theorem fetchedState_place (h : sameButCursor s u) (d : Decoded) :
    (fetchedState d u).point = s.point ∧ (fetchedState d u).lidx = s.lidx ∧ listTotal (fetchedState d u) = listTotal s := by
  rw [fetched_frame h d]
  exact ⟨rfl, rfl, rfl⟩

/-- The engine running at a point of phase INFLATE is in that phase. -/
theorem Inv.inflating_of_point (h : Inv s) (hr : running s = true) (hp : inflatePoint s.point = true) : Inflating s := by
  simp only [running, Bool.or_eq_true, beq_iff_eq] at hr
  rcases hr with hr | hr
  · exact h.inflating hr
  · have := (h.scan hr).point
    rw [hp] at this
    cases this

/-- The engine running at a point of phase SCAN is in that phase. -/
theorem Inv.scanning_of_point (h : Inv s) (hr : running s = true) (hp : inflatePoint s.point = false) : Scanning s := by
  simp only [running, Bool.or_eq_true, beq_iff_eq] at hr
  rcases hr with hr | hr
  · have := (h.inflate hr).1
    rw [hp] at this
    cases this
  · exact h.scanning hr

/-- Every move of the engine keeps the invariant. -/
theorem engineMove_inv (h : engineMove s = .next t) (hs : Inv s) : Inv t := by
  have hst := engineMove_stored h hs.stored
  cases engineMove_cases h with
  | rest _ ht => exact ht ▸ hs
  | listBad _ _ _ ht | exhausted _ _ _ _ _ ht | malformed _ _ _ _ _ ht =>
    subst ht
    exact hst.inv_of_fault rfl (by simp)
  | listEnd hr hp _ ht =>
    subst ht
    have hi := hs.inflating_of_point hr (by rw [hp]; rfl)
    exact hst.inv_of_inflating (hi.moved rfl (.inr (.inr rfl)))
  | element hr hp hl d u hd hu _ ht =>
    obtain ⟨hpt, hx, htot⟩ := fetchedState_place hu d
    refine ht.inv_of_inflating hst (fetchedState_inflating hu d (hs.inflating_of_point hr hp)) ?_ ?_
    · rw [decode_format hd, contextOf_format, hpt]
    · rw [hpt, hx, htot]
      exact hl
  | scanline hr hp hl ft _ _ ht =>
    have hsc := hs.scanning_of_point hr (by rw [hp]; rfl)
    refine ht.inv_of_scanning hst { hsc with row := { hsc.row with } } (.inl (scanlineInstr_format _)) (fun _ => hl) ?_
    rw [scanlineInstr_format]
    exact fun hc => nomatch hc
  | scanEnd hr hp _ ht =>
    subst ht
    exact scanEnd_inv hst (hs.scanning_of_point hr (by rw [hp]; rfl))
  | unpack hr hp i hi _ ht =>
    have hsc := hs.scanning_of_point hr (by rw [hp]; rfl)
    refine ht.inv_of_scanning hst hsc (.inr (unpackInstr_format hi)) ?_ (fun _ => ⟨hp, hi⟩)
    rw [unpackInstr_format hi]
    exact fun hc => nomatch hc

end
end Sys2Proof.Machine
end

section
/-! The host keeps the invariant: it writes registers and IN only while IDLE, resets, starts, or reads. -/

namespace Sys2Proof.Machine

open Sys2Proof

section
variable {s t : State}

/-- The host's own fields of the model are none of Inv's concern. -/
theorem Inv.hostFields (h : Inv s) (q : List HostAction) (r : Option Nat) (n : Nat) :
    Inv { s with hostQueue := q, hostReply := r, freeCount := n } :=
  { h with
    cursor := { h.cursor with }
    scan := fun hs => { h.scan hs with } }

/-- A register write keeps Inv if it does while IDLE. -/
theorem whileIdle_inv {f : State → State} (h : Inv s) (hf : AtRest s → Inv (f s)) : Inv (whileIdle f s) := by
  by_cases hs : s.status = .idle
  · rw [whileIdle_idle f hs]
    exact hf (h.atRest hs)
  · rwa [whileIdle_ignored f hs]

/-- START keeps Inv: an illegal configuration faults, else phase INFLATE begins at a header with nothing produced. -/
theorem start_inv (h : Inv s) (hr : AtRest s) : Inv (start s) := by
  have hst := h.stored
  unfold start
  split
  · exact Stored.inv_of_fault { hst with cursor := { hst.cursor with } } rfl (by simp)
  · rename_i hc
    refine Stored.inv_of_inflating { hst with cursor := { hst.cursor with } } {
      status := rfl
      err := hr.err
      config := fun he => ?_
      point := rfl
      rows := hr.rows
      pixLen := hr.pixLen
      clcCount := fun hp => nomatch hp
      counts := fun hp => by simp at hp
      list := fun hp => nomatch hp
      length := fun hp => nomatch hp }
    have he' : scanEnabled s = true := he
    show configOk s = true
    simpa [he'] using hc

/-- A write of CTRL keeps Inv. -/
theorem writeCtrl_inv (h : Inv s) (v : BitVec 2) : Inv (writeCtrl v s) := by
  unfold writeCtrl
  split
  · exact resetCore_inv s
  · split
    · rename_i hv
      simp only [Bool.and_eq_true, beq_iff_eq] at hv
      exact start_inv h (h.atRest hv.2)
    · exact h

/-- A write of a cell of IN keeps Inv. -/
theorem writeInCell_inv {a : Nat} {b : Byte} (h : Inv s) (hm : writeInCell a b s = .next t) : Inv t := by
  unfold writeInCell at hm
  split at hm
  · rename_i hi
    split at hm <;> cases hm
    have hr := h.atRest hi
    exact Stored.inv_of_atRest { h.stored with
      inForm := memWrite_wf _ _ _ h.inForm
      cursor := .of_fresh hr.pos hr.bitoff } { hr with }
  · cases hm

/-- A host read of a register keeps Inv. -/
theorem readRegister_inv {r : HostReg} (h : Inv s) (hm : readRegister r s = .next t) : Inv t := by
  unfold readRegister at hm
  split_ifs at hm <;> cases hm <;> exact h.hostFields _ _ _

/-- A host read of a cell keeps Inv. -/
theorem readCell_inv {n len a : Nat} {m : Memory (BitVec n)} (h : Inv s) (hm : readCell len m a s = .next t) : Inv t := by
  unfold readCell at hm
  split_ifs at hm
  · cases hm
    exact h.hostFields _ _ _
  · split at hm <;> cases hm
    exact h.hostFields _ _ _

/-- Every move of the host keeps Inv. -/
theorem hostMove_inv {a : HostAction} (h : Inv s) (hm : hostMove a s = .next t) : Inv t := by
  have hst := h.stored
  obtain ⟨hin, hwidth, hout, hpix⟩ := hst.limits
  cases a with
  | ctrl v => cases hm; exact writeCtrl_inv h v
  | writeInLen n =>
    simp only [hostMove] at hm
    split at hm <;> cases hm
    rename_i hn
    exact whileIdle_inv h fun hr => Stored.inv_of_atRest
      { hst with cursor := .of_fresh hr.pos hr.bitoff, limits := ⟨hn, hwidth, hout, hpix⟩ } { hr with }
  | writeWidth n =>
    simp only [hostMove] at hm
    split at hm <;> cases hm
    rename_i hn
    exact whileIdle_inv h fun hr => Stored.inv_of_atRest
      { hst with cursor := .of_fresh hr.pos hr.bitoff, limits := ⟨hin, hn, hout, hpix⟩ } { hr with }
  | writeMode | writeBitdepth | writePlanes =>
    cases hm
    exact whileIdle_inv h fun hr => Stored.inv_of_atRest { hst with cursor := .of_fresh hr.pos hr.bitoff } { hr with }
  | writeIn => exact writeInCell_inv h hm
  | readReg => exact readRegister_inv h hm
  | readIn | readOut | readPix => exact readCell_inv h hm
  | elapse => cases hm; exact h

end

/-- Settles O57: a step is a move of the engine (`engineMove_inv`) or of the host (`hostMove_inv`); that a pending move is
taken from the queue is none of Inv's concern. -/
theorem everyStepKeepsTheInvariant : Obligations.EveryStepKeepsTheInvariant := by
  unfold Obligations.EveryStepKeepsTheInvariant
  intro s t hs h
  rcases step_cases h with ⟨-, he⟩ | ⟨q, -, he⟩ | ⟨a, q, -, -, hh⟩
  · exact engineMove_inv he hs
  · exact engineMove_inv he (hs.hostFields q s.hostReply s.freeCount)
  · exact hostMove_inv (hs.hostFields q s.hostReply s.freeCount) hh

end Sys2Proof.Machine
end

section
/-! Reading never stops for a reason of the model: a list of bits has no unwritten bit, and with tables of their alphabets'
sizes every symbol selects an element. -/

namespace Sys2Proof.Machine

open Sys2Proof

/-- A field of a list stops only where the list ends. -/
theorem readField_stop {n : Nat} {bits rest : List Bool} {w : Stop} (h : readField listReader n bits = .stop w rest) :
    w = .exhausted := by
  induction n generalizing bits with
  | zero => cases h
  | succ n ih =>
    cases bits with
    | nil => cases h; rfl
    | cons b bits =>
      rcases Got.andThen_eq_stop h with h | ⟨_, _, _, h⟩
      · cases h
      · rcases Got.andThen_eq_stop h with h | ⟨_, _, _, h⟩
        · exact ih h
        · cases h

/-- The fields of CLCLEN of a list stop only where the list ends. -/
theorem readLengths_stop {n : Nat} {bits rest : List Bool} {w : Stop} (h : readLengths listReader n bits = .stop w rest) :
    w = .exhausted := by
  induction n generalizing bits with
  | zero => cases h
  | succ n ih =>
    rcases Got.andThen_eq_stop h with h | ⟨_, _, _, h⟩
    · exact readField_stop h
    · rcases Got.andThen_eq_stop h with h | ⟨_, _, _, h⟩
      · exact ih h
      · cases h

/-- A walk over a list stops where the list ends or at an absent child (41 R157). -/
theorem walkCode_stop {codes : List CodeWord} {n code clen : Nat} {bits rest : List Bool} {w : Stop}
    (h : walkCode listReader codes n code clen bits = .stop w rest) : w = .exhausted ∨ w = .malformed := by
  induction n generalizing code clen bits with
  | zero => cases h; exact .inr rfl
  | succ n ih =>
    cases bits with
    | nil => cases h; exact .inl rfl
    | cons b bits =>
      rw [walkCode_cons] at h
      split at h
      · cases h
      · split at h
        · exact ih h
        · cases h; exact .inr rfl

/-- An element with a code, where every symbol of the table selects one. -/
theorem codedElement_stop {T : List Nat} {maxl : Nat} {extra : Nat → Nat} {form : Nat → Nat → Option Instr}
    (hform : ∀ k, k < T.length → ∀ e, (form k e).isSome = true) {bits rest : List Bool} {w : Stop}
    (h : codedElement listReader T maxl extra form bits = .stop w rest) : w = .exhausted ∨ w = .malformed := by
  rcases Got.andThen_eq_stop h with h | ⟨v, u, hv, h⟩
  · exact walkCode_stop h
  · rcases Got.andThen_eq_stop h with h | ⟨e, x, _, h⟩
    · exact .inl (readField_stop h)
    · obtain ⟨-, -, hsym, -⟩ := (mem_codeWords T maxl v).mp (decodeSymbol_eq_got hv).1
      obtain ⟨i, hi⟩ := Option.isSome_iff_exists.mp (hform v.sym (List.getElem?_eq_some_iff.mp hsym).1 e)
      rw [hi] at h
      cases h

/-- The tables of a context have no more entries than their alphabet has symbols (41 R150); an unpack reads no stream. -/
def withinAlphabet : Context → Prop
  | .clSymbol T _ => T.length ≤ 19
  | .llSymbol T => T.length ≤ 288
  | .distance T => T.length ≤ 32
  | .unpack => False
  | _ => True

/-- Every code-length symbol selects an element. -/
theorem clInstr_isSome {k : Nat} (h : k < 19) (e : Nat) : (clInstr k e).isSome = true := by
  unfold clInstr
  split_ifs
  · rfl
  · rfl
  · rfl
  · rfl
  · omega

/-- Every literal/length symbol selects an element. -/
theorem llInstr_isSome {k : Nat} (h : k < 288) (e : Nat) : (llInstr k e).isSome = true := by
  unfold llInstr
  split_ifs
  · rfl
  · rfl
  · have : k - 257 < lengthForms.length := by show k - 257 < 29; omega
    simp [List.getElem?_eq_getElem this]
  · rfl
  · rfl
  · omega

/-- Every distance symbol selects an element. -/
theorem distanceInstr_isSome {k : Nat} (h : k < 32) (e : Nat) : (distanceInstr k e).isSome = true := by
  have : k < distanceForms.length := h
  simp [distanceInstr, List.getElem?_eq_getElem this]

/-- Decoding a list of bits stops for a reason of the CORE (40 R143, 41 R157). -/
theorem decodeBits_stop {c : Context} (hc : withinAlphabet c) {bits rest : List Bool} {w : Stop}
    (h : decodeBits c bits = .stop w rest) : w = .exhausted ∨ w = .malformed := by
  cases c with
  | header | scanline =>
    rcases Got.andThen_eq_stop h with h | ⟨_, _, _, h⟩
    · exact .inl (readField_stop h)
    · cases h
  | dynHeader =>
    rcases Got.andThen_eq_stop h with h | ⟨_, _, _, h⟩
    · exact .inl (readField_stop h)
    · rcases Got.andThen_eq_stop h with h | ⟨_, _, _, h⟩
      · exact .inl (readField_stop h)
      · rcases Got.andThen_eq_stop h with h | ⟨_, _, _, h⟩
        · exact .inl (readField_stop h)
        · cases h
  | clcLengths n =>
    rcases Got.andThen_eq_stop h with h | ⟨_, _, _, h⟩
    · exact .inl (readLengths_stop h)
    · cases h
  | clSymbol T p => exact codedElement_stop (fun k hk => clInstr_isSome (hk.trans_le hc)) h
  | llSymbol T => exact codedElement_stop (fun k hk => llInstr_isSome (hk.trans_le hc)) h
  | distance T => exact codedElement_stop (fun k hk => distanceInstr_isSome (hk.trans_le hc)) h
  | unpack => exact hc.elim

section
variable {s : State}

/-- The context at a point of phase INFLATE is within its alphabet, the tables having their sizes. -/
theorem contextOf_withinAlphabet (hs : Stored s) (hp : inflatePoint s.point = true) : withinAlphabet (contextOf s) := by
  obtain ⟨-, h1, h2, h3⟩ := hs.tables
  unfold contextOf
  cases h : s.point with
  | header | dynHeader | clcLengths | scanline => trivial
  | codeLengths => exact (List.length_map _).trans_le h1.le
  | symbols => exact (List.length_map _).trans_le h2.le
  | distance => exact (List.length_map _).trans_le h3.le
  | unpack =>
    rw [h] at hp
    cases hp

/-- Over written input the fetch stops for a reason of the CORE. -/
theorem decode_stop {c : Context} {t : State} {w : Stop} (hc : withinAlphabet c) (hcur : CursorOk s) (hw : InputWritten s)
    (h : decode readBit c s = .stop w t) : w = .exhausted ∨ w = .malformed := by
  have key := decode_unreadBits_agree (c := c) hcur hw
  rw [h] at key
  cases hd : decodeBits c (unreadBits s) with
  | got d rest => rw [hd] at key; exact key.elim
  | stop v rest =>
    rw [hd] at key
    rw [key.1]
    exact decodeBits_stop hc hd

end
end Sys2Proof.Machine
end

section
/-! Every element runs: no micro-operation stops the model where its cells are written. -/

namespace Sys2Proof.Machine

open Sys2Proof

/-- An act that goes on or raises a fault of the CORE. -/
def Act.Runs (a : Act) : Prop := ∀ r, a ≠ .stop r

/-- An act that runs answers a next state. -/
theorem Act.Runs.next {a : Act} (h : a.Runs) : ∃ t, a.outcome = .next t := by
  cases a with
  | go s => exact ⟨s, rfl⟩
  | raise k s => exact ⟨Sys2Proof.Machine.raise k s, rfl⟩
  | stop r => exact absurd rfl (h r)

theorem Act.runs_go (s : State) : (Act.go s).Runs := fun _ h => nomatch h

theorem Act.runs_raise (k : ErrKind) (s : State) : (Act.raise k s).Runs := fun _ h => nomatch h

/-- An act that runs, followed by acts that run. -/
theorem Act.Runs.andThen {a : Act} {f : State → Act} (h : a.Runs) (hf : ∀ s, (f s).Runs) : (a.andThen f).Runs := by
  cases a with
  | go s => exact hf s
  | raise k s => exact runs_raise k s
  | stop r => exact absurd rfl (h r)

section
variable {i : Instr} {s : State}

theorem append_runs (b : Byte) (s : State) : (append b s).Runs := by
  unfold append
  split
  · exact Act.runs_raise _ _
  · exact Act.runs_go _

theorem lensRun_runs (r : Nat) (v : BitVec 4) (s : State) : (lensRun r v s).Runs := by
  unfold lensRun
  split
  · exact Act.runs_raise _ _
  · exact Act.runs_go _

theorem zeroRun_runs (r : Nat) (s : State) : (zeroRun r s).Runs := (lensRun_runs r 0 s).andThen fun _ => Act.runs_go _

theorem buildCodeLengths_runs (s : State) : (buildCodeLengths s).Runs := by
  unfold buildCodeLengths
  split
  · exact Act.runs_raise _ _
  · exact Act.runs_go _

theorem buildSymbols_runs (s : State) : (buildSymbols s).Runs := by
  unfold buildSymbols
  split
  · exact Act.runs_raise _ _
  · split
    · exact Act.runs_raise _ _
    · exact Act.runs_go _

/-- The steps of COPY run while the distance stays within the bytes produced. -/
theorem copySteps_runs (n : Nat) (s : State) (hd : 1 ≤ s.dist.toNat) (hr : s.dist.toNat ≤ s.outLen)
    (hc : cellsBelow s.outLen s.out) : (copySteps n s).Runs := by
  induction n generalizing s with
  | zero => exact Act.runs_go s
  | succ n ih =>
    obtain ⟨b, hb⟩ := cellsBelow_read hc (a := s.outLen - s.dist.toNat) (by omega)
    simp only [copySteps, cellsBelow_readBelow hc, hb]
    rcases append_cases b s with ⟨-, ha⟩ | ⟨-, ha⟩ <;> rw [ha]
    · exact Act.runs_raise _ _
    · exact ih { s with out := memWrite s.out s.outLen b, outLen := s.outLen + 1 } hd (hr.trans (Nat.le_succ _))
        (cellsBelow_succ hc b)

/-- A copy runs: a distance beyond the bytes produced raises, any other stays within them. -/
theorem copyFrom_runs {d : Nat} (h1 : 1 ≤ d) (h2 : d ≤ 32768) (hc : cellsBelow s.outLen s.out) : (copyFrom d s).Runs := by
  by_cases hd : s.outLen < d
  · rw [copyFrom_far h2 hd]
    exact Act.runs_raise _ _
  · have hdn : (BitVec.ofNat 16 d).toNat = d := by
      rw [BitVec.toNat_ofNat]
      omega
    unfold copyFrom copy
    rw [if_neg (by show ¬s.outLen < (BitVec.ofNat 16 d).toNat; omega)]
    exact (copySteps_runs _ { s with dist := BitVec.ofNat 16 d } (by show 1 ≤ (BitVec.ofNat 16 d).toNat; omega)
      (by show (BitVec.ofNat 16 d).toNat ≤ s.outLen; omega) hc).andThen fun _ => Act.runs_go _

/-- A distance element runs where the bytes produced are written. -/
theorem exec_distance_next {d : Nat} (hi : distanceOf i = some d) (hc : cellsBelow s.outLen s.out) :
    ∃ t, exec i s = .next t := by
  obtain ⟨he, h1, h2⟩ := exec_distanceOf hi s
  rw [he]
  exact (copyFrom_runs h1 h2 hc).next

/-- Every element of the stream runs where the bytes produced are written. -/
theorem exec_stream_next (hs : i.format ≠ .scanline) (hu : i.format ≠ .unpack) (hc : cellsBelow s.outLen s.out) :
    ∃ t, exec i s = .next t := by
  cases i with
  | clclen fs => exact (buildCodeLengths_runs _).next
  | clRep e =>
    show ∃ t, execClRep e s = .next t
    unfold execClRep
    split
    · exact ⟨_, rfl⟩
    · exact (lensRun_runs _ _ s).next
  | clZ3 e | clZ11 e => exact (zeroRun_runs _ s).next
  | lit b => exact (append_runs b s).next
  | dist0 | dist1 | dist2 | dist3 => exact exec_distance_next rfl hc
  | dist4 e | dist5 e | dist6 e | dist7 e | dist8 e | dist9 e | dist10 e | dist11 e | dist12 e | dist13 e | dist14 e | dist15 e
  | dist16 e | dist17 e | dist18 e | dist19 e | dist20 e | dist21 e | dist22 e | dist23 e | dist24 e | dist25 e | dist26 e
  | dist27 e | dist28 e | dist29 e => exact exec_distance_next rfl hc
  | filtNone | filtSub | filtUp | filtAvg | filtPaeth | filtInv => exact absurd rfl hs
  | unpk1 | unpk2 | unpk4 | unpk8 | unpk16 => exact absurd rfl hu
  | _ => exact ⟨_, rfl⟩

/-! ### Scanlines and unpacks -/

/-- A filter with a predictor that answers wherever its neighbours do reconstructs the scanline. -/
theorem unfilter_next {pred : Neighbours → Option Byte} {p : Byte → Byte → Byte → Byte} (h : RowReady s)
    (hp : ∀ a b c, pred { a := some a, b := some b, c := some c } = some (p a b c)) :
    ∃ t, (unfilter pred s).outcome = .next t := by
  obtain ⟨row, -, hu⟩ := unfilter_row hp h
  rw [hu]
  exact ⟨_, rfl⟩

/-- Every scanline element runs on a complete scanline. -/
theorem exec_scanline_next (hi : i.format = .scanline) (h : RowReady s) : ∃ t, exec i s = .next t := by
  cases i with
  | filtNone => exact unfilter_next (p := fun _ _ _ => 0) h fun _ _ _ => rfl
  | filtSub => exact unfilter_next (p := fun a _ _ => a) h fun _ _ _ => rfl
  | filtUp => exact unfilter_next (p := fun _ b _ => b) h fun _ _ _ => rfl
  | filtAvg => exact unfilter_next (p := fun a b _ => average a b) h fun _ _ _ => rfl
  | filtPaeth => exact unfilter_next (p := paeth) h fun _ _ _ => rfl
  | filtInv ft => exact ⟨_, rfl⟩
  | _ => cases hi

/-- A run of EMIT runs where its samples are all there. -/
theorem emitFrom_runs (f : Nat → Option Sample) (n j : Nat) (s : State) (h : ∀ k, k < j + n → (f k).isSome = true) :
    (emitFrom f n j s).Runs := by
  induction n generalizing s j with
  | zero => exact Act.runs_go s
  | succ n ih =>
    obtain ⟨v, hv⟩ := Option.isSome_iff_exists.mp (h j (by omega))
    simp only [emitFrom, hv]
    rcases emit_cases v s with ⟨-, he⟩ | ⟨-, he⟩ <;> rw [he]
    · exact Act.runs_raise _ _
    · exact ih (j + 1) _ fun k hk => h k (by omega)

/-- An UNPACK runs where its samples are all there. -/
theorem unpackRow_next {sample : List Byte → Nat → Option Sample} {n : Nat}
    (h : ∀ k, k < n → (sample s.cur k).isSome = true) : ∃ t, (unpackRow sample n s).outcome = .next t :=
  ((emitFrom_runs _ n 0 s fun k hk => h k (by omega)).andThen fun _ => Act.runs_go _).next

/-- A sample that is a function of one byte of CUR is there if the byte is. -/
theorem isSome_map_getElem? {f : Byte → Sample} {l : List Byte} {k : Nat} (h : k < l.length) :
    ((l[k]?).map f).isSome = true := by
  rw [List.getElem?_eq_getElem h]
  rfl

/-- A sample at depth 16 is there if both its bytes are. -/
theorem sample16_isSome {l : List Byte} {k : Nat} (h : 2 * k + 1 < l.length) : (sample16 l k).isSome = true := by
  unfold sample16
  rw [List.getElem?_eq_getElem h, List.getElem?_eq_getElem (show 2 * k < l.length by omega)]
  rfl

/-- Every unpack element that a legal BITDEPTH selects runs on a whole row. -/
theorem exec_unpack_next (hc : configOk s = true) (hb : s.rowbytes = rowBytesOf s) (hr : s.cur.length = s.rowbytes)
    (hi : unpackInstr s.bitdepth.toNat = some i) : ∃ t, exec i s = .next t := by
  unfold rowBytesOf bppBits at hb
  rcases unpackInstr_cases hi with ⟨hd, rfl⟩ | ⟨hd, rfl⟩ | ⟨hd, rfl⟩ | ⟨hd, rfl⟩ | ⟨hd, rfl⟩
  · rw [hd, configOk_planes hc (by omega)] at hb
    exact unpackRow_next (sample := sample1) fun k hk => isSome_map_getElem? (by omega)
  · rw [hd, configOk_planes hc (by omega)] at hb
    exact unpackRow_next (sample := sample2) fun k hk => isSome_map_getElem? (by omega)
  · rw [hd, configOk_planes hc (by omega)] at hb
    exact unpackRow_next (sample := sample4) fun k hk => isSome_map_getElem? (by omega)
  · exact unpackRow_next (sample := sample8) fun k hk => isSome_map_getElem? (by omega)
  · exact unpackRow_next (sample := sample16) fun k hk => sample16_isSome (by omega)

/-- A legal configuration selects an unpack element. -/
theorem configOk_unpackInstr (h : configOk s = true) : ∃ i, unpackInstr s.bitdepth.toNat = some i := by
  have hl : legalDepth s.bitdepth = true := by
    simp only [configOk, Bool.and_eq_true] at h
    exact h.1.1.2
  simp only [legalDepth, Bool.or_eq_true, beq_iff_eq] at hl
  rcases hl with (((hl | hl) | hl) | hl) | hl <;> rw [hl] <;> exact ⟨_, rfl⟩

/-! ### The engine's move -/

theorem engineMove_of_run {t : State} (h : fetch s = .run i t) : engineMove s = exec i t := by
  unfold engineMove
  rw [h]

theorem engineMove_of_move {o : Host.Outcome State Fault Refusal} (h : fetch s = .move o) : engineMove s = o := by
  unfold engineMove
  rw [h]

/-- The points of phase INFLATE read neither a scanline nor a row. -/
theorem format_of_inflatePoint {p : Point} : inflatePoint p = true → p.format ≠ .scanline ∧ p.format ≠ .unpack := by
  cases p <;> decide

/-- At a point that reads the stream the engine's move completes. -/
theorem stream_next (hs : Stored s) (hw : InputWritten s) (hp : inflatePoint s.point = true) (hf : fetch s = fetchStream s) :
    ∃ t, engineMove s = .next t := by
  unfold fetchStream at hf
  cases hd : decode readBit (contextOf s) s with
  | got d u =>
    rw [hd] at hf
    have hu : sameButCursor s u := by
      have := decode_sameButCursor (contextOf s) s
      rwa [hd] at this
    have hfmt := format_of_inflatePoint hp
    rw [← contextOf_format, ← decode_format hd] at hfmt
    rw [engineMove_of_run hf]
    refine exec_stream_next hfmt.1 hfmt.2 ?_
    rw [fetched_frame hu d]
    exact hs.outForm
  | stop w u =>
    rw [hd] at hf
    rw [engineMove_of_move hf]
    rcases decode_stop (contextOf_withinAlphabet hs hp) hs.cursor hw hd with rfl | rfl <;> exact ⟨_, rfl⟩

/-- At a scanline or at the end of the scanlines the engine's move completes. -/
theorem scanline_next (hs : Stored s) (h : Scanning s) (hf : fetch s = fetchScanline s) : ∃ t, engineMove s = .next t := by
  have hrow := h.row
  by_cases hl : s.rptr + s.rowbytes + 1 ≤ s.outLen
  · obtain ⟨ft, hm⟩ := cellsBelow_read hs.outForm (a := s.rptr) (by omega)
    rw [engineMove_of_run (hf.trans (fetchScanline_run hl hm))]
    exact exec_scanline_next (scanlineInstr_format _)
      { unit := by show 1 ≤ s.fu; rw [hrow.unit]; exact Nat.le_max_left _ _
        prior := hrow.prior
        cells := hs.outForm
        row := hl }
  · rw [engineMove_of_move (hf.trans (fetchScanline_end (by omega)))]
    exact ⟨_, rfl⟩

/-- At an UNPACK the engine's move completes. -/
theorem unpack_next (h : Scanning s) (hp : s.point = .unpack) (hf : fetch s = fetchUnpack s) : ∃ t, engineMove s = .next t := by
  have hc := h.config h.row.enabled
  obtain ⟨i, hi⟩ := configOk_unpackInstr hc
  rw [fetchUnpack_eq, hi] at hf
  rw [engineMove_of_run hf]
  exact exec_unpack_next hc h.row.bytes (h.row.row hp).1 hi

end

/-- Settles O58: point by point, the fetch stops for a reason of the CORE only and every element fetched runs. -/
theorem engineNeverStopsOnWrittenInput : Obligations.EngineNeverStopsOnWrittenInput := by
  unfold Obligations.EngineNeverStopsOnWrittenInput
  intro s hinv hw
  have hs := hinv.stored
  cases hr : running s with
  | false => exact ⟨s, engineMove_of_move (if_neg (by simp [hr]))⟩
  | true =>
    have hf : fetch s = fetchAt s := if_pos hr
    unfold fetchAt at hf
    cases hp : s.point with
    | header | dynHeader | clcLengths | symbols | distance =>
      rw [hp] at hf
      exact stream_next hs hw (by rw [hp]; rfl) hf
    | codeLengths =>
      rw [hp] at hf
      by_cases hl : s.lidx < listTotal s
      · exact stream_next hs hw (by rw [hp]; rfl) (hf.trans (if_pos hl))
      · rw [engineMove_of_move (hf.trans (if_neg hl))]
        exact (buildSymbols_runs _).next
    | scanline =>
      rw [hp] at hf
      exact scanline_next hs (hinv.scanning_of_point hr (by rw [hp]; rfl)) hf
    | unpack =>
      rw [hp] at hf
      exact unpack_next (hinv.scanning_of_point hr (by rw [hp]; rfl)) hp hf

end Sys2Proof.Machine
end

section
/-! What the decoder makes of a number and an extra value has that number and that extra value, and every element is what the
decoder makes of its own: the decoder's forms and the encoder's fields are inverse (30 R102, R114). -/

namespace Sys2Proof.Machine

open Sys2Proof Sys2Proof.Laws

/-! ### From an element to its numbers and back -/

/-- The family `Reassemble` put together: a well-formed element is what the decoder makes of its number, extra value and
fields. -/
theorem reassemble : ∀ i : Instr, Reassemble.Statement i
  | .bhdrStored f => Reassemble.bhdrStored f | .bhdrFixed f => Reassemble.bhdrFixed f
  | .bhdrDyn f => Reassemble.bhdrDyn f | .bhdrRsv f => Reassemble.bhdrRsv f
  | .dynhdr l d c => Reassemble.dynhdr l d c | .clclen fs => Reassemble.clclen fs
  | .clLen n => Reassemble.clLen n | .clRep e => Reassemble.clRep e
  | .clZ3 e => Reassemble.clZ3 e | .clZ11 e => Reassemble.clZ11 e
  | .lit b => Reassemble.lit b | .eob => Reassemble.eob
  | .len257 => Reassemble.len257 | .len258 => Reassemble.len258 | .len259 => Reassemble.len259
  | .len260 => Reassemble.len260 | .len261 => Reassemble.len261 | .len262 => Reassemble.len262
  | .len263 => Reassemble.len263 | .len264 => Reassemble.len264 | .len265 e => Reassemble.len265 e
  | .len266 e => Reassemble.len266 e | .len267 e => Reassemble.len267 e | .len268 e => Reassemble.len268 e
  | .len269 e => Reassemble.len269 e | .len270 e => Reassemble.len270 e | .len271 e => Reassemble.len271 e
  | .len272 e => Reassemble.len272 e | .len273 e => Reassemble.len273 e | .len274 e => Reassemble.len274 e
  | .len275 e => Reassemble.len275 e | .len276 e => Reassemble.len276 e | .len277 e => Reassemble.len277 e
  | .len278 e => Reassemble.len278 e | .len279 e => Reassemble.len279 e | .len280 e => Reassemble.len280 e
  | .len281 e => Reassemble.len281 e | .len282 e => Reassemble.len282 e | .len283 e => Reassemble.len283 e
  | .len284 e => Reassemble.len284 e | .len285 => Reassemble.len285
  | .llrsv286 => Reassemble.llrsv286 | .llrsv287 => Reassemble.llrsv287
  | .dist0 => Reassemble.dist0 | .dist1 => Reassemble.dist1 | .dist2 => Reassemble.dist2 | .dist3 => Reassemble.dist3
  | .dist4 e => Reassemble.dist4 e | .dist5 e => Reassemble.dist5 e | .dist6 e => Reassemble.dist6 e
  | .dist7 e => Reassemble.dist7 e | .dist8 e => Reassemble.dist8 e | .dist9 e => Reassemble.dist9 e
  | .dist10 e => Reassemble.dist10 e | .dist11 e => Reassemble.dist11 e | .dist12 e => Reassemble.dist12 e
  | .dist13 e => Reassemble.dist13 e | .dist14 e => Reassemble.dist14 e | .dist15 e => Reassemble.dist15 e
  | .dist16 e => Reassemble.dist16 e | .dist17 e => Reassemble.dist17 e | .dist18 e => Reassemble.dist18 e
  | .dist19 e => Reassemble.dist19 e | .dist20 e => Reassemble.dist20 e | .dist21 e => Reassemble.dist21 e
  | .dist22 e => Reassemble.dist22 e | .dist23 e => Reassemble.dist23 e | .dist24 e => Reassemble.dist24 e
  | .dist25 e => Reassemble.dist25 e | .dist26 e => Reassemble.dist26 e | .dist27 e => Reassemble.dist27 e
  | .dist28 e => Reassemble.dist28 e | .dist29 e => Reassemble.dist29 e
  | .drsv30 => Reassemble.drsv30 | .drsv31 => Reassemble.drsv31
  | .filtNone => Reassemble.filtNone | .filtSub => Reassemble.filtSub | .filtUp => Reassemble.filtUp
  | .filtAvg => Reassemble.filtAvg | .filtPaeth => Reassemble.filtPaeth | .filtInv ft => Reassemble.filtInv ft
  | .unpk1 => Reassemble.unpk1 | .unpk2 => Reassemble.unpk2 | .unpk4 => Reassemble.unpk4
  | .unpk8 => Reassemble.unpk8 | .unpk16 => Reassemble.unpk16

/-- The same, with the format named. -/
theorem assemble_of_format {i : Instr} {f : Format} (hw : i.wellFormed = true) (hf : i.format = f) :
    Reassemble.assemble f i.number i.extra i.clcFields = some i := hf ▸ reassemble i hw

/-- The number of a header, of a scanline byte and of a depth fits in the field it is read from (30 R104, R118). -/
theorem number_lt (i : Instr) :
    (i.format = .bhdr → i.number < 2 ^ 3) ∧ (i.format = .scanline → i.number < 2 ^ 8) ∧
      (i.format = .unpack → i.number < 2 ^ 5) := by
  cases i with
  | bhdrStored f | bhdrFixed f | bhdrDyn f | bhdrRsv f =>
    have := f.isLt
    refine ⟨fun _ => ?_, nofun, nofun⟩
    simp only [Instr.number]
    omega
  | filtInv ft => exact ⟨nofun, fun _ => ft.isLt, nofun⟩
  | filtNone | filtSub | filtUp | filtAvg | filtPaeth => exact ⟨nofun, fun _ => by decide, nofun⟩
  | unpk1 | unpk2 | unpk4 | unpk8 | unpk16 => exact ⟨nofun, nofun, fun _ => by decide⟩
  | _ => exact ⟨nofun, nofun, nofun⟩

/-- The extra value of a symbol fits in the extra bits of the symbol, those of CL.REP being read after a previous length. -/
theorem extra_lt (i : Instr) :
    (i.format = .cl → i.extra < 2 ^ clExtra true i.number) ∧ (i.format = .ll → i.extra < 2 ^ lengthExtra i.number) ∧
      (i.format = .d → i.extra < 2 ^ distanceExtra i.number) := by
  cases i with
  | clRep e | clZ3 e | clZ11 e => exact ⟨fun _ => e.isLt, nofun, nofun⟩
  | clLen n => exact ⟨fun _ => Nat.two_pow_pos _, nofun, nofun⟩
  | len265 e | len266 e | len267 e | len268 e | len269 e | len270 e | len271 e | len272 e | len273 e | len274 e | len275 e
  | len276 e | len277 e | len278 e | len279 e | len280 e | len281 e | len282 e | len283 e | len284 e =>
    exact ⟨nofun, fun _ => by simpa [Instr.number, Instr.extra, lengthExtra, lengthTable] using e.isLt, nofun⟩
  | dist4 e | dist5 e | dist6 e | dist7 e | dist8 e | dist9 e | dist10 e | dist11 e | dist12 e | dist13 e | dist14 e
  | dist15 e | dist16 e | dist17 e | dist18 e | dist19 e | dist20 e | dist21 e | dist22 e | dist23 e | dist24 e | dist25 e
  | dist26 e | dist27 e | dist28 e | dist29 e => exact ⟨nofun, nofun, fun _ => e.isLt⟩
  | _ => exact ⟨nofun, fun _ => Nat.two_pow_pos _, fun _ => Nat.two_pow_pos _⟩

/-- Element `i` is well formed and has the number `k` and the extra value `e`. -/
structure HasNumbers (k e : Nat) (i : Instr) : Prop where
  wellFormed : i.wellFormed = true
  number     : i.number = k
  extra      : i.extra = e

/-- A header is the element of its field. -/
theorem headerInstr_number {w : Nat} (h : w < 2 ^ 3) : HasNumbers w 0 (headerInstr w) := by
  interval_cases w <;> exact ⟨rfl, rfl, rfl⟩

/-- A scanline is the element of its byte. -/
theorem scanlineInstr_number {ft : Nat} (h : ft < 2 ^ 8) : HasNumbers ft 0 (scanlineInstr ft) := by
  unfold scanlineInstr
  split_ifs with h0 h1 h2 h3 h4
  · exact ⟨rfl, h0.symm, rfl⟩
  · exact ⟨rfl, h1.symm, rfl⟩
  · exact ⟨rfl, h2.symm, rfl⟩
  · exact ⟨rfl, h3.symm, rfl⟩
  · exact ⟨rfl, h4.symm, rfl⟩
  · have hn : (BitVec.ofNat 8 ft).toNat = ft := Nat.mod_eq_of_lt h
    exact ⟨decide_eq_true (by omega), hn, rfl⟩

/-- An unpack is the element of its depth. -/
theorem unpackInstr_number {d : Nat} {i : Instr} (h : unpackInstr d = some i) : HasNumbers d 0 i := by
  rcases unpackInstr_cases h with ⟨rfl, rfl⟩ | ⟨rfl, rfl⟩ | ⟨rfl, rfl⟩ | ⟨rfl, rfl⟩ | ⟨rfl, rfl⟩ <;>
    exact ⟨rfl, rfl, rfl⟩

/-- A code-length element is that of its symbol and extra value. -/
theorem clInstr_numbers {p : Bool} {k e : Nat} {i : Instr} (h : clInstr k e = some i) (he : e < 2 ^ clExtra p k) :
    HasNumbers k e i := by
  unfold clInstr at h
  split_ifs at h with h15 h16 h17 h18 <;> cases h
  · have he0 : e < 2 ^ 0 := by rwa [clExtra, if_neg (by omega), if_neg (by omega), if_neg (by omega)] at he
    exact ⟨rfl, Nat.mod_eq_of_lt h15, by simp at he0; exact he0.symm⟩
  · subst h16
    exact ⟨rfl, rfl, Nat.mod_eq_of_lt (he.trans_le (Nat.pow_le_pow_right (by decide) (by cases p <;> decide)))⟩
  · subst h17
    exact ⟨rfl, rfl, Nat.mod_eq_of_lt he⟩
  · subst h18
    exact ⟨rfl, rfl, Nat.mod_eq_of_lt he⟩

/-- The length forms: number, and the extra value modulo its range. -/
theorem lengthForms_numbers {k : Nat} (hk : k < 29) (e : Nat) {f : Nat → Instr} (hf : lengthForms[k]? = some f) :
    HasNumbers (k + 257) (e % 2 ^ lengthExtra (k + 257)) (f e) := by
  interval_cases k <;> cases hf <;> exact ⟨rfl, rfl, by simp [Instr.extra, lengthExtra, lengthTable, Nat.mod_one]⟩

/-- The distance forms: number, and the extra value modulo its range. -/
theorem distanceForms_numbers {k : Nat} (hk : k < 32) (e : Nat) {f : Nat → Instr} (hf : distanceForms[k]? = some f) :
    HasNumbers k (e % 2 ^ distanceExtra k) (f e) := by
  interval_cases k <;> cases hf <;> exact ⟨rfl, rfl, by simp [Instr.extra, distanceExtra, distanceTable, Nat.mod_one]⟩

/-- A literal/length element is that of its symbol and extra value. -/
theorem llInstr_numbers {k e : Nat} {i : Instr} (h : llInstr k e = some i) (he : e < 2 ^ lengthExtra k) : HasNumbers k e i := by
  have none_of {k : Nat} (hk : lengthExtra k = 0) (he : e < 2 ^ lengthExtra k) : 0 = e := by
    rw [hk] at he
    omega
  unfold llInstr at h
  split_ifs at h with h255 h256 h285 h286 h287
  · cases h
    exact ⟨rfl, Nat.mod_eq_of_lt h255, none_of (if_pos (by omega)) he⟩
  · cases h
    subst h256
    exact ⟨rfl, rfl, none_of rfl he⟩
  · obtain ⟨k, rfl⟩ : ∃ j, k = j + 257 := ⟨k - 257, by omega⟩
    obtain ⟨f, hf, rfl⟩ := Option.map_eq_some_iff.mp h
    rw [Nat.add_sub_cancel] at hf
    have := lengthForms_numbers (by omega) e hf
    rwa [Nat.mod_eq_of_lt he] at this
  · cases h
    subst h286
    exact ⟨rfl, rfl, none_of rfl he⟩
  · cases h
    subst h287
    exact ⟨rfl, rfl, none_of rfl he⟩

/-- A distance element is that of its symbol and extra value. -/
theorem distanceInstr_numbers {k e : Nat} {i : Instr} (h : distanceInstr k e = some i) (he : e < 2 ^ distanceExtra k) :
    HasNumbers k e i := by
  obtain ⟨f, hf, rfl⟩ := Option.map_eq_some_iff.mp h
  have := distanceForms_numbers (List.getElem?_eq_some_iff.mp hf).1 e hf
  rwa [Nat.mod_eq_of_lt he] at this

end Sys2Proof.Machine
end

section
/-! Bits as the number a field of them holds, first bit least significant (30 R101). -/

namespace Sys2Proof.Machine

open Sys2Proof

/-- The value of the bits `bits` as a field. -/
def bitsValue : List Bool → Nat
  | [] => 0
  | b :: bits => b.toNat + 2 * bitsValue bits

/-- A field read of a list long enough for it answers the value of its bits. -/
theorem readField_listReader {n : Nat} {bits : List Bool} (h : n ≤ bits.length) :
    readField listReader n bits = .got (bitsValue (bits.take n)) (bits.drop n) := by
  induction n generalizing bits with
  | zero => rfl
  | succ n ih =>
    cases bits with
    | nil => simp at h
    | cons b bits =>
      simp only [readField, listReader, Got.andThen_got, ih (Nat.le_of_succ_le_succ h)]
      rfl

/-- The value fits in as many bits. -/
theorem bitsValue_lt (bits : List Bool) : bitsValue bits < 2 ^ bits.length := by
  induction bits with
  | nil => decide
  | cons b bits ih =>
    have := Bool.toNat_lt b
    rw [bitsValue, List.length_cons, Nat.pow_succ']
    omega

/-- Bit `k` of the value is bit `k` of the list, 0 behind its end. -/
theorem testBit_bitsValue (bits : List Bool) (k : Nat) : (bitsValue bits).testBit k = bits.getD k false := by
  induction bits generalizing k with
  | nil => simp [bitsValue]
  | cons b bits ih =>
    have hbit : bitsValue (b :: bits) = Nat.bit b (bitsValue bits) := by rw [bitsValue, Nat.bit_val, Nat.add_comm]
    cases k with
    | zero => rw [hbit, Nat.testBit_bit_zero]; rfl
    | succ k => rw [hbit, Nat.testBit_bit_succ, ih]; rfl

/-- The value is the sum of bit i times 2^i. -/
theorem bitsValue_map_range' (f : Nat → Bool) (a n : Nat) :
    bitsValue ((List.range' a n).map f) = ((List.range n).map fun i => (f (a + i)).toNat * 2 ^ i).sum := by
  induction n generalizing a with
  | zero => rfl
  | succ n ih =>
    rw [List.range'_succ, List.map_cons, bitsValue, ih, List.range_succ_eq_map, List.map_cons, List.sum_cons, List.map_map,
      ← List.sum_map_mul_left]
    congr 2
    · simp
    · refine List.map_congr_left fun i _ => ?_
      simp only [Function.comp_apply, Nat.succ_eq_add_one, Nat.pow_succ', show a + 1 + i = a + (i + 1) by omega]
      ring

end Sys2Proof.Machine
end

section
/-! The round trip of the encoding: an element that fits is read back from its encoding and a stream that ends inside the
encoding is exhausted (`readsAs_encode`); what a decode consumes is the encoding of what it answers (`decodeBits_eq_got`). -/

namespace Sys2Proof.Machine

open Sys2Proof Sys2Proof.Laws

section
variable {T : List Nat} {maxl : Nat} {extra : Nat → Nat} {form : Nat → Nat → Option Instr} {i : Instr}

/-! ### From the element to its bits -/

/-- An element selected by one field is read from it. -/
theorem readsAs_field {c : Context} {n v : Nat} {form : Nat → Option Instr}
    (hc : ∀ bits, decodeBits c bits = (readField listReader n bits).andThen fun v t => selected (form v) none t)
    (hv : v < 2 ^ n) (hi : form v = some i) : ReadsAs c (fieldBits n v) i := by
  refine ⟨fun rest => ⟨none, ?_⟩, fun k hk => ?_⟩
  · rw [hc, readField_fieldBits_lt hv, Got.andThen_got, hi]
    rfl
  · have hlen : ((fieldBits n v).take k).length < n := by
      rw [fieldBits_length] at hk
      rw [List.length_take]
      omega
    rw [hc, readField_exhausted hlen]
    rfl

/-- An element with a code in front is read from its code and its extra bits. -/
theorem codedElement_encode (hT : validTable T maxl) (hp : 0 < T.getD i.number 0) (he : i.extra < 2 ^ extra i.number)
    (hi : form i.number i.extra = some i) :
    (∀ rest, ∃ w, codedElement listReader T maxl extra form
      (symbolBits T maxl i.number ++ fieldBits (extra i.number) i.extra ++ rest) = .got { instr := i, walked := w } rest) ∧
    ∀ n, n < (symbolBits T maxl i.number ++ fieldBits (extra i.number) i.extra).length →
      codedElement listReader T maxl extra form
        ((symbolBits T maxl i.number ++ fieldBits (extra i.number) i.extra).take n) = .stop .exhausted [] := by
  obtain ⟨hmax, hT⟩ := hT
  obtain ⟨w, hw, hs, hb⟩ := symbolBits_eq hmax hp
  rw [← hs] at he hi
  rw [hb, ← hs]
  exact ⟨fun rest => ⟨some w, codedElement_got hT hw he hi rest⟩, fun n hn => codedElement_cut hT hw _ (by simpa using hn)⟩

/-- The 14 bits of DYNHDR are its three fields (30 R105). -/
theorem fieldBits_dynhdr (l d : BitVec 5) (c : BitVec 4) :
    fieldBits 14 (Instr.dynhdr l d c).number = fieldBits 5 l.toNat ++ fieldBits 5 d.toNat ++ fieldBits 4 c.toNat := by
  have hl := l.isLt
  have hd := d.isLt
  have field (n v u : Nat) (h : u % 2 ^ n = v) : fieldBits n u = fieldBits n v := by rw [← h, fieldBits_mod]
  rw [Instr.number, show 14 = 5 + (5 + 4) from rfl, fieldBits_add, fieldBits_add, List.append_assoc]
  congr 1
  · exact field _ _ _ (by omega)
  · congr 1
    · exact field _ _ _ (by omega)
    · congr 1
      omega

/-- DYNHDR is read from its three fields. -/
theorem readsAs_dynHeader (l d : BitVec 5) (c : BitVec 4) :
    ReadsAs .dynHeader (fieldBits 5 l.toNat ++ fieldBits 5 d.toNat ++ fieldBits 4 c.toNat) (.dynhdr l d c) := by
  refine ⟨fun rest => ⟨none, ?_⟩, fun n hn => ?_⟩
  · simp only [decodeBits, decode, List.append_assoc, readField_fieldBits_lt l.isLt, readField_fieldBits_lt d.isLt,
      readField_fieldBits_lt c.isLt, Got.andThen_got, Reassemble.ofNat_self]
    rfl
  · have hlen : ((fieldBits 5 l.toNat ++ fieldBits 5 d.toNat ++ fieldBits 4 c.toNat).take n).length < 14 := by
      simp at hn ⊢
      omega
    generalize (fieldBits 5 l.toNat ++ fieldBits 5 d.toNat ++ fieldBits 4 c.toNat).take n = bits at hlen
    simp only [decodeBits, decode]
    by_cases h5 : bits.length < 5
    · rw [readField_exhausted h5, Got.andThen_stop]
    · rw [readField_listReader (by omega), Got.andThen_got]
      by_cases h10 : bits.length < 10
      · rw [readField_exhausted (by simp; omega), Got.andThen_stop]
      · rw [readField_listReader (by simp; omega), Got.andThen_got, readField_exhausted (by simp; omega), Got.andThen_stop]

/-- CLCLEN is read from its fields. -/
theorem readsAs_clcLengths (fields : List (BitVec 3)) :
    ReadsAs (.clcLengths fields.length) (fields.flatMap fun f => fieldBits 3 f.toNat) (.clclen fields) := by
  refine ⟨fun rest => ⟨none, ?_⟩, fun n hn => ?_⟩
  · rw [decodeBits, decode, readLengths_bits, Got.andThen_got]
    rfl
  · have hlen : ((fields.flatMap fun f => fieldBits 3 f.toNat).take n).length < 3 * fields.length := by
      simp at hn ⊢
      omega
    rw [decodeBits, decode, readLengths_exhausted hlen, Got.andThen_stop]

/-- An element that fits a context is well formed and of the format the context reads. -/
theorem fits_wellFormed_format {c : Context} (h : fits c i = true) : i.wellFormed = true ∧ i.format = c.format := by
  simp only [fits, Bool.and_eq_true, beq_iff_eq] at h
  exact h.1

/-- In a context whose tables BUILD accepts, an element that fits is read from its encoding, and a stream that ends inside
the encoding is exhausted. -/
theorem readsAs_encode {c : Context} (hc : validContext c) (h : fits c i = true) : ReadsAs c (encode c i) i := by
  obtain ⟨hwf, hf⟩ := fits_wellFormed_format h
  have hi := assemble_of_format hwf hf
  cases c with
  | header => exact readsAs_field (form := fun w => some (headerInstr w)) (fun _ => rfl) ((number_lt i).1 hf) hi
  | scanline => exact readsAs_field (form := fun w => some (scanlineInstr w)) (fun _ => rfl) ((number_lt i).2.1 hf) hi
  | unpack => exact readsAs_field (form := unpackInstr) (fun _ => rfl) ((number_lt i).2.2 hf) hi
  | dynHeader =>
    obtain ⟨l, d, c, rfl⟩ : ∃ l d c, i = .dynhdr l d c := ⟨_, _, _, (Option.some.inj hi).symm⟩
    rw [encode, fieldBits_dynhdr]
    exact readsAs_dynHeader l d c
  | clcLengths n =>
    obtain ⟨fields, rfl⟩ : ∃ fields, i = .clclen fields := ⟨_, (Option.some.inj hi).symm⟩
    have hn : fields.length = n := by simpa [fits, hwf, hf, Instr.clcFields] using h
    rw [← hn]
    exact readsAs_clcLengths fields
  | clSymbol T p =>
    have hfit : 0 < T.getD i.number 0 ∧ ((p = true ∨ i.number ≠ 16) ∨ i.extra = 0) := by simpa [fits, hwf, hf] using h
    refine codedElement_encode hc hfit.1 ?_ hi
    have he := (extra_lt i).1 hf
    rcases hfit.2 with (rfl | hn) | h0
    · exact he
    · rw [clExtra, if_neg hn] at he ⊢
      exact he
    · rw [h0]
      exact Nat.two_pow_pos _
  | llSymbol T => exact codedElement_encode hc (by simpa [fits, hwf, hf] using h) ((extra_lt i).2.1 hf) hi
  | distance T => exact codedElement_encode hc (by simpa [fits, hwf, hf] using h) ((extra_lt i).2.2 hf) hi

/-! ### From the bits to the element -/

/-- A selected element is the one the number selects, with nothing read. -/
theorem selected_eq_got {o : Option Instr} {w : Option CodeWord} {s t : List Bool} {d : Decoded}
    (h : selected o w s = .got d t) : o = some d.instr ∧ s = t := by
  cases o with
  | none => cases h
  | some j => cases h; exact ⟨rfl, rfl⟩

/-- What an element selected by one field consumed. -/
theorem field_eq_got {n : Nat} {form : Nat → Option Instr} {bits rest : List Bool} {d : Decoded}
    (h : (readField listReader n bits).andThen (fun v t => selected (form v) none t) = .got d rest) :
    ∃ v, v < 2 ^ n ∧ form v = some d.instr ∧ bits = fieldBits n v ++ rest := by
  obtain ⟨v, t, hv, hs⟩ := Got.andThen_eq_got h
  obtain ⟨hlt, rfl⟩ := readField_eq_got hv
  obtain ⟨hi, rfl⟩ := selected_eq_got hs
  exact ⟨v, hlt, hi, rfl⟩

/-- The bits of a symbol are those of its code word. -/
theorem symbolBits_codeWord {w : CodeWord} (hw : w ∈ codeWords T maxl) : symbolBits T maxl w.sym = codeBits w.len w.code := by
  rw [symbolBits]
  cases hf : (codeWords T maxl).find? fun v => v.sym == w.sym with
  | none => exact absurd (List.find?_eq_none.mp hf w hw) (by simp)
  | some v => rw [codeWord_unique (List.mem_of_find?_eq_some hf) hw (by simpa using List.find?_some hf)]

/-- What an element with a code in front consumed, where its form gives back its symbol and its extra value. -/
theorem codedElement_eq_got {bits rest : List Bool} {d : Decoded} (h : codedElement listReader T maxl extra form bits = .got d rest)
    (hform : ∀ k e, form k e = some d.instr → e < 2 ^ extra k → HasNumbers k e d.instr) :
    d.instr.wellFormed = true ∧ 0 < T.getD d.instr.number 0 ∧ d.instr.extra < 2 ^ extra d.instr.number ∧
      bits = symbolBits T maxl d.instr.number ++ fieldBits (extra d.instr.number) d.instr.extra ++ rest := by
  obtain ⟨w, t, hw, ht⟩ := Got.andThen_eq_got h
  obtain ⟨e, u, hu, hs⟩ := Got.andThen_eq_got ht
  obtain ⟨hmem, rfl⟩ := decodeSymbol_eq_got hw
  obtain ⟨he, rfl⟩ := readField_eq_got hu
  obtain ⟨hi, rfl⟩ := selected_eq_got hs
  obtain ⟨hwf, hn, hx⟩ := hform _ _ hi he
  obtain ⟨hpos, -, hsym, -⟩ := (mem_codeWords T maxl w).mp hmem
  rw [hn, hx, symbolBits_codeWord hmem, List.append_assoc]
  exact ⟨hwf, by rw [List.getD_eq_getElem?_getD, hsym]; exact hpos, he, rfl⟩

/-- What a decode answers fits the context, and the bits consumed are its encoding; CLCLEN has 4 to 19 fields (42 R178). -/
theorem decodeBits_eq_got {c : Context} {bits rest : List Bool} {d : Decoded} (hn : ∀ n, c = .clcLengths n → 4 ≤ n ∧ n ≤ 19)
    (h : decodeBits c bits = .got d rest) : fits c d.instr = true ∧ bits = encode c d.instr ++ rest := by
  have hf := decode_format h
  cases c with
  | header =>
    obtain ⟨w, hw, hi, rfl⟩ := field_eq_got (form := fun w => some (headerInstr w)) h
    obtain ⟨hwf, hnum, -⟩ := headerInstr_number hw
    rw [Option.some.inj hi] at hwf hnum
    exact ⟨by simp [fits, hwf, hf], by rw [encode, hnum]⟩
  | scanline =>
    obtain ⟨w, hw, hi, rfl⟩ := field_eq_got (form := fun w => some (scanlineInstr w)) h
    obtain ⟨hwf, hnum, -⟩ := scanlineInstr_number hw
    rw [Option.some.inj hi] at hwf hnum
    exact ⟨by simp [fits, hwf, hf], by rw [encode, hnum]⟩
  | unpack =>
    obtain ⟨w, hw, hi, rfl⟩ := field_eq_got (form := unpackInstr) h
    obtain ⟨hwf, hnum, -⟩ := unpackInstr_number hi
    exact ⟨by simp [fits, hwf, hf], by rw [encode, hnum]⟩
  | dynHeader =>
    obtain ⟨l, t, hl, ht⟩ := Got.andThen_eq_got h
    obtain ⟨e, u, he, hu⟩ := Got.andThen_eq_got ht
    obtain ⟨k, v, hk, hv⟩ := Got.andThen_eq_got hu
    obtain ⟨hl', rfl⟩ := readField_eq_got hl
    obtain ⟨he', rfl⟩ := readField_eq_got he
    obtain ⟨hk', rfl⟩ := readField_eq_got hk
    obtain ⟨rfl, rfl⟩ := Got.got.inj hv
    refine ⟨rfl, ?_⟩
    rw [encode, fieldBits_dynhdr]
    simp only [BitVec.toNat_ofNat, Nat.mod_eq_of_lt hl', Nat.mod_eq_of_lt he', Nat.mod_eq_of_lt hk', List.append_assoc]
  | clcLengths n =>
    obtain ⟨fields, t, hfs, ht⟩ := Got.andThen_eq_got h
    obtain ⟨hlen, rfl⟩ := readLengths_eq_got hfs
    obtain ⟨rfl, rfl⟩ := Got.got.inj ht
    obtain ⟨h4, h19⟩ := hn n rfl
    exact ⟨by simp [fits, Instr.wellFormed, Instr.format, Context.format, Instr.clcFields, hlen, h4, h19], rfl⟩
  | clSymbol T p =>
    obtain ⟨hwf, hp, he, rfl⟩ := codedElement_eq_got h fun _ _ => clInstr_numbers
    refine ⟨?_, rfl⟩
    have hrep : (p = true ∨ d.instr.number ≠ 16) ∨ d.instr.extra = 0 := by
      by_cases h16 : d.instr.number = 16
      · cases p with
        | true => exact .inl (.inl rfl)
        | false =>
          rw [h16] at he
          exact .inr (Nat.lt_one_iff.mp he)
      · exact .inl (.inr h16)
    simpa [fits, hwf, hf] using And.intro hp hrep
  | llSymbol T =>
    obtain ⟨hwf, hp, -, rfl⟩ := codedElement_eq_got h fun _ _ => llInstr_numbers
    exact ⟨by simpa [fits, hwf, hf] using hp, rfl⟩
  | distance T =>
    obtain ⟨hwf, hp, -, rfl⟩ := codedElement_eq_got h fun _ _ => distanceInstr_numbers
    exact ⟨by simpa [fits, hwf, hf] using hp, rfl⟩

end

/-- Settles O2: the first half of `readsAs_encode`. -/
theorem decodeOfEncodingIsTheElement : Obligations.DecodeOfEncodingIsTheElement := by
  unfold Obligations.DecodeOfEncodingIsTheElement
  intro c i rest hc h
  exact (readsAs_encode hc h).1 rest

/-- Settles O3: the elements are decoded by their forms, which give back number and extra value (`decodeBits_eq_got`). -/
theorem decodedBitsAreTheEncoding : Obligations.DecodedBitsAreTheEncoding := by
  unfold Obligations.DecodedBitsAreTheEncoding
  intro c bits d rest _ hn h
  exact decodeBits_eq_got hn h

end Sys2Proof.Machine
end

section
/-! Packing bits into bytes (30 R100, R130): byte by byte, the value of the next eight bits. -/

namespace Sys2Proof.Machine

open Sys2Proof

/-- The first byte holds the value of the first eight bits, and the bits behind them are packed behind it. -/
theorem packBits_eq {bits : List Bool} (h : bits ≠ []) :
    packBits bits = BitVec.ofNat 8 (bitsValue (bits.take 8)) :: packBits (bits.drop 8) := by
  fun_cases packBits bits with
  | case1 => exact absurd rfl h
  | case2 | case3 | case4 | case5 | case6 | case7 | case8 | case9 =>
    simp only [List.take, List.drop, packBits, bitsValue, List.cons.injEq, and_true]
    refine congrArg (BitVec.ofNat 8) ?_
    ring

/-- Each started group of eight bits is a byte. -/
theorem packBits_length (bits : List Bool) : (packBits bits).length = (bits.length + 7) / 8 := by
  fun_induction packBits bits with
  | case1 => rfl
  | case2 | case3 | case4 | case5 | case6 | case7 | case8 => simp
  | case9 _ _ _ _ _ _ _ _ rest ih =>
    simp only [List.length_cons, ih]
    omega

/-- Bit `j` of byte `k` is bit `8 * k + j` of the stream, 0 behind its end. -/
theorem packBits_getLsbD {bits : List Bool} {k j : Nat} (hk : k < (packBits bits).length) (hj : j < 8) :
    ((packBits bits)[k]?).map (fun v => v.getLsbD j) = some (bits.getD (8 * k + j) false) := by
  have hne : bits ≠ [] := by
    rintro rfl
    exact absurd hk (Nat.not_lt_zero k)
  rw [packBits_eq hne] at hk ⊢
  induction k generalizing bits with
  | zero =>
    have htake : (bits.take 8).getD j false = bits.getD j false := by
      rw [List.getD_eq_getElem?_getD, List.getElem?_take_of_lt hj, ← List.getD_eq_getElem?_getD]
    rw [List.getElem?_cons_zero, Option.map_some, BitVec.getLsbD_ofNat, testBit_bitsValue, htake, Nat.mul_zero, Nat.zero_add,
      decide_eq_true hj, Bool.true_and]
  | succ k ih =>
    have hrest : bits.drop 8 ≠ [] := by
      intro h0
      rw [h0] at hk
      exact absurd (Nat.lt_of_succ_lt_succ hk) (Nat.not_lt_zero k)
    rw [packBits_eq hrest] at hk ⊢
    rw [List.getElem?_cons_succ, ih (Nat.lt_of_succ_lt_succ hk) hrest, List.getD_eq_getElem?_getD, List.getElem?_drop,
      ← List.getD_eq_getElem?_getD, show 8 + (8 * k + j) = 8 * (k + 1) + j by omega]

/-- Settles O4: the number of bytes (`packBits_length`) and each of their bits (`packBits_getLsbD`). -/
theorem packedBitsAreStreamBits : Obligations.PackedBitsAreStreamBits := by
  unfold Obligations.PackedBitsAreStreamBits
  intro bits
  refine ⟨packBits_length bits, fun k hk => ?_⟩
  have := packBits_getLsbD (j := k % 8) (Nat.div_lt_of_lt_mul hk) (Nat.mod_lt k (by decide))
  rwa [Nat.div_add_mod] at this

end Sys2Proof.Machine
end

section
/-! READBITS (40 R142): it agrees with a field read of the unread bits. -/

namespace Sys2Proof.Machine

open Sys2Proof

section
variable {s : State}

/-- READBITS and a field read of the unread bits agree. -/
theorem readBits_agree (hc : CursorOk s) (hw : InputWritten s) (n : Nat) :
    Agree (Reading s) (readBits n s) (readField listReader n (unreadBits s)) :=
  readField_agree (readBit_agree s) n { same := rfl, cursor := hc, written := hw, unread := rfl }

theorem unreadBits_length (s : State) : (unreadBits s).length = 8 * s.inLen - bitpos s := by simp [unreadBits]

/-- The next `n` unread bits. -/
theorem unreadBits_take {n : Nat} (h : bitpos s + n ≤ 8 * s.inLen) :
    (unreadBits s).take n = (List.range' (bitpos s) n).map (streamBit s) := by
  rw [unreadBits, show 8 * s.inLen - bitpos s = n + (8 * s.inLen - bitpos s - n) by omega, ← List.range'_append_1,
    List.map_append]
  exact List.take_left' (by simp)

/-- With `n` bits left READBITS(n) answers their value, `n` bits further. -/
theorem readBits_got (hc : CursorOk s) (hw : InputWritten s) {n : Nat} (h : bitpos s + n ≤ 8 * s.inLen) :
    ∃ t, readBits n s = .got (bitsValue ((unreadBits s).take n)) t ∧ sameButCursor s t ∧ CursorOk t ∧
      bitpos t = bitpos s + n := by
  have key := readBits_agree hc hw n
  rw [readField_listReader (by rw [unreadBits_length]; omega)] at key
  obtain ⟨t, ht, hr⟩ := key.of_got
  refine ⟨t, ht, hr.same, hr.cursor, ?_⟩
  have hlen := congrArg List.length hr.unread
  have hin := (sameButCursor_inMem hr.same).2
  have hpos := bitpos_le hr.cursor
  rw [unreadBits_length, List.length_drop, unreadBits_length] at hlen
  omega

end

/-- Settles O11: `readBits_got`, the value being that of the next bits, and the exhausted field read of the unread bits. -/
theorem readBitsIsTheSumOfItsBits : Obligations.ReadBitsIsTheSumOfItsBits := by
  unfold Obligations.ReadBitsIsTheSumOfItsBits
  intro n s hc hw
  refine ⟨fun h => ?_, fun h => ?_, rfl⟩
  · obtain ⟨t, ht, hsame, hcur, hpos⟩ := readBits_got hc hw h
    have hlt := bitsValue_lt ((unreadBits s).take n)
    rw [unreadBits_take h] at ht hlt
    rw [List.length_map, List.length_range'] at hlt
    exact ⟨_, t, ht, hlt, hsame, hcur, hpos, bitsValue_map_range' _ _ _⟩
  · have key := readBits_agree hc hw n
    have hpos := bitpos_le hc
    rw [readField_exhausted (by rw [unreadBits_length]; omega)] at key
    obtain ⟨t, ht, -⟩ := key.of_stop
    rw [ht]
    rfl

end Sys2Proof.Machine
end

section
/-! The headers: the three bits of a block header, the fields of DYNHDR, and the table CLCLEN fills. -/

namespace Sys2Proof.Machine

open Sys2Proof

/-- The field of the value of some bits is those bits. -/
theorem fieldBits_bitsValue (bits : List Bool) : fieldBits bits.length (bitsValue bits) = bits := by
  have h := (readField_eq_got (readField_listReader (le_refl bits.length))).2
  rw [List.take_length, List.drop_length, List.append_nil] at h
  exact h.symm

/-- Settles O13: the three bits are the field w = BFINAL + 2 * BTYPE, from which a header is read (`readsAs_field`). -/
theorem headerBitsSelectTheBlock : Obligations.HeaderBitsSelectTheBlock := by
  unfold Obligations.HeaderBitsSelectTheBlock
  intro f b0 b1
  rw [← fieldBits_bitsValue [f, b0, b1]]
  refine readsAs_field (form := fun w => some (headerInstr w)) (fun _ => rfl) (bitsValue_lt [f, b0, b1]) ?_
  cases f <;> cases b0 <;> cases b1 <;> rfl

/-- Settles O15: DYNHDR is read from its fields (`readsAs_dynHeader`), and the biased counts fit in their registers. -/
theorem dynamicBlockReadsItsHeader : Obligations.DynamicBlockReadsItsHeader := by
  unfold Obligations.DynamicBlockReadsItsHeader
  refine ⟨fun f s => rfl, fun l d c => ⟨readsAs_dynHeader l d c, fun s => ⟨_, rfl, ?_, ?_, ?_, rfl⟩⟩⟩
  · have := l.isLt
    exact Nat.mod_eq_of_lt (by omega)
  · have := d.isLt
    exact Nat.mod_eq_of_lt (by omega)
  · have := c.isLt
    exact Nat.mod_eq_of_lt (by omega)

/-! ### The table of CLCLEN -/

/-- An entry no field is put at stays. -/
theorem assignClc_other {a : Nat} (fields : List (BitVec 3)) (o : List Nat) (T : List (BitVec 3))
    (h : a ∉ o.take fields.length) : (assignClc fields o T)[a]? = T[a]? := by
  induction fields generalizing o T with
  | nil => cases o <;> rfl
  | cons f fields ih =>
    cases o with
    | nil => rfl
    | cons b o =>
      rw [List.length_cons, List.take_succ_cons, List.mem_cons, not_or] at h
      rw [assignClc, ih o _ h.2, List.getElem?_set_ne (Ne.symm h.1)]

/-- Field `j` stands at entry `j` of the order. -/
theorem assignClc_field {a j : Nat} {o : List Nat} (ho : o.Nodup) (fields : List (BitVec 3)) (T : List (BitVec 3))
    (hj : j < fields.length) (ha : o[j]? = some a) (hT : a < T.length) : (assignClc fields o T)[a]? = fields[j]? := by
  induction fields generalizing o T j with
  | nil => exact absurd hj (Nat.not_lt_zero j)
  | cons f fields ih =>
    cases o with
    | nil => cases ha
    | cons b o =>
      obtain ⟨hb, ho⟩ := List.nodup_cons.mp ho
      rw [assignClc]
      cases j with
      | zero =>
        obtain rfl : b = a := Option.some.inj ha
        rw [assignClc_other _ _ _ fun hm => hb (List.mem_of_mem_take hm), List.getElem?_set_self hT]
        rfl
      | succ j => exact ih ho _ (Nat.lt_of_succ_lt_succ hj) ha (by rwa [List.length_set])

/-- The table CLCLEN fills. -/
def clcTable (fields : List (BitVec 3)) : List (BitVec 3) := assignClc fields order (List.replicate 19 0)

theorem clcTable_length (fields : List (BitVec 3)) : (clcTable fields).length = 19 := by
  rw [clcTable, assignClc_length, List.length_replicate]

theorem order_nodup : order.Nodup := by decide

/-- ORDER names the 19 entries. -/
theorem order_getElem? {j : Nat} (hj : j < 19) : order[j]? = some (order.getD j 0) ∧ order.getD j 0 < 19 := by
  revert j
  decide

/-- Field `j` stands at `ORDER[j]`. -/
theorem clcTable_field {fields : List (BitVec 3)} {j : Nat} (hj : j < fields.length) (h19 : fields.length ≤ 19) :
    (clcTable fields)[order.getD j 0]? = fields[j]? := by
  obtain ⟨ho, hlt⟩ := order_getElem? (hj.trans_le h19)
  exact assignClc_field order_nodup fields _ hj ho (by rwa [List.length_replicate])

/-- The other entries are 0. -/
theorem clcTable_zero {fields : List (BitVec 3)} {j : Nat} (hj : fields.length ≤ j) (h19 : j < 19) :
    (clcTable fields)[order.getD j 0]? = some 0 := by
  obtain ⟨ho, hlt⟩ := order_getElem? h19
  rw [clcTable, assignClc_other, List.getElem?_replicate, if_pos hlt]
  intro hm
  obtain ⟨k, hk, hkj⟩ := List.getElem_of_mem hm
  rw [List.length_take] at hk
  obtain ⟨hlen, ho⟩ := List.getElem?_eq_some_iff.mp ho
  rw [List.getElem_take] at hkj
  have := (List.Nodup.getElem_inj_iff order_nodup).mp (hkj.trans ho.symm)
  omega

/-- CLCLEN where BUILD accepts its table. -/
theorem exec_clclen_built {fields : List (BitVec 3)} (s : State) (h : overSubscribed (lengthsOf (clcTable fields)) maxCl = false) :
    exec (.clclen fields) s = .next { s with cllen := clcTable fields, lidx := 0, prevlen := none, point := .codeLengths } := by
  show (buildCodeLengths { s with cllen := clcTable fields }).outcome = _
  rw [buildCodeLengths, if_neg (by simp [h])]
  rfl

/-- CLCLEN where its table is over-subscribed. -/
theorem exec_clclen_raises {fields : List (BitVec 3)} (s : State)
    (h : overSubscribed (lengthsOf (clcTable fields)) maxCl = true) : Raises (.clclen fields) s .malformedBitstream := by
  refine ⟨raise .malformedBitstream { s with cllen := clcTable fields }, ?_, rfl, rfl⟩
  show (buildCodeLengths { s with cllen := clcTable fields }).outcome = _
  rw [buildCodeLengths, if_pos h]
  rfl

/-- Settles O18: the fields are read (`readsAs_clcLengths`), `clcTable` is the table, and BUILD accepts it or not. -/
theorem codeLengthFieldsFillTheirTable : Obligations.CodeLengthFieldsFillTheirTable := by
  unfold Obligations.CodeLengthFieldsFillTheirTable
  refine ⟨fun fields _ h19 => ⟨readsAs_clcLengths fields, clcTable fields, clcTable_length fields, ?_, ?_, ?_⟩, rfl, ?_⟩
  · exact fun j hj => clcTable_field hj h19
  · exact fun j hj hj19 => clcTable_zero hj hj19
  · exact fun s => ⟨exec_clclen_built s, exec_clclen_raises s⟩
  · exact fun s => exec_clclen_raises s (by decide)

end Sys2Proof.Machine
end

section
/-! The head of the scanline loop (44 R291). -/

namespace Sys2Proof.Machine

open Sys2Proof

/-- The element the byte FT selects (30 R112), its tests made on the byte. -/
theorem scanlineInstr_toNat (ft : Byte) :
    scanlineInstr ft.toNat = if ft = 0 then .filtNone else if ft = 1 then .filtSub else if ft = 2 then .filtUp
      else if ft = 3 then .filtAvg else if ft = 4 then .filtPaeth else .filtInv ft := by
  simp only [scanlineInstr, ← BitVec.toNat_inj, Laws.Reassemble.ofNat_self]
  rfl

/-- Settles O36: the fetch at a complete scanline (`fetchScanline_run`). -/
theorem scanlineByteSelectsItsFilter : Obligations.ScanlineByteSelectsItsFilter := by
  unfold Obligations.ScanlineByteSelectsItsFilter
  intro s ft hs hp hl hm
  have hf : fetch s = fetchScanline s := by rw [fetch, if_pos (by simp [running, hs]), fetchAt, hp]
  rw [engineMove_of_run (hf.trans (fetchScanline_run hl hm)), scanlineInstr_toNat]

end Sys2Proof.Machine
end

section
/-! The codes of a fixed block (30 R111, 42 R176, R177): the fixed tables are runs of equal lengths, over which the counts and
first codes of BUILD are sums. -/

namespace Sys2Proof.Machine

open Sys2Proof

/-! ### Runs of equal lengths -/

theorem countLen_append (l : Nat) (A B : List Nat) : countLen l (A ++ B) = countLen l A + countLen l B := by
  induction A with
  | nil => simp [countLen]
  | cons a A ih =>
    simp only [List.cons_append, countLen, ih]
    split <;> omega

theorem countLen_replicate (l n a : Nat) : countLen l (List.replicate n a) = if a = l then n else 0 := by
  induction n with
  | zero => simp [countLen]
  | succ n ih =>
    simp only [List.replicate_succ, countLen, ih]
    split <;> rfl

/-- FIXLL (42 R176) as the table BUILD works on. -/
theorem fixedLL_getElem? (k : Nat) : (lengthsOf fixedLL)[k]? = if k < 288 then some (fixLL k) else none := by
  have hlt : fixLL k < 2 ^ 4 := by unfold fixLL; split_ifs <;> decide
  rw [lengthsOf, fixedLL, List.map_map, List.getElem?_map]
  split_ifs with hk
  · rw [List.getElem?_range hk]
    exact congrArg some (Nat.mod_eq_of_lt hlt)
  · rw [List.getElem?_eq_none (by simpa using hk)]
    rfl

/-- FIXD (42 R177) as the table BUILD works on. -/
theorem fixedD_getElem? (d : Nat) : (lengthsOf fixedD)[d]? = if d < 32 then some (fixD d) else none := by
  have hlt : fixD d < 2 ^ 4 := by unfold fixD; split_ifs <;> decide
  rw [lengthsOf, fixedD, List.map_map, List.getElem?_map]
  split_ifs with hd
  · rw [List.getElem?_range hd]
    exact congrArg some (Nat.mod_eq_of_lt hlt)
  · rw [List.getElem?_eq_none (by simpa using hd)]
    rfl

/-- FIXLL as runs. -/
theorem lengthsOf_fixedLL : lengthsOf fixedLL =
    List.replicate 144 8 ++ List.replicate 112 9 ++ List.replicate 24 7 ++ List.replicate 8 8 := by
  refine List.ext_getElem? fun k => ?_
  rw [fixedLL_getElem?]
  simp only [List.getElem?_append, List.length_append, List.length_replicate, List.getElem?_replicate, fixLL]
  grind

/-- FIXD as runs. -/
theorem lengthsOf_fixedD : lengthsOf fixedD = List.replicate 30 5 ++ List.replicate 2 0 := by
  refine List.ext_getElem? fun d => ?_
  rw [fixedD_getElem?]
  simp only [List.getElem?_append, List.length_replicate, List.getElem?_replicate, fixD]
  grind

/-! ### The literal/length code -/

/-- The code of a literal/length symbol of a fixed block (30 R111). -/
def fixCode (k : Nat) : Nat :=
  if k < 144 then 0b00110000 + k else if k < 256 then 0b110010000 + (k - 144) else if k < 280 then k - 256
  else 0b11000000 + (k - 280)

/-- BLCOUNT of FIXLL. -/
theorem blCount_fixedLL (L : Nat) :
    blCount (lengthsOf fixedLL) L = if L = 7 then 24 else if L = 8 then 152 else if L = 9 then 112 else 0 := by
  rw [blCount, lengthsOf_fixedLL]
  simp only [countLen_append, countLen_replicate]
  split_ifs <;> omega

/-- The first code of the length of a symbol. -/
theorem nextCode_fixLL (k : Nat) : nextCode (lengthsOf fixedLL) (fixLL k) =
    if k < 144 then 48 else if k < 256 then 400 else if k < 280 then 0 else 48 := by
  unfold fixLL
  split_ifs <;> simp [nextCode, blCount_fixedLL]

/-- The symbols of its own length before a symbol. -/
theorem countLen_take_fixLL {k : Nat} (hk : k < 288) : countLen (fixLL k) ((lengthsOf fixedLL).take k) =
    if k < 144 then k else if k < 256 then k - 144 else if k < 280 then k - 256 else 144 + (k - 280) := by
  simp only [lengthsOf_fixedLL, List.take_append, List.take_replicate, List.length_append, List.length_replicate,
    countLen_append, countLen_replicate, fixLL]
  split_ifs <;> simp <;> omega

/-- The code words of the literal/length code of a fixed block. -/
theorem mem_codeWords_fixedLL {w : CodeWord} : w ∈ codeWords (lengthsOf fixedLL) maxSym ↔
    w.sym < 288 ∧ w.len = fixLL w.sym ∧ w.code = fixCode w.sym := by
  have hlen (k : Nat) : 1 ≤ fixLL k ∧ fixLL k ≤ maxSym := by unfold fixLL; split_ifs <;> decide
  have hcode (k : Nat) (hk : k < 288) :
      nextCode (lengthsOf fixedLL) (fixLL k) + countLen (fixLL k) ((lengthsOf fixedLL).take k) = fixCode k := by
    rw [nextCode_fixLL, countLen_take_fixLL hk, fixCode]
    split_ifs <;> omega
  rw [mem_codeWords, fixedLL_getElem?]
  constructor
  · rintro ⟨-, -, hl, hc⟩
    split_ifs at hl with hk
    have hl := (Option.some.inj hl).symm
    exact ⟨hk, hl, by rw [hc, hl, hcode _ hk]⟩
  · rintro ⟨hk, hl, hc⟩
    rw [if_pos hk, hl, hc, hcode _ hk]
    exact ⟨(hlen _).1, (hlen _).2, rfl, rfl⟩

/-- The literal/length code of a fixed block is complete. -/
theorem kraftSum_fixedLL : kraftSum (lengthsOf fixedLL) maxSym maxSym = 2 ^ 15 := by
  simp [kraftSum, maxSym, blCount_fixedLL]

theorem fixedLL_fits : overSubscribed (lengthsOf fixedLL) maxSym = false := by
  rw [overSubscribed, kraftSum_fixedLL]
  rfl

/-- What a literal/length symbol of a fixed block is decoded to. -/
theorem decodeBits_fixedSymbols {k e : Nat} {i : Instr} (hk : k < 288) (he : e < 2 ^ lengthExtra k) (hi : llInstr k e = some i)
    (rest : List Bool) : decodeBits fixedSymbols (codeBits (fixLL k) (fixCode k) ++ fieldBits (lengthExtra k) e ++ rest) =
      .got { instr := i, walked := some ⟨k, fixLL k, fixCode k⟩ } rest :=
  codedElement_got fixedLL_fits (w := ⟨k, fixLL k, fixCode k⟩) (mem_codeWords_fixedLL.mpr ⟨hk, rfl, rfl⟩) he hi rest

/-! ### The distance code -/

/-- BLCOUNT of FIXD. -/
theorem blCount_fixedD (L : Nat) : blCount (lengthsOf fixedD) L = if L = 5 then 30 else 0 := by
  rw [blCount, lengthsOf_fixedD]
  simp only [countLen_append, countLen_replicate]
  split_ifs <;> omega

/-- The code words of the distance code of a fixed block. -/
theorem mem_codeWords_fixedD {w : CodeWord} :
    w ∈ codeWords (lengthsOf fixedD) maxSym ↔ w.sym < 30 ∧ w.len = 5 ∧ w.code = w.sym := by
  have hnext : nextCode (lengthsOf fixedD) 5 = 0 := by simp [nextCode, blCount_fixedD]
  have hbefore (d : Nat) (hd : d < 30) : countLen 5 ((lengthsOf fixedD).take d) = d := by
    simp only [lengthsOf_fixedD, List.take_append, List.take_replicate, List.length_replicate, countLen_append,
      countLen_replicate]
    simp
    omega
  rw [mem_codeWords, fixedD_getElem?, fixD]
  constructor
  · rintro ⟨h1, -, hl, hc⟩
    split_ifs at hl with h32 h30
    · have hl := (Option.some.inj hl).symm
      exact ⟨h30, hl, by rw [hc, hl, hnext, hbefore _ h30, Nat.zero_add]⟩
    · rw [← Option.some.inj hl] at h1
      exact absurd h1 (by decide)
  · rintro ⟨hd, hl, hc⟩
    rw [if_pos (by omega), if_pos hd, hl, hc, hnext, hbefore _ hd, Nat.zero_add]
    exact ⟨by decide, by decide, rfl, rfl⟩

theorem fixedD_fits : overSubscribed (lengthsOf fixedD) maxSym = false := by
  simp [overSubscribed, kraftSum, maxSym, blCount_fixedD]

/-- What a distance symbol of a fixed block is decoded to. -/
theorem decodeBits_fixedDistances {d e : Nat} {i : Instr} (hd : d < 30) (he : e < 2 ^ distanceExtra d)
    (hi : distanceInstr d e = some i) (rest : List Bool) :
    decodeBits fixedDistances (codeBits 5 d ++ fieldBits (distanceExtra d) e ++ rest) =
      .got { instr := i, walked := some ⟨d, 5, d⟩ } rest :=
  codedElement_got fixedD_fits (w := ⟨d, 5, d⟩) (mem_codeWords_fixedD.mpr ⟨hd, rfl, rfl⟩) he hi rest

/-! ### An absent child -/

/-- DECODE behind bits strictly inside a code, at a bit that leads into no code (41 R157). -/
theorem decodeSymbol_absentChild {T : List Nat} {maxl : Nat} (hT : overSubscribed T maxl = false) {w : CodeWord}
    (hw : w ∈ codeWords T maxl) {bits : List Bool} (hlt : bits.length < w.len) (hin : bits <+: codeBits w.len w.code) {b : Bool}
    (habs : ∀ v, v ∈ codeWords T maxl → ¬ bits ++ [b] <+: codeBits v.len v.code) (rest : List Bool) :
    decodeSymbol listReader T maxl (bits ++ b :: rest) = .stop .malformed rest := by
  have hmax := ((mem_codeWords T maxl w).mp hw).2.1
  obtain ⟨c, hc, hbits, hwalk⟩ := walkCode_inside hT bits 0 0 (by omega) (by decide) (b :: rest) fun n _ hn => by
    refine ⟨w, hw, by omega, ?_⟩
    rw [List.prefix_iff_eq_take.mp hin, List.take_take, Nat.zero_add, Nat.min_eq_left hn]
    rfl
  simp only [Nat.zero_add, codeBits, List.nil_append, Nat.sub_zero] at hc hbits hwalk
  have hno (v : CodeWord) (hv : v ∈ codeWords T maxl) :
      ¬(bits.length + 1 ≤ v.len ∧ v.code / 2 ^ (v.len - (bits.length + 1)) = c * 2 + b.toNat) := by
    rintro ⟨hle, hcode⟩
    refine habs v hv ?_
    rw [← hbits, ← codeBits_snoc, ← hcode, ← codeBits_take _ _ hle]
    exact List.take_prefix _ _
  rw [decodeSymbol, hwalk, show maxl - bits.length = maxl - bits.length - 1 + 1 by omega, walkCode_cons,
    find_code_none.mpr fun v hv h => hno v hv ⟨h.1.ge, by rw [h.1, Nat.sub_self, Nat.pow_zero, Nat.div_one, h.2]⟩]
  simp only
  rw [if_neg]
  intro h
  obtain ⟨v, hv, hl, hcode⟩ := any_longer.mp h
  exact hno v hv ⟨hl.le, hcode⟩

/-- Settles O5: the two tables, their code words (`mem_codeWords_fixedLL`, `mem_codeWords_fixedD`), and 1111, which leads into
no distance code behind the 111 of the codes 28 and 29. -/
theorem fixedBlockCodes : Obligations.FixedBlockCodes := by
  unfold Obligations.FixedBlockCodes
  refine ⟨fun k hk => ?_, fun d hd => ?_, ?_, ?_, kraftSum_fixedLL, fun w => ?_, fun w => ?_, fun rest => ?_⟩
  · rw [fixedLL_getElem?, if_pos hk, fixLL]
    grind
  · rw [fixedD_getElem?, if_pos hd, fixD]
    grind
  · exact (List.length_map _).trans fixedLL_length
  · exact (List.length_map _).trans fixedD_length
  · rw [mem_codeWords_fixedLL, fixLL, fixCode]
    grind
  · rw [mem_codeWords_fixedD, Nat.lt_succ_iff]
  · refine decodeSymbol_absentChild fixedD_fits (w := ⟨28, 5, 28⟩) (mem_codeWords_fixedD.mpr ⟨by decide, rfl, rfl⟩)
      (bits := stream [1, 1, 1]) (b := true) (by decide) (by decide) (fun v hv => ?_) rest
    obtain ⟨hd, hl, hc⟩ := mem_codeWords_fixedD.mp hv
    rw [hl, hc]
    generalize v.sym = d at hd
    revert d
    decide

end Sys2Proof.Machine
end

section
/-! MATCH (30 R131): the length classes and the distance classes follow one another without a gap, so each length and each
distance lies in exactly one; length 258 alone also lies in the class of symbol 284. -/

namespace Sys2Proof.Machine

open Sys2Proof

/-! ### Consecutive classes -/

/-- The classes `rows`, each (extra bits, base), cover the numbers from `lo` to below `hi` one behind the other. -/
def tiles : Nat → List (Nat × Nat) → Nat → Bool
  | lo, [], hi => lo == hi
  | lo, row :: rows, hi => row.2 == lo && tiles (lo + 2 ^ row.1) rows hi

/-- `v` lies in class `k` of `rows`. -/
def InClass (rows : List (Nat × Nat)) (k v : Nat) : Prop :=
  ∃ row, rows[k]? = some row ∧ row.2 ≤ v ∧ v ≤ row.2 + 2 ^ row.1 - 1

section
variable {rows : List (Nat × Nat)} {row : Nat × Nat} {lo hi j k v n : Nat}

theorem tiles_cons : tiles lo (row :: rows) hi = true ↔ row.2 = lo ∧ tiles (lo + 2 ^ row.1) rows hi = true := by
  simp [tiles]

theorem inClass_zero : InClass (row :: rows) 0 v ↔ row.2 ≤ v ∧ v ≤ row.2 + 2 ^ row.1 - 1 := by simp [InClass]

theorem inClass_succ : InClass (row :: rows) (k + 1) v ↔ InClass rows k v := by simp [InClass]

/-- Every number covered lies in a class. -/
theorem tiles_exists (h : tiles lo rows hi = true) (h1 : lo ≤ v) (h2 : v < hi) : ∃ k, InClass rows k v := by
  induction rows generalizing lo with
  | nil =>
    have : lo = hi := by simpa [tiles] using h
    omega
  | cons row rows ih =>
    obtain ⟨rfl, h⟩ := tiles_cons.mp h
    by_cases hv : v < row.2 + 2 ^ row.1
    · exact ⟨0, inClass_zero.mpr ⟨h1, by omega⟩⟩
    · obtain ⟨k, hk⟩ := ih h (by omega)
      exact ⟨k + 1, inClass_succ.mpr hk⟩

/-- No number below the first class lies in a class. -/
theorem tiles_le (h : tiles lo rows hi = true) (hk : InClass rows k v) : lo ≤ v := by
  induction rows generalizing lo k with
  | nil => obtain ⟨row, hr, -⟩ := hk; cases hr
  | cons row rows ih =>
    obtain ⟨rfl, h⟩ := tiles_cons.mp h
    cases k with
    | zero => exact (inClass_zero.mp hk).1
    | succ k => exact le_trans (Nat.le_add_right _ _) (ih h (inClass_succ.mp hk))

/-- A number lies in one class only. -/
theorem tiles_unique (h : tiles lo rows hi = true) (hj : InClass rows j v) (hk : InClass rows k v) : j = k := by
  induction rows generalizing lo j k with
  | nil => obtain ⟨row, hr, -⟩ := hk; cases hr
  | cons row rows ih =>
    obtain ⟨rfl, h⟩ := tiles_cons.mp h
    have hpow := Nat.two_pow_pos row.1
    cases j with
    | zero =>
      cases k with
      | zero => rfl
      | succ k =>
        have := tiles_le h (inClass_succ.mp hk)
        have := inClass_zero.mp hj
        omega
    | succ j =>
      cases k with
      | zero =>
        have := tiles_le h (inClass_succ.mp hj)
        have := inClass_zero.mp hk
        omega
      | succ k => rw [ih h (inClass_succ.mp hj) (inClass_succ.mp hk)]

/-- The test of MATCH's search. -/
theorem classTest_iff (hj : j < rows.length) :
    (decide (((rows[j]?).getD (0, 0)).2 ≤ v) &&
      decide (v ≤ ((rows[j]?).getD (0, 0)).2 + 2 ^ ((rows[j]?).getD (0, 0)).1 - 1)) = true ↔ InClass rows j v := by
  simp [InClass, List.getElem?_eq_getElem hj]

/-- MATCH's search finds the class of a number that lies in one class only. -/
theorem find_class (hn : rows.length = n) (hkn : k < n) (hk : InClass rows k v) (hu : ∀ j, j < n → InClass rows j v → j = k) :
    ((List.range n).find? fun j =>
      let row := (rows[j]?).getD (0, 0)
      decide (row.2 ≤ v) && decide (v ≤ row.2 + 2 ^ row.1 - 1)) = some k := by
  rw [List.find?_range_eq_some]
  refine ⟨(classTest_iff (by omega)).mpr hk, List.mem_range.mpr hkn, fun j hj => ?_⟩
  rw [Bool.not_eq_true', Bool.eq_false_iff]
  intro ht
  have := hu j (by omega) ((classTest_iff (by omega)).mp ht)
  omega

end

/-! ### Lengths -/

/-- The classes of the symbols 257 to 284 cover the lengths 3 to 258. -/
theorem tiles_lengthTable : tiles 3 (lengthTable.take 28) 259 = true := by decide

/-- The class of symbol 285 is the length 258 alone; the others are those of the symbols 257 to 284. -/
theorem inClass_lengthTable {k L : Nat} :
    InClass lengthTable k L ↔ InClass (lengthTable.take 28) k L ∨ (k = 28 ∧ L = 258) := by
  have hlen : lengthTable.length = 29 := rfl
  rcases lt_trichotomy k 28 with h | rfl | h
  · simp [InClass, h, h.ne]
  · have : lengthTable[28]? = some (0, 258) := rfl
    simp [InClass, this]
    omega
  · simp [InClass, h.le.not_gt, h.ne', hlen, show 29 ≤ k from h]

/-- `lengthClass` numbers the classes from symbol 257 on. -/
theorem lengthClass_iff {m L : Nat} : lengthClass m L ↔ ∃ k, m = k + 257 ∧ InClass lengthTable k L := by
  constructor
  · rintro ⟨row, hr, hm, h⟩
    exact ⟨m - 257, by omega, row, hr, h⟩
  · rintro ⟨k, rfl, row, hr, h⟩
    exact ⟨row, by rwa [Nat.add_sub_cancel], by omega, h⟩

/-- A length lies in exactly one class, the pair of symbol 284 with the length 258 left out (30 R131). -/
theorem existsUnique_lengthClass {L : Nat} (h3 : 3 ≤ L) (h258 : L ≤ 258) :
    ∃ k, (InClass lengthTable k L ∧ (k = 27 → L ≠ 258)) ∧
      ∀ m, InClass lengthTable m L → (m = 27 → L ≠ 258) → m = k := by
  by_cases hL : L = 258
  · subst hL
    have h27 : InClass (lengthTable.take 28) 27 258 := ⟨(5, 227), rfl, by decide, by decide⟩
    refine ⟨28, ⟨inClass_lengthTable.mpr (.inr ⟨rfl, rfl⟩), by decide⟩, fun m hm hne => ?_⟩
    rcases inClass_lengthTable.mp hm with hm | ⟨rfl, -⟩
    · exact absurd rfl (hne (tiles_unique tiles_lengthTable hm h27))
    · rfl
  · obtain ⟨k, hk⟩ := tiles_exists tiles_lengthTable h3 (by omega : L < 259)
    refine ⟨k, ⟨inClass_lengthTable.mpr (.inl hk), fun _ => hL⟩, fun m hm _ => ?_⟩
    rcases inClass_lengthTable.mp hm with hm | ⟨-, h⟩
    · exact tiles_unique tiles_lengthTable hm hk
    · exact absurd h hL

/-- MATCH's length symbol and extra value. -/
theorem matchLength_eq {k L : Nat} {row : Nat × Nat} (hrow : lengthTable[k]? = some row) (hk : InClass lengthTable k L)
    (hne : k = 27 → L ≠ 258) (hu : ∀ m, InClass lengthTable m L → (m = 27 → L ≠ 258) → m = k) :
    matchLength L = some (k + 257, L - row.2) := by
  unfold matchLength
  split_ifs with hL
  · subst hL
    obtain rfl : 28 = k := hu 28 (inClass_lengthTable.mpr (.inr ⟨rfl, rfl⟩)) (by decide)
    cases hrow
    rfl
  · have hlt : k < lengthTable.length := (List.getElem?_eq_some_iff.mp hrow).1
    rw [find_class (n := 29) rfl hlt hk fun m _ hm => hu m hm fun _ => hL, Option.map_some, hrow]
    rfl

/-- The element of a length symbol sets LEN to its base plus its extra value (43 R220 to R248). -/
theorem exec_length {i : Instr} {row : Nat × Nat} (hf : i.format = .ll) (hn : 257 ≤ i.number)
    (hrow : lengthTable[i.number - 257]? = some row) (s : State) : exec i s = .next (setLength (row.2 + i.extra) s) := by
  cases i with
  | lit b =>
    have hb : 257 ≤ b.toNat := hn
    have := b.isLt
    omega
  | eob => exact absurd hn (by decide)
  | llrsv286 | llrsv287 => cases hrow
  | len257 | len258 | len259 | len260 | len261 | len262 | len263 | len264 | len285 => cases hrow; rfl
  | len265 e | len266 e | len267 e | len268 e | len269 e | len270 e | len271 e | len272 e | len273 e | len274 e | len275 e
  | len276 e | len277 e | len278 e | len279 e | len280 e | len281 e | len282 e | len283 e | len284 e =>
    rw [Instr.number] at hrow
    cases hrow
    rfl
  | _ => cases hf

/-- A literal/length form is of the format of literal/length symbols. -/
theorem llInstr_format {k e : Nat} {i : Instr} (h : llInstr k e = some i) : i.format = .ll := by
  have forms : ∀ f, f ∈ lengthForms → (f e).format = .ll := by simp [lengthForms, Instr.format]
  unfold llInstr at h
  split_ifs at h
  · cases h; rfl
  · cases h; rfl
  · obtain ⟨f, hf, rfl⟩ := Option.map_eq_some_iff.mp h
    exact forms f (List.mem_of_getElem? hf)
  · cases h; rfl
  · cases h; rfl

/-- The extra bits of a length symbol are those of its class. -/
theorem lengthExtra_eq {k : Nat} {row : Nat × Nat} (hrow : lengthTable[k]? = some row) : lengthExtra (k + 257) = row.1 := by
  rw [lengthExtra, if_neg (by omega), Nat.add_sub_cancel, hrow]
  rfl

/-- The length element of a class sets LEN to the length. -/
theorem llInstr_length {k L : Nat} {row : Nat × Nat} (hrow : lengthTable[k]? = some row) (h1 : row.2 ≤ L)
    (h2 : L ≤ row.2 + 2 ^ row.1 - 1) : ∃ i, llInstr (k + 257) (L - row.2) = some i ∧ i.format = .ll ∧ i.number = k + 257 ∧
      ∀ s, exec i s = .next (setLength L s) := by
  have hk : k < lengthTable.length := (List.getElem?_eq_some_iff.mp hrow).1
  have hpow := Nat.two_pow_pos row.1
  obtain ⟨i, hi⟩ := Option.isSome_iff_exists.mp (llInstr_isSome (k := k + 257) (by change k < 29 at hk; omega) (L - row.2))
  obtain ⟨-, hn, he⟩ := llInstr_numbers hi (by rw [lengthExtra_eq hrow]; omega)
  refine ⟨i, hi, llInstr_format hi, hn, fun s => ?_⟩
  rw [exec_length (llInstr_format hi) (by omega) (by rw [hn, Nat.add_sub_cancel]; exact hrow), he, Nat.add_sub_cancel' h1]

/-! ### Distances -/

/-- The classes of the distance symbols cover the distances 1 to 32768. -/
theorem tiles_distanceTable : tiles 1 distanceTable 32769 = true := by decide

/-- MATCH's distance symbol and extra value. -/
theorem matchDistance_eq {d D : Nat} {row : Nat × Nat} (hrow : distanceTable[d]? = some row) (hd : InClass distanceTable d D) :
    matchDistance D = some (d, D - row.2) := by
  have hlt : d < distanceTable.length := (List.getElem?_eq_some_iff.mp hrow).1
  unfold matchDistance
  rw [find_class (n := 30) rfl hlt hd fun m _ hm => tiles_unique tiles_distanceTable hm hd, Option.map_some, hrow]
  rfl

/-- A distance form is of the format of distance symbols. -/
theorem distanceInstr_format {d e : Nat} {i : Instr} (h : distanceInstr d e = some i) : i.format = .d := by
  have forms : ∀ f, f ∈ distanceForms → (f e).format = .d := by simp [distanceForms, Instr.format]
  obtain ⟨f, hf, rfl⟩ := Option.map_eq_some_iff.mp h
  exact forms f (List.mem_of_getElem? hf)

/-- The distance element of a class names the distance. -/
theorem distanceInstr_distance {d D : Nat} {row : Nat × Nat} (hrow : distanceTable[d]? = some row) (h1 : row.2 ≤ D)
    (h2 : D ≤ row.2 + 2 ^ row.1 - 1) :
    ∃ j, distanceInstr d (D - row.2) = some j ∧ j.format = .d ∧ j.number = d ∧ distanceOf j = some D := by
  have hd : d < distanceTable.length := (List.getElem?_eq_some_iff.mp hrow).1
  have hpow := Nat.two_pow_pos row.1
  obtain ⟨j, hj⟩ := Option.isSome_iff_exists.mp (distanceInstr_isSome (k := d) (by change d < 30 at hd; omega) (D - row.2))
  obtain ⟨-, hn, he⟩ := distanceInstr_numbers hj (by rw [distanceExtra, hrow]; show D - row.2 < 2 ^ row.1; omega)
  refine ⟨j, hj, distanceInstr_format hj, hn, ?_⟩
  rw [distanceOf, if_pos (distanceInstr_format hj), hn, hrow, Option.map_some, he, Nat.add_sub_cancel' h1]

/-- Settles O35: the classes tile the lengths and the distances, so each is in one class (`existsUnique_lengthClass`,
`tiles_unique`), which MATCH finds (`matchLength_eq`, `matchDistance_eq`). -/
theorem matchExpandsUniquely : Obligations.MatchExpandsUniquely := by
  unfold Obligations.MatchExpandsUniquely
  refine ⟨fun L D hL3 hL hD1 hD => ?_, fun f => ⟨rfl, rfl, rfl, rfl⟩⟩
  obtain ⟨k, ⟨hk, hne⟩, hu⟩ := existsUnique_lengthClass hL3 hL
  obtain ⟨row, hrow, hk1, hk2⟩ := id hk
  obtain ⟨i, hi, hif, hin, hexec⟩ := llInstr_length hrow hk1 hk2
  obtain ⟨d, hd⟩ := tiles_exists tiles_distanceTable hD1 (by omega : D < 32769)
  obtain ⟨drow, hdrow, hd1, hd2⟩ := id hd
  obtain ⟨j, hj, hjf, hjn, hdist⟩ := distanceInstr_distance hdrow hd1 hd2
  refine ⟨k + 257, d, i, j, ?_, lengthClass_iff.mpr ⟨k, rfl, hk⟩, fun h => hne (by omega), fun m hm hmne => ?_, hd,
    fun m hm => tiles_unique tiles_distanceTable hm hd, hif, hin, hjf, hjn, hdist, hexec⟩
  · simp only [sasmMatch, matchLength_eq hrow hk hne hu, matchDistance_eq hdrow hd, hi, hj]
  · obtain ⟨l, rfl, hl⟩ := lengthClass_iff.mp hm
    rw [hu l hl fun h => hmne (by omega)]

end Sys2Proof.Machine
end

section
/-! Words written out from the encodings (30 R104 to R112). -/

namespace Sys2Proof.Machine

open Sys2Proof

/-- Settles O1: the words without a code in front and the one of a code-length code are decoded as they stand, those of a fixed
block by `decodeBits_fixedSymbols` and `decodeBits_fixedDistances`. -/
theorem sampleWordsDecode : Obligations.SampleWordsDecode := by
  unfold Obligations.SampleWordsDecode
  refine ⟨by decide, by decide, by decide, ⟨⟨16, 2, 3⟩, by decide⟩, ?_, ?_, ?_, by decide, by decide⟩
  · exact ⟨_, decodeBits_fixedSymbols (k := 0x41) (e := 0) (by decide) (by decide) rfl []⟩
  · exact ⟨_, decodeBits_fixedSymbols (k := 256) (e := 0) (by decide) (by decide) rfl []⟩
  · exact ⟨_, decodeBits_fixedDistances (d := 5) (e := 1) (by decide) (by decide) rfl []⟩

end Sys2Proof.Machine
end

section
/-! READBIT (40 R141): how the cursor moves, with a reload of LA before the first bit of a byte and without one inside it. -/

namespace Sys2Proof.Machine

open Sys2Proof

section
variable {s t : State} {b : Bool}

/-- A bit read behind a spent LA loads the byte at POS and takes its bit 0. -/
theorem readBit_got_reload (h : readBit s = .got b t) (h8 : s.bitoff = 8) :
    t.pos = s.pos + 1 ∧ t.bitoff = 1 ∧ some t.la = memRead s.inMem s.pos := by
  rcases readBit_cases s with ⟨hne, -⟩ | ⟨-, -, hr⟩ | ⟨-, -, -, hr⟩ | ⟨v, -, -, hm, hr⟩
  · exact absurd h8 hne
  · cases hr.symm.trans h
  · cases hr.symm.trans h
  · cases hr.symm.trans h
    exact ⟨rfl, rfl, hm.symm⟩

/-- A bit read inside LA loads nothing. -/
theorem readBit_got_inside (h : readBit s = .got b t) (h8 : s.bitoff ≠ 8) :
    t.pos = s.pos ∧ t.la = s.la ∧ t.bitoff = s.bitoff + 1 := by
  rcases readBit_cases s with ⟨-, hr⟩ | ⟨he, -⟩ | ⟨he, -⟩ | ⟨-, he, -⟩
  · cases hr.symm.trans h
    exact ⟨rfl, rfl, rfl⟩
  · exact absurd he h8
  · exact absurd he h8
  · exact absurd he h8

end

/-- Settles O10: `readBit_spec` at the end of the stream and before it; the reload by `readBit_got_reload` and
`readBit_got_inside`. -/
theorem readBitReturnsTheNextStreamBit : Obligations.ReadBitReturnsTheNextStreamBit := by
  unfold Obligations.ReadBitReturnsTheNextStreamBit
  intro s hc
  refine ⟨fun hend => ?_, fun hlt hw => ?_⟩
  · rcases readBit_spec hc (fun hlt => absurd hend hlt.ne) with ⟨-, hr⟩ | ⟨hlt, -⟩
    · exact hr
    · exact absurd hend hlt.ne
  · rcases readBit_spec hc (fun _ => hw) with ⟨hend, -⟩ | ⟨-, t, hr, hsame, hcur, hpos⟩
    · exact absurd hend hlt.ne
    · exact ⟨t, hr, hsame, hcur, hpos, readBit_got_reload hr, fun h => readBit_got_inside hr h.ne⟩

end Sys2Proof.Machine
end

section
/-! Whose turn a step is (entry 4), and what the engine's move is: `exec` of the element the bits at the cursor decode to, on
the state the fetch left (41 R156), or the move that stopped the fetch. -/

namespace Sys2Proof.Machine

open Sys2Proof

section
variable {s t u : State} {d : Decoded} {w : CodeWord}

/-! ### Turns -/

/-- With no host move pending the engine moves. -/
theorem step_nothingPending (h : s.hostQueue = []) : step s = engineMove s := by
  unfold step nextTurn
  rw [h]

/-- A pending `elapse` is the engine's turn. -/
theorem step_elapse {rest : List HostAction} (h : s.hostQueue = .elapse :: rest) :
    step s = engineMove { s with hostQueue := rest } := by
  unfold step nextTurn
  rw [h]

/-! ### The registers a fetch fills -/

/-- DECODE of a distance symbol fills CODE, CLEN and DSYM. -/
theorem fetchedState_distance (hw : d.walked = some w) (hp : u.point = .distance) :
    fetchedState d u =
      { u with code := BitVec.ofNat 15 w.code, clen := BitVec.ofNat 4 w.len, dsym := BitVec.ofNat 5 w.sym } := by
  unfold fetchedState
  rw [hw]
  exact if_pos hp

/-- DECODE of any other symbol fills CODE, CLEN and SYM. -/
theorem fetchedState_symbol (hw : d.walked = some w) (hp : u.point ≠ .distance) :
    fetchedState d u =
      { u with code := BitVec.ofNat 15 w.code, clen := BitVec.ofNat 4 w.len, sym := BitVec.ofNat 9 w.sym } := by
  unfold fetchedState
  rw [hw]
  exact if_neg hp

/-- What a fetch that walked a code leaves in CODE, CLEN, SYM and DSYM, against the state before it. -/
theorem fetchedState_walked (h : sameButCursor s u) (hw : d.walked = some w) :
    (fetchedState d u).code = BitVec.ofNat 15 w.code ∧ (fetchedState d u).clen = BitVec.ofNat 4 w.len ∧
    (s.point = .distance → (fetchedState d u).dsym = BitVec.ofNat 5 w.sym ∧ (fetchedState d u).sym = s.sym) ∧
    (s.point ≠ .distance → (fetchedState d u).sym = BitVec.ofNat 9 w.sym ∧ (fetchedState d u).dsym = s.dsym) := by
  have hpoint : u.point = s.point := (congrArg State.point h :)
  have hsym : u.sym = s.sym := (congrArg State.sym h :)
  have hdsym : u.dsym = s.dsym := (congrArg State.dsym h :)
  by_cases hp : s.point = .distance
  · rw [fetchedState_distance hw (hpoint.trans hp)]
    exact ⟨rfl, rfl, fun _ => ⟨rfl, hsym⟩, fun hne => absurd hp hne⟩
  · rw [fetchedState_symbol hw (hpoint ▸ hp)]
    exact ⟨rfl, rfl, fun he => absurd he hp, fun _ => ⟨rfl, hdsym⟩⟩

/-! ### The engine's move -/

/-- The state behind a decoded element differs from the one before it in the cursor only. -/
theorem decode_got_sameButCursor {c : Context} (h : decode readBit c s = .got d t) : sameButCursor s t := by
  have hs := decode_sameButCursor c s
  rwa [h] at hs

/-- A running engine fetches at its point. -/
theorem fetch_of_running (h : running s = true) : fetch s = fetchAt s := if_pos h

/-- Phase INFLATE fetches from the stream, but at the end of a code-length list. -/
theorem fetch_of_inflate (hs : s.status = .inflate) (hsc : s.point ≠ .scanline) (hun : s.point ≠ .unpack)
    (hl : s.point = .codeLengths → s.lidx < listTotal s) : fetch s = fetchStream s := by
  rw [fetch_of_running (by simp [running, hs]), fetchAt]
  cases hp : s.point with
  | header | dynHeader | clcLengths | symbols | distance => rfl
  | codeLengths => exact if_pos (hl hp)
  | scanline => exact absurd hp hsc
  | unpack => exact absurd hp hun

/-- The element the stream holds runs on the state its fetch left. -/
theorem engineMove_of_got (hf : fetch s = fetchStream s) (hd : decode readBit (contextOf s) s = .got d t) :
    engineMove s = exec d.instr (fetchedState d t) :=
  engineMove_of_run (hf.trans (by rw [fetchStream, hd]))

/-- A stop of the decoder is the engine's move. -/
theorem engineMove_of_stop {v : Stop} (hf : fetch s = fetchStream s) (hd : decode readBit (contextOf s) s = .stop v t) :
    engineMove s = stopMove v t :=
  engineMove_of_move (hf.trans (by rw [fetchStream, hd]))

/-- In phase SCAN at an UNPACK the fetch looks at BITDEPTH only. -/
theorem fetch_of_unpack (hs : s.status = .scan) (hp : s.point = .unpack) : fetch s = fetchUnpack s := by
  rw [fetch_of_running (by simp [running, hs]), fetchAt, hp]

/-- In IDLE, DONE and FAULT the engine does nothing. -/
theorem engineMove_of_not_running (h : running s = false) : engineMove s = .next s :=
  engineMove_of_move (if_neg (by simp [h]))

end

/-- Settles O55: the turn by `step_nothingPending`, `step_elapse` and `step_hostMove`; the engine's move by `engineMove_of_got`
and `engineMove_of_stop` in the stream and by `fetchUnpack_eq` at an UNPACK. -/
theorem stepRunsTheFetchedElement : Obligations.StepRunsTheFetchedElement := by
  unfold Obligations.StepRunsTheFetchedElement
  intro s
  refine ⟨step_nothingPending, fun a rest hq => ?_, fun hs hsc hun hl => ?_, fun hs hp => ?_, fun hs => ?_⟩
  · split
    · rename_i ha
      exact step_elapse (ha ▸ hq)
    · rename_i ha
      exact step_hostMove hq ha
  · have hf := fetch_of_inflate hs hsc hun hl
    refine ⟨fun d t hd => ?_, fun w t hd => ?_⟩
    · have hsame := decode_got_sameButCursor hd
      exact ⟨fetchedState d t, engineMove_of_got hf hd, fetched_frame hsame d, fun w hw => fetchedState_walked hsame hw⟩
    · rw [engineMove_of_stop hf hd]
      refine ⟨?_, ?_, ?_, ?_⟩
      · rintro rfl; exact ⟨_, rfl, rfl, rfl⟩
      · rintro rfl; exact ⟨_, rfl, rfl, rfl⟩
      · rintro rfl; rfl
      · rintro rfl; rfl
  · have hf := (fetch_of_unpack hs hp).trans (fetchUnpack_eq s)
    refine ⟨fun i hi => ?_, fun hi => ?_⟩
    · exact engineMove_of_run (hf.trans (by rw [hi]))
    · exact engineMove_of_move (hf.trans (by rw [hi]))
  · rcases hs with hs | hs | hs <;> exact engineMove_of_not_running (by simp [running, hs])

end Sys2Proof.Machine
end

section
/-! BUILD (41 R150 to R159): the codes of a table are none the head of another, they are those of the loop over NEXT, and the test of R154
finds a code that does not fit in its length. -/

namespace Sys2Proof.Machine

open Sys2Proof

/-! ### Counting the symbols of a length -/

/-- Counting the entries `l` of a table is the library's count. -/
theorem countLen_eq_count (l : Nat) (T : List Nat) : countLen l T = T.count l := by
  induction T with
  | nil => rfl
  | cons t T ih =>
    rw [countLen, List.count_cons, ih]
    by_cases h : t = l <;> simp [h]

/-- BLCOUNT (41 R151) as the length of a filtered table. -/
theorem blCount_eq_filter (T : List Nat) (L : Nat) :
    blCount T L = if L = 0 then 0 else (T.filter fun t => t = L).length := by
  rw [blCount, countLen_eq_count, List.count_eq_length_filter]
  rfl

/-- The list of the symbols of length `l` has as many entries as the table has entries `l`. -/
@[simp] theorem symbolsOfLen_length (l : Nat) (T : List Nat) (s : Nat) : (symbolsOfLen l T s).length = countLen l T := by
  induction T generalizing s with
  | nil => rfl
  | cons t T ih =>
    rw [symbolsOfLen, countLen]
    split <;> simp [ih]

/-- Each number below BLCOUNT[l] counts the symbols of length `l` before some symbol of that length. -/
theorem exists_countLen_take {l j : Nat} {T : List Nat} (h : j < countLen l T) :
    ∃ k, T[k]? = some l ∧ countLen l (T.take k) = j := by
  rw [← symbolsOfLen_length l T 0] at h
  obtain ⟨k, -, hk, hj⟩ := (symbolsOfLen_getElem? l T 0 j _).mp (List.getElem?_eq_getElem h)
  exact ⟨k, hk, hj.symm⟩

/-- The codes of length `l` are the BLCOUNT[l] consecutive numbers from NEXT[l] on. -/
theorem exists_codeWord_of_lt_blCount {T : List Nat} {maxl l j : Nat} (h1 : 1 ≤ l) (hl : l ≤ maxl) (hj : j < blCount T l) :
    ∃ w, w ∈ codeWords T maxl ∧ w.len = l ∧ w.code = nextCode T l + j := by
  rw [blCount_pos T h1] at hj
  obtain ⟨k, hk, rfl⟩ := exists_countLen_take hj
  exact ⟨⟨k, l, _⟩, (mem_codeWords _ _ _).mpr ⟨h1, hl, hk, rfl⟩, rfl, rfl⟩

/-! ### No code is the head of another -/

/-- No code is the head of another, as bit strings (41 R159). -/
theorem codeBits_prefix_unique {T : List Nat} {maxl : Nat} (hT : overSubscribed T maxl = false) {v w : CodeWord}
    (hv : v ∈ codeWords T maxl) (hw : w ∈ codeWords T maxl) (h : codeBits v.len v.code <+: codeBits w.len w.code) : v = w := by
  obtain ⟨hlen, hhead⟩ := (codeBits_head_iff (codeWord_lt hT hv) (codeWord_lt hT hw)).mp h
  exact code_head_unique hv hw hlen hhead

/-- Settles O6: lengths by `mem_codeWords`, range by `codeWord_lt`, uniqueness by `codeWord_unique`, no code at the head of another by
`codeBits_prefix_unique`. -/
theorem prefixFreeCodes : Obligations.PrefixFreeCodes := by
  unfold Obligations.PrefixFreeCodes
  rintro T maxl ⟨hmax, hfit⟩
  refine ⟨fun w hw => ?_, fun s l hs hl => ?_, fun v w => codeBits_prefix_unique hfit⟩
  · obtain ⟨hpos, -, hsym, -⟩ := (mem_codeWords T maxl w).mp hw
    exact ⟨hsym, hpos, codeWord_lt hfit hw⟩
  · have hw : ⟨s, l, nextCode T l + countLen l (T.take s)⟩ ∈ codeWords T maxl :=
      (mem_codeWords _ _ _).mpr ⟨hl, hmax l (List.mem_of_getElem? hs), hs, rfl⟩
    exact ⟨_, hw, rfl, fun v hv hvs => codeWord_unique hv hw hvs⟩

/-! ### The loop over NEXT -/

/-- Numbering the entries of one length from `c` on: a first entry of that length takes `c`, and the entries behind it go on from
`c + 1`; behind a first entry of another length they go on from `c`. -/
theorem exists_entry_cons (t : Nat) (T : List Nat) (s c : Nat) (w : CodeWord) :
    (∃ k, w.sym = s + k ∧ (t :: T)[k]? = some w.len ∧ w.code = c + countLen w.len ((t :: T).take k)) ↔
      (w.sym = s ∧ t = w.len ∧ w.code = c) ∨
      ∃ k, w.sym = s + 1 + k ∧ T[k]? = some w.len ∧
        w.code = (if w.len = t then c + 1 else c) + countLen w.len (T.take k) := by
  rw [← Nat.or_exists_add_one]
  refine or_congr (by simp [countLen]) (exists_congr fun k => ?_)
  rw [List.getElem?_cons_succ, List.take_succ_cons, countLen, Nat.add_assoc, Nat.add_comm k]
  by_cases ht : t = w.len
  · rw [if_pos ht, if_pos ht.symm, Nat.add_assoc, Nat.add_comm _ 1]
  · rw [if_neg ht, if_neg (Ne.symm ht)]

/-- The loop of 41 R153 from symbol `s` on: the symbol `k` places further with the positive length `l` gets NEXT[l] plus the number
of symbols of that length passed on the way. -/
theorem mem_buildLoop (T : List Nat) (s : Nat) (next : Nat → Nat) (w : CodeWord) :
    w ∈ buildLoop T s next ↔
      0 < w.len ∧ ∃ k, w.sym = s + k ∧ T[k]? = some w.len ∧ w.code = next w.len + countLen w.len (T.take k) := by
  induction T generalizing s next with
  | nil => simp [buildLoop]
  | cons t T ih =>
    rw [exists_entry_cons]
    by_cases ht : t = 0
    · rw [buildLoop, if_pos ht, ih]
      refine and_congr_right fun hpos => ?_
      have hne : w.len ≠ t := by omega
      simp [hne, hne.symm]
    · rw [buildLoop, if_neg ht, List.mem_cons, ih, and_or_left]
      refine or_congr ?_ ?_
      · obtain ⟨sym, len, code⟩ := w
        rw [CodeWord.mk.injEq]
        constructor
        · rintro ⟨rfl, rfl, rfl⟩
          exact ⟨Nat.pos_of_ne_zero ht, rfl, rfl, rfl⟩
        · rintro ⟨-, rfl, rfl, hcode⟩
          exact ⟨rfl, rfl, hcode⟩
      · refine and_congr_right fun _ => ?_
        by_cases hlen : w.len = t <;> simp [hlen]

/-- The worked example of 41 R153. -/
theorem buildLoop_example :
    buildLoop [3, 3, 3, 3, 3, 2, 4, 4] 0 (nextCode [3, 3, 3, 3, 3, 2, 4, 4]) =
      [⟨0, 3, 0b010⟩, ⟨1, 3, 0b011⟩, ⟨2, 3, 0b100⟩, ⟨3, 3, 0b101⟩] ++
      [⟨4, 3, 0b110⟩, ⟨5, 2, 0b00⟩, ⟨6, 4, 0b1110⟩, ⟨7, 4, 0b1111⟩] := by
  decide

/-- The code words are the words of the loop that starts from NEXT. -/
theorem mem_codeWords_iff_mem_buildLoop {T : List Nat} {maxl : Nat} (hmax : ∀ l, l ∈ T → l ≤ maxl) (w : CodeWord) :
    w ∈ codeWords T maxl ↔ w ∈ buildLoop T 0 (nextCode T) := by
  rw [mem_codeWords, mem_buildLoop]
  constructor
  · rintro ⟨hpos, -, hsym, hcode⟩
    exact ⟨hpos, w.sym, (Nat.zero_add _).symm, hsym, hcode⟩
  · rintro ⟨hpos, k, hk, hsym, hcode⟩
    obtain rfl : w.sym = k := hk.trans (Nat.zero_add k)
    exact ⟨hpos, hmax _ (List.mem_of_getElem? hsym), hsym, hcode⟩

/-- Settles O7: both sides give a symbol NEXT of its length plus the number of symbols of that length before it
(`mem_codeWords`, `mem_buildLoop`). -/
theorem buildLoopAssignsTheCodes : Obligations.BuildLoopAssignsTheCodes := by
  unfold Obligations.BuildLoopAssignsTheCodes
  refine ⟨blCount_eq_filter, fun T => ⟨rfl, fun L hL => ?_⟩, fun T maxl => mem_codeWords_iff_mem_buildLoop, buildLoop_example⟩
  rw [← nextCode_succ T (by omega), Nat.sub_add_cancel (by omega)]

/-! ### Over-subscription -/

/-- The Kraft sum of 41 R154, written as the sum of a list. -/
theorem kraftSum_eq_sum (T : List Nat) (maxl n : Nat) :
    kraftSum T maxl n = ((List.range n).map fun k => blCount T (k + 1) * 2 ^ (maxl - (k + 1))).sum := by
  induction n with
  | zero => rfl
  | succ n ih => simp [kraftSum, List.range_succ, ih]

/-- The last code of a length fits, so where NEXT lies within the code space of the length, the codes from it on do too. -/
theorem nextCode_add_blCount_le_of_nextCode_le {T : List Nat} {maxl : Nat}
    (hfit : ∀ w, w ∈ codeWords T maxl → w.code < 2 ^ w.len) {l : Nat} (h1 : 1 ≤ l) (hl : l ≤ maxl)
    (hnext : nextCode T l ≤ 2 ^ l) : nextCode T l + blCount T l ≤ 2 ^ l := by
  by_cases h0 : blCount T l = 0
  · rwa [h0]
  · obtain ⟨w, hw, rfl, hcode⟩ := exists_codeWord_of_lt_blCount h1 hl (Nat.sub_one_lt h0)
    have := hfit w hw
    omega

/-- Where every code fits in its length, NEXT and the codes of a length end within its code space. -/
theorem nextCode_add_blCount_le {T : List Nat} {maxl : Nat} (hfit : ∀ w, w ∈ codeWords T maxl → w.code < 2 ^ w.len)
    {n : Nat} (hn : n + 1 ≤ maxl) : nextCode T (n + 1) + blCount T (n + 1) ≤ 2 ^ (n + 1) := by
  induction n with
  | zero => exact nextCode_add_blCount_le_of_nextCode_le hfit le_rfl hn (Nat.zero_le _)
  | succ n ih =>
    refine nextCode_add_blCount_le_of_nextCode_le hfit (by omega) hn ?_
    rw [nextCode_succ T (by omega), Nat.pow_succ]
    exact Nat.mul_le_mul_right 2 (ih (by omega))

/-- The test of 41 R154 fails exactly when every code fits in its length. -/
theorem overSubscribed_eq_false_iff (T : List Nat) (maxl : Nat) :
    overSubscribed T maxl = false ↔ ∀ w, w ∈ codeWords T maxl → w.code < 2 ^ w.len := by
  refine ⟨fun h w => codeWord_lt h, fun hfit => ?_⟩
  rw [overSubscribed, decide_eq_false_iff_not, Nat.not_lt]
  cases maxl with
  | zero => exact Nat.zero_le _
  | succ m =>
    rw [kraftSum_eq T _ _ (by omega) le_rfl, Nat.sub_self, Nat.pow_zero, Nat.mul_one]
    exact nextCode_add_blCount_le hfit le_rfl

/-- Settles O8: the sum by `kraftSum_eq_sum`, the code that does not fit by `overSubscribed_eq_false_iff`. -/
theorem overSubscriptionIsACodeThatDoesNotFit : Obligations.OverSubscriptionIsACodeThatDoesNotFit := by
  unfold Obligations.OverSubscriptionIsACodeThatDoesNotFit
  refine ⟨fun T maxl => ?_, fun T maxl => ?_, by decide⟩
  · rw [overSubscribed, decide_eq_true_iff, kraftSum_eq_sum]
  · rw [← Bool.not_eq_false, overSubscribed_eq_false_iff]
    push Not
    rfl

/-! ### DECODE at an absent child -/

/-- With no code at all DECODE reads one bit and stops malformed (41 R157). -/
theorem decodeSymbol_noCode {T : List Nat} {maxl : Nat} (hmax : 1 ≤ maxl) (h : codeWords T maxl = []) (b : Bool)
    (rest : List Bool) : decodeSymbol listReader T maxl (b :: rest) = .stop .malformed rest := by
  obtain ⟨m, rfl⟩ : ∃ m, maxl = m + 1 := ⟨maxl - 1, by omega⟩
  rw [decodeSymbol, h]
  rfl

/-- Bits all of whose prefixes end strictly inside codes are empty, or they end strictly inside a code themselves. -/
theorem eq_nil_or_inside_codeWord {T : List Nat} {maxl : Nat} {bits : List Bool}
    (hin : ∀ n, 0 < n → n ≤ bits.length →
      ∃ w, w ∈ codeWords T maxl ∧ n < w.len ∧ bits.take n = (codeBits w.len w.code).take n) :
    bits = [] ∨ ∃ w, w ∈ codeWords T maxl ∧ bits.length < w.len ∧ bits = (codeBits w.len w.code).take bits.length := by
  rcases bits.length.eq_zero_or_pos with h0 | hpos
  · exact .inl (List.eq_nil_of_length_eq_zero h0)
  · obtain ⟨w, hw, hlt, heq⟩ := hin _ hpos le_rfl
    exact .inr ⟨w, hw, hlt, bits.take_length.symm.trans heq⟩

/-- Settles O9: the end of the stream by `decodeSymbol_cut`, a code by `decodeSymbol_codeWord`, an absent child by
`decodeSymbol_absentChild`, and by `decodeSymbol_noCode` where there is no code to be inside of. -/
theorem absentChildStopsDecode : Obligations.AbsentChildStopsDecode := by
  unfold Obligations.AbsentChildStopsDecode
  rintro T maxl bits b rest ⟨-, hfit⟩ hmax hin
  refine ⟨?_, fun w hw hbits => ?_, fun habs => ?_⟩
  · rcases eq_nil_or_inside_codeWord hin with rfl | ⟨w, hw, hlt, hbits⟩
    · obtain ⟨m, rfl⟩ : ∃ m, maxl = m + 1 := ⟨maxl - 1, by omega⟩
      rfl
    · rw [hbits]
      exact decodeSymbol_cut hfit hw hlt
  · rw [List.append_cons, hbits]
    exact decodeSymbol_codeWord hfit hw rest
  · rcases eq_nil_or_inside_codeWord hin with rfl | ⟨w, hw, hlt, hbits⟩
    · by_cases hnone : codeWords T maxl = []
      · exact decodeSymbol_noCode hmax hnone b rest
      · obtain ⟨w, hw⟩ := List.exists_mem_of_ne_nil _ hnone
        exact decodeSymbol_absentChild (bits := []) hfit hw ((mem_codeWords T maxl w).mp hw).1 List.nil_prefix habs rest
    · exact decodeSymbol_absentChild hfit hw hlt (List.prefix_iff_eq_take.mpr hbits) habs rest

end Sys2Proof.Machine
end

section
/-! The block headers that DYNHDR does not follow: the fixed block installs its tables (42 R173), the stored and the reserved
type fault (42 R172, R175). -/

namespace Sys2Proof.Machine

open Sys2Proof

/-- Settles O14: the lengths are those of R176 and R177, and BUILD accepts them (`fixedLL_fits`, `fixedD_fits`). -/
theorem fixedBlockInstallsItsTables : Obligations.FixedBlockInstallsItsTables := by
  unfold Obligations.FixedBlockInstallsItsTables
  refine ⟨fun f s => rfl, fixedLL_fits, fixedD_fits, fun k hk => ?_, fun d hd => ?_⟩
  · rw [fixedLL, List.getElem?_map, List.getElem?_range hk, Option.map_some]
  · rw [fixedD, List.getElem?_map, List.getElem?_range hd, Option.map_some]

/-- Settles O16: the three bits are read as O13 says (`headerBitsSelectTheBlock`), and either element raises in every state. -/
theorem storedAndReservedBlocksFault : Obligations.StoredAndReservedBlocksFault := by
  unfold Obligations.StoredAndReservedBlocksFault
  intro f
  refine ⟨headerBitsSelectTheBlock f false false, headerBitsSelectTheBlock f true true, fun s => ⟨?_, ?_⟩⟩
  · exact ⟨_, rfl, rfl, rfl⟩
  · exact ⟨_, rfl, rfl, rfl⟩

end Sys2Proof.Machine
end

section
/-! The code-length list (42 R181 to R188): a run past its end raises and a run within it fills LENS, a symbol with extra bits is
read as its element, and the end of the list splits LENS and builds both codes. -/

namespace Sys2Proof.Machine

open Sys2Proof

section
variable {s : State} {i : Instr} {r : Nat} {v : BitVec 4}

/-! ### Runs -/

/-- An element that is a raising micro-operation raises. -/
theorem raises_of_act {a : Act} {k : ErrKind} {u : State} (hi : exec i s = a.outcome) (ha : a = .raise k u) : Raises i s k :=
  ⟨raise k u, by rw [hi, ha, Act.outcome_raise], rfl, rfl⟩

/-- The overrun test of R186. -/
theorem lensRun_past (h : listTotal s < s.lidx + r) : lensRun r v s = .raise .malformedBitstream s := if_pos h

/-- A run that ends within the list. -/
theorem lensRun_within (h : s.lidx + r ≤ listTotal s) :
    ∃ l, lensRun r v s = .go { s with lens := l, lidx := s.lidx + r } ∧
      ∀ k, k < s.lens.length → l[k]? = if s.lidx ≤ k ∧ k < s.lidx + r then some v else s.lens[k]? := by
  obtain ⟨l, hl, -, hget⟩ := fillLens_spec v r s
  refine ⟨l, ?_, fun k hk => ?_⟩
  · rw [lensRun, if_neg (Nat.not_lt.mpr h), hl]
  · simpa only [hk, and_true] using hget k

/-- CL.REP is a run of the previous length. -/
theorem exec_clRep (h : s.prevlen = some v) (e : BitVec 2) : exec (.clRep e) s = (lensRun (3 + e.toNat) v s).outcome := by
  show execClRep e s = _
  rw [execClRep, h]

/-- CL.REP without a previous length (42 R183). -/
theorem clRep_raises_of_none (h : s.prevlen = none) (e : BitVec 2) : Raises (.clRep e) s .malformedBitstream := by
  refine ⟨raise .malformedBitstream s, ?_, rfl, rfl⟩
  show execClRep e s = _
  rw [execClRep, h]

/-- CL.REP past the end of the list (42 R186). -/
theorem clRep_raises_past (h : s.prevlen = some v) {e : BitVec 2} (hr : listTotal s < s.lidx + (3 + e.toNat)) :
    Raises (.clRep e) s .malformedBitstream :=
  raises_of_act (exec_clRep h e) (lensRun_past hr)

/-- CL.Z3 and CL.Z11 are runs of zeros of the lengths 3 + e and 11 + e. -/
theorem exec_eq_zeroRun
    (h : (∃ e : BitVec 3, i = .clZ3 e ∧ r = 3 + e.toNat) ∨ (∃ e : BitVec 7, i = .clZ11 e ∧ r = 11 + e.toNat)) (s : State) :
    exec i s = (zeroRun r s).outcome := by
  rcases h with ⟨e, rfl, rfl⟩ | ⟨e, rfl, rfl⟩ <;> rfl

/-! ### Symbols with extra bits -/

/-- A code-length symbol followed by its `n` extra bits is read as its element. -/
theorem decodeBits_clSymbol {T : List Nat} {p : Bool} {bits rest : List Bool} {w : CodeWord} {n e : Nat}
    (hd : decodeSymbol listReader T maxCl bits = .got w (fieldBits n e ++ rest)) (hn : clExtra p w.sym = n) (he : e < 2 ^ n)
    (hi : clInstr w.sym e = some i) : decodeBits (.clSymbol T p) bits = .got { instr := i, walked := some w } rest := by
  show codedElement listReader T maxCl (clExtra p) clInstr bits = _
  rw [codedElement, hd, Got.andThen_got, hn, readField_fieldBits_lt he, Got.andThen_got, hi]
  rfl

/-! ### The end of the list -/

/-- With LIDX at the end of the list the engine's move is the split and both BUILDs. -/
theorem engineMove_of_listEnd (hs : s.status = .inflate) (hp : s.point = .codeLengths) (hl : s.lidx = listTotal s) :
    engineMove s = (buildSymbols (splitLens s)).outcome := by
  refine engineMove_of_move ?_
  rw [fetch_of_running (by simp [running, hs]), fetchAt, hp]
  exact if_neg (by omega)

/-- Both BUILDs accept. -/
theorem buildSymbols_accepts (hL : overSubscribed (lengthsOf s.lllen) maxSym = false)
    (hD : overSubscribed (lengthsOf s.dlen) maxSym = false) : buildSymbols s = .go { s with point := .symbols } := by
  rw [buildSymbols, hL, hD]
  rfl

/-- One of the BUILDs raises. -/
theorem buildSymbols_raises
    (h : overSubscribed (lengthsOf s.lllen) maxSym = true ∨ overSubscribed (lengthsOf s.dlen) maxSym = true) :
    buildSymbols s = .raise .malformedBitstream s := by
  unfold buildSymbols
  split_ifs with hL hD
  · rfl
  · rfl
  · exact (h.elim hL hD).elim

/-- LLLEN after the split is the first NLIT lengths of LENS, and zeros. -/
theorem splitLens_lllen_getElem? (h : s.nlit.toNat ≤ s.lens.length) {k : Nat} (hk : k < 288) :
    (splitLens s).lllen[k]? = if k < s.nlit.toNat then s.lens[k]? else some 0 := by
  simp only [splitLens, List.getElem?_map, List.getElem?_range hk, Option.map_some]
  split_ifs with hlt
  · rw [List.getD_eq_getElem _ _ (by omega), List.getElem?_eq_getElem]
  · rfl

/-- DLEN after the split is the NDIST lengths behind them, and zeros. -/
theorem splitLens_dlen_getElem? (h : s.nlit.toNat + s.ndist.toNat ≤ s.lens.length) {d : Nat} (hd : d < 32) :
    (splitLens s).dlen[d]? = if d < s.ndist.toNat then s.lens[s.nlit.toNat + d]? else some 0 := by
  simp only [splitLens, List.getElem?_map, List.getElem?_range hd, Option.map_some]
  split_ifs with hlt
  · rw [List.getD_eq_getElem _ _ (by omega), List.getElem?_eq_getElem]
  · rfl

end

/-- Settles O19: LENS is set at LIDX alone. -/
theorem codeLengthIsAppended : Obligations.CodeLengthIsAppended := by
  unfold Obligations.CodeLengthIsAppended
  intro n s
  refine ⟨{ s with lens := s.lens.set s.lidx n, lidx := s.lidx + 1, prevlen := some n }, rfl, ?_, ?_, rfl⟩
  · exact List.getElem?_set_self
  · exact fun k hk => List.getElem?_set_ne hk.symm

/-- Settles O20: CL.REP is a run of the previous length (`exec_clRep`), past the end or within the list; it is read with 2 extra
bits, or with none where there is no previous length. -/
theorem repeatCopiesThePreviousLength : Obligations.RepeatCopiesThePreviousLength := by
  unfold Obligations.RepeatCopiesThePreviousLength
  refine ⟨fun e s => ⟨fun h => clRep_raises_of_none h e, fun v h hr => clRep_raises_past h hr, fun v h hr => ?_⟩, ?_, ?_⟩
  · obtain ⟨l, hrun, hget⟩ := lensRun_within (v := v) hr
    exact ⟨_, by rw [exec_clRep h, hrun, Act.outcome_go], hget, rfl⟩
  · intro T w bits rest hd hw
    exact decodeBits_clSymbol (n := 0) (e := 0) hd (by rw [hw]; rfl) (by decide) (by rw [hw]; rfl)
  · intro T w bits rest e hd hw
    exact decodeBits_clSymbol hd (by rw [hw]; rfl) e.isLt (hw ▸ Laws.Reassemble.clRep e rfl)

/-- Settles O21: both elements are runs of zeros (`exec_eq_zeroRun`), past the end or within the list, and are read with their 3
and 7 extra bits. -/
theorem zeroRunsAppendZeros : Obligations.ZeroRunsAppendZeros := by
  unfold Obligations.ZeroRunsAppendZeros
  refine ⟨fun i r hi s => ⟨fun hr => ?_, fun hr => ?_⟩, fun e s v h hr => clRep_raises_past h hr, ?_, ?_⟩
  · exact raises_of_act (exec_eq_zeroRun hi s) (by rw [zeroRun, lensRun_past hr, Act.andThen_raise])
  · obtain ⟨l, hrun, hget⟩ := lensRun_within (v := 0) hr
    exact ⟨_, by rw [exec_eq_zeroRun hi, zeroRun, hrun, Act.andThen_go, Act.outcome_go], hget, rfl⟩
  · intro p T w bits rest e hd hw
    exact decodeBits_clSymbol hd (by rw [hw]; rfl) e.isLt (hw ▸ Laws.Reassemble.clZ3 e rfl)
  · intro p T w bits rest e hd hw
    exact decodeBits_clSymbol hd (by rw [hw]; rfl) e.isLt (hw ▸ Laws.Reassemble.clZ11 e rfl)

/-- Settles O22: the tables are those of `splitLens`, entry by entry, and BUILD accepts both or raises. -/
theorem listEndSplitsTheTables : Obligations.ListEndSplitsTheTables := by
  unfold Obligations.ListEndSplitsTheTables
  intro s hs hp hlen hnlit hndist hl
  have hmove := engineMove_of_listEnd hs hp hl
  refine ⟨(splitLens s).lllen, (splitLens s).dlen, by simp [splitLens], by simp [splitLens], fun k hk => ?_, fun d hd => ?_,
    fun hL hD => ?_, fun h => ?_⟩
  · exact splitLens_lllen_getElem? (by omega) hk
  · exact splitLens_dlen_getElem? (by omega) hd
  · rw [hmove, buildSymbols_accepts hL hD]
    rfl
  · exact ⟨_, by rw [hmove, buildSymbols_raises h, Act.outcome_raise], rfl, rfl⟩

end Sys2Proof.Machine
end

section
/-! The symbols of a fixed block (43 R200 to R281): an element is read from its fixed code and its extra bits, and what it does to
the state is said once for each family: EOB, literals, lengths, copies, reserved symbols. -/

namespace Sys2Proof.Machine

open Sys2Proof Sys2Proof.Laws

section
variable {i : Instr} {s t : State} {bits : List Bool} {d : Nat}

/-! ### Reading the symbols of a fixed block -/

/-- The types check all that a symbol needs. -/
theorem wellFormed_of_symbol (hf : i.format = .ll ∨ i.format = .d) : i.wellFormed = true := by
  unfold Instr.wellFormed
  split
  · exact absurd hf (by simp [Instr.format])
  · exact absurd hf (by simp [Instr.format])
  · rfl

/-- A literal/length number that selects an element is in the alphabet. -/
theorem lt_of_llInstr_eq_some {k e : Nat} (h : llInstr k e = some i) : k < 288 := by
  unfold llInstr at h
  split_ifs at h <;> omega

/-- A literal/length element of a fixed block is read from its code (30 R111) and its extra bits. -/
theorem readsAs_fixedSymbol (hf : i.format = .ll)
    (hb : bits = codeBits (fixLL i.number) (fixCode i.number) ++ fieldBits (lengthExtra i.number) i.extra) :
    ReadsAs fixedSymbols bits i := by
  have hi : llInstr i.number i.extra = some i := assemble_of_format (wellFormed_of_symbol (.inl hf)) hf
  subst hb
  exact readsAs_llSymbol fixedLL_fits (w := ⟨i.number, fixLL i.number, fixCode i.number⟩)
    (mem_codeWords_fixedLL.mpr ⟨lt_of_llInstr_eq_some hi, rfl, rfl⟩) ((extra_lt i).2.1 hf) hi

/-- The fixed code of a literal (30 R111). -/
theorem literalCode_eq (b : Byte) : codeBits (fixLL b.toNat) (fixCode b.toNat) =
    if b.toNat ≤ 143 then codeBits 8 (0b00110000 + b.toNat) else codeBits 9 (0b110010000 + (b.toNat - 144)) := by
  have hlt := b.isLt
  by_cases hb : b.toNat ≤ 143
  · simp [fixLL, fixCode, hb, show b.toNat < 144 by omega]
  · simp [fixLL, fixCode, hb, show ¬b.toNat < 144 by omega, hlt]

/-- A literal has no extra bits. -/
theorem lengthExtra_literal (b : Byte) : lengthExtra b.toNat = 0 := if_pos (b.isLt.trans (by decide))

/-- Only the symbols of the distance table name a distance. -/
theorem number_lt_of_distanceOf (h : distanceOf i = some d) : i.number < 30 := by
  rw [distanceOf, if_pos (format_of_distanceOf h)] at h
  obtain ⟨row, hrow, -⟩ := Option.map_eq_some_iff.mp h
  exact (List.getElem?_eq_some_iff.mp hrow).1

/-- A distance element of a fixed block is read from its 5-bit code and its extra bits. -/
theorem readsAs_fixedDistance (h : distanceOf i = some d)
    (hb : bits = codeBits 5 i.number ++ fieldBits (distanceExtra i.number) i.extra) : ReadsAs fixedDistances bits i := by
  have hf := format_of_distanceOf h
  subst hb
  exact readsAs_distance fixedD_fits (w := ⟨i.number, 5, i.number⟩)
    (mem_codeWords_fixedD.mpr ⟨number_lt_of_distanceOf h, rfl, rfl⟩) ((extra_lt i).2.2 hf)
    (assemble_of_format (wellFormed_of_symbol (.inr hf)) hf)

/-! ### Lengths -/

/-- No length class reaches beyond 258. -/
theorem lengthTable_le {k x b : Nat} (hrow : lengthTable[k]? = some (x, b)) : b + 2 ^ x ≤ 259 := by
  have all : ∀ row, row ∈ lengthTable → row.2 + 2 ^ row.1 ≤ 259 := by decide
  exact all _ (List.mem_of_getElem? hrow)

/-- A length element with `x` extra bits from base `b` is read from its fixed code and its extra bits, and its exec sets LEN to
the base plus their value. -/
theorem length_reads_and_sets {k x b : Nat} (hf : i.format = .ll) (hn : i.number = k + 257)
    (hrow : lengthTable[k]? = some (x, b)) (hb : bits = codeBits (fixLL (k + 257)) (fixCode (k + 257)) ++ fieldBits x i.extra) :
    ReadsAs fixedSymbols bits i ∧ ∀ s, ∃ t, exec i s = .next t ∧ t.len.toNat = b + i.extra ∧
      t = { s with len := t.len, point := .distance } := by
  have hx : lengthExtra i.number = x := by rw [hn, lengthExtra_eq hrow]
  refine ⟨readsAs_fixedSymbol hf (by rw [hx, hn, hb]), fun s => ⟨setLength (b + i.extra) s, ?_, ?_, rfl⟩⟩
  · exact exec_length hf (by omega) (by rw [hn, Nat.add_sub_cancel]; exact hrow) s
  · have he := hx ▸ (extra_lt i).2.1 hf
    have := lengthTable_le hrow
    exact Nat.mod_eq_of_lt (by omega)

/-! ### Copies -/

/-- The distance element of symbol `k` is read from its fixed code and its extra bits, and where the copy runs to its end its exec
is the copy. -/
theorem distance_reads_and_copies (k : Nat) (hn : i.number = k) (h : distanceOf i = some d)
    (hb : bits = codeBits 5 k ++ fieldBits (distanceExtra k) i.extra) :
    ReadsAs fixedDistances bits i ∧ ∀ s, Copyable d s → ∃ t, exec i s = .next t ∧ Copied d s t := by
  subst hn
  refine ⟨readsAs_fixedDistance h hb, fun s hs => ?_⟩
  obtain ⟨he, -, hd⟩ := exec_distanceOf h s
  obtain ⟨t, ht, hc, -⟩ := copyFrom_copied hd hs
  exact ⟨t, he.trans ht, hc⟩

/-- A distance element whose distance lies beyond OUT_LEN raises. -/
theorem distance_raises_far (h : distanceOf i = some d) (hd : s.outLen < d) : Raises i s .malformedBitstream := by
  obtain ⟨he, -, hmax⟩ := exec_distanceOf h s
  exact raises_of_act he (copyFrom_far hmax hd)

/-- The bytes produced before a copy stay. -/
theorem Copied.read_old (h : Copied d s t) {a : Nat} (ha : a < s.outLen) : memRead t.out a = memRead s.out a :=
  h.kept a (by omega)

/-- Byte `j` of a copy is the byte `d` before it. -/
theorem Copied.read_new (h : Copied d s t) {j : Nat} (hj : j < s.len.toNat) :
    memRead t.out (s.outLen + j) = memRead t.out (s.outLen + j - d) := by
  obtain ⟨b, hb, hb'⟩ := h.copied j hj
  rw [hb, hb']

/-- A copy repeats the last `d` bytes before it (43 R287). -/
theorem Copied.read_pattern (h : Copied d s t) (h1 : 1 ≤ d) (hr : d ≤ s.outLen) {j : Nat} (hj : j < s.len.toNat) :
    memRead t.out (s.outLen + j) = memRead s.out (s.outLen - d + j % d) := by
  induction j using Nat.strongRecOn with
  | ind j ih =>
    rw [h.read_new hj]
    by_cases hjd : j < d
    · rw [h.read_old (by omega), Nat.mod_eq_of_lt hjd, Nat.sub_add_comm hr]
    · rw [Nat.add_sub_assoc (by omega), ih (j - d) (by omega) (by omega), ← Nat.mod_eq_sub_mod (by omega)]

/-! ### Reserved symbols -/

/-- A distance symbol without extra bits is read from its code alone. -/
theorem decodeBits_distance_noExtra {T : List Nat} {rest : List Bool} {w : CodeWord}
    (hd : decodeSymbol listReader T maxSym bits = .got w rest) (hx : distanceExtra w.sym = 0)
    (hi : distanceInstr w.sym 0 = some i) : decodeBits (.distance T) bits = .got { instr := i, walked := some w } rest := by
  show codedElement listReader T maxSym distanceExtra distanceInstr bits = _
  rw [codedElement, hd, Got.andThen_got, hx, readField, Got.andThen_got, hi]
  rfl

/-- A symbol that DECODE answers has a length in the table. -/
theorem decodeSymbol_getElem?_ne_zero {T : List Nat} {maxl : Nat} {rest : List Bool} {w : CodeWord}
    (hd : decodeSymbol listReader T maxl bits = .got w rest) : T[w.sym]? ≠ some 0 := by
  obtain ⟨hlen, -, hT, -⟩ := (mem_codeWords T maxl w).mp (decodeSymbol_eq_got hd).1
  rw [hT]
  exact fun h => absurd (Option.some.inj h) (by omega)

/-! ### EOB -/

/-- EOB of a block that is not the last (42 R170). -/
theorem blockEnd_of_not_final (h : s.bfinal = 0) : blockEnd s = { s with point := .header } := by
  rw [blockEnd, finalBlock, h]
  rfl

/-- EOB of the last block without phase SCAN. -/
theorem blockEnd_of_done (h : s.bfinal = 1) (hm : s.mode = 0) : blockEnd s = { s with status := .done } := by
  rw [blockEnd, finalBlock, scanEnabled, h, hm]
  rfl

/-- EOB of the last block before phase SCAN. -/
theorem blockEnd_of_scan (h : s.bfinal = 1) (hm : s.mode = 1) : blockEnd s = scanEntry s := by
  rw [blockEnd, finalBlock, scanEnabled, h, hm]
  rfl

/-- ROWBYTES is WIDTH * BITDEPTH * PLANES / 8, rounded up (10 R45). -/
theorem rowBytesOf_bounds (s : State) : s.width * s.bitdepth.toNat * s.planes.toNat ≤ 8 * rowBytesOf s ∧
    8 * rowBytesOf s < s.width * s.bitdepth.toNat * s.planes.toNat + 8 := by
  rw [rowBytesOf, bppBits, ← Nat.mul_assoc]
  omega

end

/-- Settles O17: `blockEnd` by BFINAL and MODE, with the row geometry of `scanEntry`. -/
theorem endOfBlockTestsFinal : Obligations.EndOfBlockTestsFinal := by
  unfold Obligations.EndOfBlockTestsFinal
  refine ⟨readsAs_fixedSymbol rfl rfl, fun s => ⟨fun h => ?_, fun h hm => ?_, fun h hm => ?_⟩⟩
  · exact congrArg Host.Outcome.next (blockEnd_of_not_final h)
  · exact congrArg Host.Outcome.next (blockEnd_of_done h hm)
  · obtain ⟨hle, hlt⟩ := rowBytesOf_bounds s
    exact ⟨scanEntry s, congrArg Host.Outcome.next (blockEnd_of_scan h hm), hle, hlt, rfl, List.length_replicate,
      fun _ => List.eq_of_mem_replicate, rfl⟩

/-- Settles O23: the two ranges of the literals' fixed codes, and the two cases of APPEND (`append_cases`). -/
theorem literalAppendsItsByte : Obligations.LiteralAppendsItsByte := by
  unfold Obligations.LiteralAppendsItsByte
  intro b
  refine ⟨readsAs_fixedSymbol rfl ?_, fun s => ⟨fun h => ?_, fun h => ?_⟩⟩
  · show _ = codeBits (fixLL b.toNat) (fixCode b.toNat) ++ fieldBits (lengthExtra b.toNat) 0
    rw [lengthExtra_literal, fieldBits, List.append_nil, literalCode_eq]
  · have happ := (append_cases b s).resolve_left fun hfull => h hfull.1
    exact ⟨_, congrArg Act.outcome happ.2, memRead_memWrite_same _ _ _, fun a ha => memRead_memWrite_other _ _ ha, rfl⟩
  · have happ := (append_cases b s).resolve_right fun hroom => hroom.1 h
    exact raises_of_act rfl happ.2

/-- Settles O24: the lengths without extra bits, symbol by symbol (`readsAs_fixedSymbol`). -/
theorem lengthsWithoutExtraBits : Obligations.LengthsWithoutExtraBits := by
  unfold Obligations.LengthsWithoutExtraBits
  refine ⟨⟨?_, fun _ => rfl⟩, ⟨?_, fun _ => rfl⟩, ⟨?_, fun _ => rfl⟩, ⟨?_, fun _ => rfl⟩, ⟨?_, fun _ => rfl⟩,
    ⟨?_, fun _ => rfl⟩, ⟨?_, fun _ => rfl⟩, ⟨?_, fun _ => rfl⟩, ⟨?_, fun _ => rfl⟩⟩ <;> exact readsAs_fixedSymbol rfl rfl

/-- Settles O25: the lengths with 1 to 3 extra bits, symbol by symbol (`length_reads_and_sets`). -/
theorem lengthsWithOneToThreeExtraBits : Obligations.LengthsWithOneToThreeExtraBits := by
  unfold Obligations.LengthsWithOneToThreeExtraBits
  refine ⟨fun e => ?_, fun e => ?_, fun e => ?_, fun e => ?_, fun e => ?_, fun e => ?_, fun e => ?_, fun e => ?_, fun e => ?_,
    fun e => ?_, fun e => ?_, fun e => ?_⟩ <;> exact length_reads_and_sets rfl rfl rfl rfl

/-- Settles O26: the lengths with 4 or 5 extra bits, symbol by symbol (`length_reads_and_sets`). -/
theorem lengthsWithFourOrFiveExtraBits : Obligations.LengthsWithFourOrFiveExtraBits := by
  unfold Obligations.LengthsWithFourOrFiveExtraBits
  refine ⟨fun e => ?_, fun e => ?_, fun e => ?_, fun e => ?_, fun e => ?_, fun e => ?_, fun e => ?_, fun e => ?_⟩ <;>
    exact length_reads_and_sets rfl rfl rfl rfl

/-- Settles O27: the distance symbols 0 to 9, one by one (`distance_reads_and_copies`). -/
theorem copiesAtDistances1To32 : Obligations.CopiesAtDistances1To32 :=
  ⟨distance_reads_and_copies 0 rfl rfl rfl, distance_reads_and_copies 1 rfl rfl rfl,
   distance_reads_and_copies 2 rfl rfl rfl, distance_reads_and_copies 3 rfl rfl rfl,
   fun _ => distance_reads_and_copies 4 rfl rfl rfl, fun _ => distance_reads_and_copies 5 rfl rfl rfl,
   fun _ => distance_reads_and_copies 6 rfl rfl rfl, fun _ => distance_reads_and_copies 7 rfl rfl rfl,
   fun _ => distance_reads_and_copies 8 rfl rfl rfl, fun _ => distance_reads_and_copies 9 rfl rfl rfl⟩

/-- Settles O28: the distance symbols 10 to 19, one by one (`distance_reads_and_copies`). -/
theorem copiesAtDistances33To1024 : Obligations.CopiesAtDistances33To1024 :=
  ⟨fun _ => distance_reads_and_copies 10 rfl rfl rfl, fun _ => distance_reads_and_copies 11 rfl rfl rfl,
   fun _ => distance_reads_and_copies 12 rfl rfl rfl, fun _ => distance_reads_and_copies 13 rfl rfl rfl,
   fun _ => distance_reads_and_copies 14 rfl rfl rfl, fun _ => distance_reads_and_copies 15 rfl rfl rfl,
   fun _ => distance_reads_and_copies 16 rfl rfl rfl, fun _ => distance_reads_and_copies 17 rfl rfl rfl,
   fun _ => distance_reads_and_copies 18 rfl rfl rfl, fun _ => distance_reads_and_copies 19 rfl rfl rfl⟩

/-- Settles O29: the distance symbols 20 to 29, one by one (`distance_reads_and_copies`). -/
theorem copiesAtDistances1025To32768 : Obligations.CopiesAtDistances1025To32768 :=
  ⟨fun _ => distance_reads_and_copies 20 rfl rfl rfl, fun _ => distance_reads_and_copies 21 rfl rfl rfl,
   fun _ => distance_reads_and_copies 22 rfl rfl rfl, fun _ => distance_reads_and_copies 23 rfl rfl rfl,
   fun _ => distance_reads_and_copies 24 rfl rfl rfl, fun _ => distance_reads_and_copies 25 rfl rfl rfl,
   fun _ => distance_reads_and_copies 26 rfl rfl rfl, fun _ => distance_reads_and_copies 27 rfl rfl rfl,
   fun _ => distance_reads_and_copies 28 rfl rfl rfl, fun _ => distance_reads_and_copies 29 rfl rfl rfl⟩

/-- Settles O30: a distance that is too far raises (`distance_raises_far`), as any does where nothing was produced; at OUT_LEN the
first byte copied is OUT[0]. -/
theorem distanceTooFarFaults : Obligations.DistanceTooFarFaults := by
  unfold Obligations.DistanceTooFarFaults
  intro i d s h
  obtain ⟨he, h1, hmax⟩ := exec_distanceOf h s
  refine ⟨distance_raises_far h, fun h0 => distance_raises_far h (by omega), fun hs hd hl => ?_⟩
  obtain ⟨t, ht, hc, -⟩ := copyFrom_copied hmax hs
  refine ⟨t, he.trans ht, by rw [hc.frame], ?_⟩
  have := hc.read_pattern h1 hs.reach (j := 0) hl
  rwa [Nat.add_zero, Nat.zero_mod, Nat.add_zero, hd, Nat.sub_self, ← hd] at this

/-- Settles O31: `Copied.read_pattern`, and with distance 1 each of the bytes is the last one. -/
theorem overlapRepeatsThePattern : Obligations.OverlapRepeatsThePattern := by
  unfold Obligations.OverlapRepeatsThePattern
  refine ⟨fun i d s h hs => ?_, fun s hlen hout hmem hcap => ?_⟩
  · obtain ⟨he, h1, hmax⟩ := exec_distanceOf h s
    obtain ⟨t, ht, hc, -⟩ := copyFrom_copied hmax hs
    exact ⟨t, he.trans ht, fun j hj => hc.read_pattern h1 hs.reach hj⟩
  · refine ⟨{ s with dist := 1, outLen := 6, point := .symbols
                     out := [(0, 0x41), (1, 0x41), (2, 0x41), (3, 0x41), (4, 0x41), (5, 0x41)] }, ?_, rfl⟩
    show (copyFrom 1 s).outcome = _
    simp [copyFrom, copy, copySteps, append, readBelow, memRead, memWrite, hlen, hout, hmem, hcap]

/-- Settles O32: `copySteps_runs`. -/
theorem copyNeverReadsAnUnwrittenCell : Obligations.CopyNeverReadsAnUnwrittenCell :=
  fun n s r hd hr hc => copySteps_runs n s hd hr hc r

/-- Settles O33: the codes of the reserved symbols are read without extra bits (`readsAs_fixedSymbol`,
`decodeBits_distance_noExtra`), and each exec raises in every state. -/
theorem reservedSymbolsFault : Obligations.ReservedSymbolsFault := by
  unfold Obligations.ReservedSymbolsFault
  refine ⟨readsAs_fixedSymbol rfl rfl, readsAs_fixedSymbol rfl rfl, fun T w bits rest hd => ⟨fun hw => ?_, fun hw => ?_⟩,
    fun s => ⟨⟨_, rfl, rfl, rfl⟩, ⟨_, rfl, rfl, rfl⟩, ⟨_, rfl, rfl, rfl⟩, ⟨_, rfl, rfl, rfl⟩⟩⟩
  · exact ⟨hw ▸ decodeSymbol_getElem?_ne_zero hd, decodeBits_distance_noExtra hd (by rw [hw]; rfl) (by rw [hw]; rfl)⟩
  · exact ⟨hw ▸ decodeSymbol_getElem?_ne_zero hd, decodeBits_distance_noExtra hd (by rw [hw]; rfl) (by rw [hw]; rfl)⟩

end Sys2Proof.Machine
end

section
/-! The filters (44 R291 to R301): UNFILTER runs each with its predictor, and the row it leaves is the only one whose forward
filter stands in OUT. -/

namespace Sys2Proof.Machine

open Sys2Proof

section
variable {i : Instr} {p : Byte → Byte → Byte → Byte} {s : State}

/-- An element that runs UNFILTER reconstructs with its predictor, if that answers wherever its neighbours do. -/
theorem reconstructs_of_unfilter {pred : Neighbours → Option Byte} (he : ∀ s, exec i s = (unfilter pred s).outcome)
    (hp : ∀ a b c, pred { a := some a, b := some b, c := some c } = some (p a b c)) : Reconstructs i p := by
  intro s hs
  obtain ⟨row, hr, hu⟩ := unfilter_row hp hs
  exact ⟨row, hr, by rw [he, hu, Act.outcome_go]⟩

/-- FILT.PAETH reconstructs with the Paeth predictor (44 R297). -/
theorem filtPaeth_reconstructs : Reconstructs .filtPaeth paeth :=
  reconstructs_of_unfilter (pred := predPaeth) (fun _ => rfl) fun _ _ _ => rfl

/-- Byte `k` of the forward filter: the byte of the row less the prediction, modulo 256 (44 R301). -/
theorem filterRow_getElem? {fu k : Nat} {row prior : List Byte} (hk : k < row.length) :
    (filterRow p fu row prior)[k]? =
      some (row.getD k 0 - p (leftOf fu k row) (prior.getD k 0) (leftOf fu k prior)) := by
  simp [filterRow, hk]

/-- A row whose forward filter stands in OUT meets the equations of the reconstruction: adding the prediction undoes
subtracting it, modulo 256. -/
theorem reconstructed_of_filterRow {row : List Byte} (hl : row.length = s.rowbytes)
    (hx : ∀ k, k < s.rowbytes → memRead s.out (s.rptr + 1 + k) = (filterRow p s.fu row s.prior)[k]?) :
    Reconstructed p s row := by
  refine ⟨hl, fun k hk => ⟨_, (hx k hk).trans (filterRow_getElem? (hl ▸ hk)), ?_⟩⟩
  rw [BitVec.sub_add_cancel]
  exact getElem?_eq_getD (hl ▸ hk)

/-- An element that reconstructs with a predictor undoes the forward filter with it: the reconstruction is unique. -/
theorem Reconstructs.recoversRow (h : Reconstructs i p) : RecoversRow i p := by
  intro s row hs hl hx
  obtain ⟨q, hq, he⟩ := h s hs
  rwa [reconstructed_unique hs.unit hq (reconstructed_of_filterRow hl hx)] at he

end

/-- Settles O37: each element runs UNFILTER with its predictor (`reconstructs_of_unfilter`). -/
theorem filtersReconstructTheRow : Obligations.FiltersReconstructTheRow :=
  ⟨reconstructs_of_unfilter (pred := predNone) (fun _ => rfl) fun _ _ _ => rfl,
    reconstructs_of_unfilter (pred := predSub) (fun _ => rfl) fun _ _ _ => rfl,
    reconstructs_of_unfilter (pred := predUp) (fun _ => rfl) fun _ _ _ => rfl,
    reconstructs_of_unfilter (pred := predAvg) (fun _ => rfl) fun _ _ _ => rfl⟩

/-- Settles O39: a reconstruction recovers the row (`Reconstructs.recoversRow`), and each of the five elements is one. -/
theorem undoingAFilterRecoversTheRow : Obligations.UndoingAFilterRecoversTheRow := by
  obtain ⟨hnone, hsub, hup, havg⟩ := filtersReconstructTheRow
  exact ⟨hnone.recoversRow, hsub.recoversRow, hup.recoversRow, havg.recoversRow, filtPaeth_reconstructs.recoversRow⟩

/-- The Paeth predictor with its distances as absolute values of integers (44 R297). -/
theorem paeth_eq (a b c : Byte) {p : Int} (hp : p = a.toNat + b.toNat - c.toNat) :
    paeth a b c = if |p - a.toNat| ≤ |p - b.toNat| ∧ |p - a.toNat| ≤ |p - c.toNat| then a
      else if |p - b.toNat| ≤ |p - c.toNat| then b else c := by
  simp only [paeth, hp, Int.abs_eq_natAbs, Int.ofNat_le]

/-- The choice of `paeth_eq` is a nearest neighbour: no other is nearer to p. -/
theorem paeth_nearest (a b c : Byte) {p : Int} (hp : p = a.toNat + b.toNat - c.toNat) :
    |p - (paeth a b c).toNat| ≤ |p - a.toNat| ∧ |p - (paeth a b c).toNat| ≤ |p - b.toNat| ∧
    |p - (paeth a b c).toNat| ≤ |p - c.toNat| := by
  rw [paeth_eq a b c hp]
  split_ifs with ha hb
  · exact ⟨le_rfl, ha⟩
  · have hba : |p - b.toNat| < |p - a.toNat| := by
      by_contra hab
      exact ha ⟨not_lt.mp hab, (not_lt.mp hab).trans hb⟩
    exact ⟨hba.le, le_rfl, hb⟩
  · have hcb := not_le.mp hb
    have hca : |p - c.toNat| < |p - a.toNat| := by
      by_contra hac
      exact ha ⟨(not_lt.mp hac).trans hcb.le, not_lt.mp hac⟩
    exact ⟨hca.le, hcb.le, le_rfl⟩

/-- Settles O38: FILT.PAETH runs UNFILTER with `predPaeth`, the choice is that of `paeth_eq`, and it is nearest
(`paeth_nearest`). -/
theorem paethReconstructsTheRow : Obligations.PaethReconstructsTheRow := by
  refine ⟨filtPaeth_reconstructs, fun a b c => ⟨_, rfl, fun ha => ?_, fun ha hb => ?_, fun ha hb => ?_, paeth_nearest a b c rfl⟩⟩
  · rw [paeth_eq a b c rfl, if_pos ha]
  · rw [paeth_eq a b c rfl, if_neg ha, if_pos hb]
  · rw [paeth_eq a b c rfl, if_neg ha, if_neg hb]

end Sys2Proof.Machine
end

section
/-! The engine in the scanline loop: a filter byte 5 to 255 (44 R298) and the end of the loop (44 R300). -/

namespace Sys2Proof.Machine

open Sys2Proof

section
variable {s : State}

/-- A filter byte 5 to 255 is FILT.INV (44 R298). -/
theorem scanlineInstr_invalid {ft : Byte} (h : 5 ≤ ft.toNat) : scanlineInstr ft.toNat = .filtInv ft :=
  Option.some.inj (Laws.Reassemble.filtInv ft (decide_eq_true h))

/-- In phase SCAN at a scanline the fetch is that of the scanline loop. -/
theorem fetch_of_scanline (hs : s.status = .scan) (hp : s.point = .scanline) : fetch s = fetchScanline s := by
  rw [fetch_of_running (by simp [running, hs]), fetchAt, hp]

/-- With no complete scanline left the engine's move is the end of the loop. -/
theorem engineMove_of_scanEnd (hs : s.status = .scan) (hp : s.point = .scanline) (hl : s.outLen < s.rptr + s.rowbytes + 1) :
    engineMove s = .next (scanEnd s) :=
  engineMove_of_move ((fetch_of_scanline hs hp).trans (fetchScanline_end hl))

/-- With nothing left behind the last row the run is DONE (44 R300). -/
theorem scanEnd_of_eq (h : s.rptr = s.outLen) : scanEnd s = { s with status := .done } := if_pos h

/-- Bytes left behind the last row are TruncatedImageData (44 R300). -/
theorem scanEnd_of_ne (h : s.rptr ≠ s.outLen) : scanEnd s = raise .truncatedImageData s := if_neg h

/-- A residual partial row raises TruncatedImageData (44 R300). -/
theorem engineMove_raises_of_residual (hs : s.status = .scan) (hp : s.point = .scanline)
    (hl : s.outLen < s.rptr + s.rowbytes + 1) (hr : s.rptr ≠ s.outLen) :
    ∃ t, engineMove s = .next t ∧ Faulted .truncatedImageData t :=
  ⟨_, by rw [engineMove_of_scanEnd hs hp hl, scanEnd_of_ne hr], rfl, rfl⟩

end

/-- Settles O40: bytes 5 to 255 are FILT.INV (`scanlineInstr_invalid`), which raises; the end of the loop (`scanEnd`) raises no
InvalidFilterType. -/
theorem invalidFilterFaults : Obligations.InvalidFilterFaults := by
  unfold Obligations.InvalidFilterFaults
  refine ⟨fun ft h5 => ?_, fun ft s => ⟨_, rfl, rfl, rfl⟩, fun s ft hs hp hl hm h5 => ?_, fun s t hs hp hl ht herr => ?_⟩
  · exact readsAs_field (form := fun w => some (scanlineInstr w)) (fun _ => rfl) ft.isLt
      (congrArg some (scanlineInstr_invalid h5))
  · rw [engineMove_of_run ((fetch_of_scanline hs hp).trans (fetchScanline_run hl hm)), scanlineInstr_invalid h5]
    exact ⟨_, rfl, rfl, rfl⟩
  · rw [engineMove_of_scanEnd hs hp hl] at ht
    cases ht
    by_cases hr : s.rptr = s.outLen
    · rwa [scanEnd_of_eq hr]
    · rw [scanEnd_of_ne hr, raise_err]
      decide

/-- Settles O41: RPTR at OUT_LEN is DONE (`scanEnd_of_eq`), any other a residual (`engineMove_raises_of_residual`), as 6 of 7 is. -/
theorem scanlinesEndInDoneOrTruncatedImage : Obligations.ScanlinesEndInDoneOrTruncatedImage := by
  unfold Obligations.ScanlinesEndInDoneOrTruncatedImage
  refine ⟨fun s hs hp hl => ⟨fun hr => ?_, engineMove_raises_of_residual hs hp hl⟩, fun s hs hp hb ho hr => ?_⟩
  · rw [engineMove_of_scanEnd hs hp hl, scanEnd_of_eq hr]
  · exact engineMove_raises_of_residual hs hp (by omega) (by omega)

end Sys2Proof.Machine
end

section
/-! The unpacker (45 R320 to R327): every UNPACK emits its samples at PIX_LEN and hands the row over, and in a legal configuration
they are WIDTH * PLANES. -/

namespace Sys2Proof.Machine

open Sys2Proof

section
variable {s t : State} {i : Instr} {n : Nat} {f : Nat → Nat}

/-! ### A row of samples -/

/-- Where the cells are 0 to n - 1, a cell from n on holds none. -/
theorem cellsBelow_none {α : Type} {m : Memory α} (h : cellsBelow n m) {a : Nat} (ha : n ≤ a) : memRead m a = none := by
  rw [← cellsBelow_readBelow h, readBelow_ge m ha]

/-- Samples that are all there and fit into PIX are emitted in order, and the row is handed over (45 R327, 44 R299). -/
theorem unpackRow_unpacked {sample : List Byte → Nat → Option Sample} (h : PixReady n s)
    (hs : ∀ j, j < n → sample s.cur j = some (BitVec.ofNat 16 (f j))) :
    ∃ t, (unpackRow sample n s).outcome = .next t ∧ Unpacked n f s t := by
  obtain ⟨m, hm, hcells, hold, hnew⟩ := emitFrom_go (sample s.cur) n 0 s h.cells h.room fun j _ hj => by
    rw [hs j (by omega)]
    rfl
  refine ⟨rowEnd { s with pix := m, pixLen := s.pixLen + n }, by rw [unpackRow, hm]; rfl,
    { frame := rfl, kept := fun a ha => ?_, sample := fun j hj => ?_ }⟩
  · show memRead m a = memRead s.pix a
    by_cases hlt : a < s.pixLen
    · exact hold a hlt
    · rw [cellsBelow_none hcells (by omega), cellsBelow_none h.cells (by omega)]
  · show memRead m (s.pixLen + j) = _
    rw [hnew j hj, Nat.zero_add, hs j hj]

/-! ### The samples of a whole row -/

/-- A sample taken from one byte of CUR. -/
theorem map_cur_getElem? {g : Nat → Nat} {k : Nat} (hk : k < s.cur.length) :
    ((s.cur[k]?).map fun v => BitVec.ofNat 16 (g v.toNat)) = some (BitVec.ofNat 16 (g (curByte s k))) := by
  rw [getElem?_eq_getD hk]
  rfl

/-- A sample taken from two bytes of CUR, big-endian (45 R322). -/
theorem sample16_cur {j : Nat} (hj : 2 * j + 1 < s.cur.length) :
    sample16 s.cur j = some (BitVec.ofNat 16 (curByte s (2 * j) * 256 + curByte s (2 * j + 1))) := by
  rw [sample16, getElem?_eq_getD hj, getElem?_eq_getD (Nat.lt_of_succ_lt hj)]
  rfl

/-- UNPK8 emits the bytes of the row (45 R321). -/
theorem unpk8_unpacked (hr : s.cur.length = s.rowbytes) (h : PixReady s.rowbytes s) :
    ∃ t, exec .unpk8 s = .next t ∧ Unpacked s.rowbytes (fun j => curByte s j) s t :=
  unpackRow_unpacked (sample := sample8) h fun _ hj => map_cur_getElem? (g := fun v => v) (hr ▸ hj)

/-- UNPK16 emits the byte pairs of the row (45 R322). -/
theorem unpk16_unpacked (hr : s.cur.length = s.rowbytes) (h : PixReady (s.rowbytes / 2) s) :
    ∃ t, exec .unpk16 s = .next t ∧
      Unpacked (s.rowbytes / 2) (fun j => curByte s (2 * j) * 256 + curByte s (2 * j + 1)) s t :=
  unpackRow_unpacked (sample := sample16) h fun _ hj => sample16_cur (by omega)

/-- UNPK1 emits the bits of a row of ceil(WIDTH / 8) bytes (45 R323). -/
theorem unpk1_unpacked (hr : s.cur.length = s.rowbytes) (hb : s.rowbytes = (s.width + 7) / 8) (h : PixReady s.width s) :
    ∃ t, exec .unpk1 s = .next t ∧ Unpacked s.width (fun j => curByte s (j / 8) / 2 ^ (7 - j % 8) % 2) s t :=
  unpackRow_unpacked (sample := sample1) h fun j _ =>
    map_cur_getElem? (g := fun v => v / 2 ^ (7 - j % 8) % 2) (by omega)

/-- UNPK2 emits the pairs of bits of a row of ceil(WIDTH / 4) bytes (45 R324). -/
theorem unpk2_unpacked (hr : s.cur.length = s.rowbytes) (hb : s.rowbytes = (s.width + 3) / 4) (h : PixReady s.width s) :
    ∃ t, exec .unpk2 s = .next t ∧ Unpacked s.width (fun j => curByte s (j / 4) / 2 ^ (6 - 2 * (j % 4)) % 4) s t :=
  unpackRow_unpacked (sample := sample2) h fun j _ =>
    map_cur_getElem? (g := fun v => v / 2 ^ (6 - 2 * (j % 4)) % 4) (by omega)

/-- UNPK4 emits the half bytes of a row of ceil(WIDTH / 2) bytes (45 R325). -/
theorem unpk4_unpacked (hr : s.cur.length = s.rowbytes) (hb : s.rowbytes = (s.width + 1) / 2) (h : PixReady s.width s) :
    ∃ t, exec .unpk4 s = .next t ∧ Unpacked s.width (fun j => curByte s (j / 2) / 2 ^ (4 - 4 * (j % 2)) % 16) s t :=
  unpackRow_unpacked (sample := sample4) h fun j _ =>
    map_cur_getElem? (g := fun v => v / 2 ^ (4 - 4 * (j % 2)) % 16) (by omega)

/-! ### A legal configuration -/

/-- An UNPACK changes PIX_LEN by its number of samples, and CUR not at all. -/
theorem Unpacked.pixLen_cur (h : Unpacked n f s t) : t.pixLen = s.pixLen + n ∧ t.cur = s.cur :=
  ⟨(congrArg State.pixLen h.frame :), (congrArg State.cur h.frame :)⟩

/-- The element that a legal BITDEPTH selects emits WIDTH * PLANES samples of a whole row (45 R320). -/
theorem exec_unpack_unpacked (hc : configOk s = true) (hb : s.rowbytes = rowBytesOf s) (hr : s.cur.length = s.rowbytes)
    (h : PixReady (samplesPerRow s) s) (hi : unpackInstr s.bitdepth.toNat = some i) :
    ∃ f t, exec i s = .next t ∧ Unpacked (samplesPerRow s) f s t := by
  have hn {n : Nat} := samples_of_row (n := n) hc hb hi
  unfold rowBytesOf bppBits at hb
  rcases unpackInstr_cases hi with ⟨hd, rfl⟩ | ⟨hd, rfl⟩ | ⟨hd, rfl⟩ | ⟨hd, rfl⟩ | ⟨hd, rfl⟩
  · rw [← hn (.inr (.inr ⟨.inl rfl, rfl⟩))] at h ⊢
    rw [hd, configOk_planes hc (by omega)] at hb
    exact ⟨_, unpk1_unpacked hr (by omega) h⟩
  · rw [← hn (.inr (.inr ⟨.inr (.inl rfl), rfl⟩))] at h ⊢
    rw [hd, configOk_planes hc (by omega)] at hb
    exact ⟨_, unpk2_unpacked hr (by omega) h⟩
  · rw [← hn (.inr (.inr ⟨.inr (.inr rfl), rfl⟩))] at h ⊢
    rw [hd, configOk_planes hc (by omega)] at hb
    exact ⟨_, unpk4_unpacked hr (by omega) h⟩
  · rw [← hn (.inl ⟨rfl, rfl⟩)] at h ⊢
    exact ⟨_, unpk8_unpacked hr h⟩
  · rw [← hn (.inr (.inl ⟨rfl, rfl⟩))] at h ⊢
    exact ⟨_, unpk16_unpacked hr h⟩

end

/-- Settles O42: each element emits a row of its samples (`unpackRow_unpacked`). -/
theorem unpackEmitsItsSamples : Obligations.UnpackEmitsItsSamples :=
  ⟨fun _ => unpk8_unpacked, fun _ => unpk16_unpacked, fun _ => unpk1_unpacked, fun _ => unpk2_unpacked, fun _ => unpk4_unpacked⟩

/-- Settles O43: a legal BITDEPTH selects an element (`configOk_unpackInstr`), and it emits the samples of the row
(`exec_unpack_unpacked`). -/
theorem everyDepthEmitsWidthTimesPlanes : Obligations.EveryDepthEmitsWidthTimesPlanes := by
  unfold Obligations.EveryDepthEmitsWidthTimesPlanes
  intro s hs hp hc hb hr h
  obtain ⟨i, hi⟩ := configOk_unpackInstr hc
  obtain ⟨f, t, ht, hu⟩ := exec_unpack_unpacked hc hb hr h hi
  obtain ⟨hlen, hcur⟩ := hu.pixLen_cur
  have hfetch : fetch s = .run i s := by rw [fetch_of_unpack hs hp, fetchUnpack_eq, hi]
  have selected {d : BitVec 5} {j : Instr} (hj : unpackInstr d.toNat = some j) (hd : s.bitdepth = d) : i = j :=
    Option.some.inj (hi.symm.trans (hd ▸ hj))
  exact ⟨i, t, hfetch, ht, hlen, hcur, selected rfl, selected rfl, selected rfl, selected rfl, selected rfl⟩

end Sys2Proof.Machine
end

section
/-! Why the engine's move entered FAULT (60 R342 to R349): `engineMove_faultOrCause` gives each kind the one test that raised it.
The element's part goes over the cases of `Effect`, the rest over those of `EngineCase`. -/

namespace Sys2Proof.Machine

open Sys2Proof

/-- The move from `s` to `t` entered no fault. -/
def NoNewFault (s t : State) : Prop := t.err = s.err ∧ (t.status = .fault → s.status = .fault)

/-- What element `i` is, or what `s` is like, when `i` raises `k` on `s`. MalformedBitstream, which many tests raise (60 R344), is
left open; an element raises none of the kinds not listed. -/
def elementCause (i : Instr) (s : State) : ErrKind → Prop
  | .invalidBlockType => ∃ f, i = .bhdrStored f ∨ i = .bhdrRsv f
  | .invalidFilterType => ∃ ft, i = .filtInv ft
  | .capacityExceeded => s.cap.outCap ≠ none ∨ s.cap.pixCap ≠ none
  | .malformedBitstream => True
  | _ => False

/-- What the engine met in `s` when its move raised `k`; MalformedBitstream is left open here too. -/
def engineCause (s : State) : ErrKind → Prop
  | .invalidBlockType => ∃ f u, fetch s = .run (.bhdrStored f) u ∨ fetch s = .run (.bhdrRsv f) u
  | .invalidFilterType => ∃ ft u, fetch s = .run (.filtInv ft) u
  | .truncatedInput => ∃ u, decode readBit (contextOf s) s = .stop .exhausted u
  | .truncatedImageData => s.point = .scanline ∧ s.outLen < s.rptr + s.rowbytes + 1 ∧ s.rptr ≠ s.outLen
  | .capacityExceeded => s.cap.outCap ≠ none ∨ s.cap.pixCap ≠ none
  | .malformedBitstream => True
  | _ => False

section
variable {i : Instr} {s t u : State} {k : ErrKind}

theorem NoNewFault.of_status (hs : t.status = s.status) (he : t.err = s.err) : NoNewFault s t := ⟨he, fun h => hs ▸ h⟩

theorem Grown.cap_eq (h : Grown s t) : t.cap = s.cap := by rw [h.frame]

theorem Emitted.cap_eq (h : Emitted s t) : t.cap = s.cap := by rw [h.frame]

/-- The end of a block enters no fault. -/
theorem blockEnd_noNewFault (s : State) : NoNewFault s (blockEnd s) := by
  unfold blockEnd
  split
  · split <;> exact ⟨rfl, fun h => nomatch h⟩
  · exact .of_status rfl rfl

/-- An element enters no fault, or one of its causes is there. -/
theorem Effect.faultOrCause (h : Effect i s t) : NoNewFault s t ∨ elementCause i s t.err := by
  cases h with
  | header f b hi => exact .inr ⟨f, hi.imp And.left And.left⟩
  | filterBad ft => exact .inr ⟨ft, rfl⟩
  | clcBad | lensBad | reserved | far => exact .inr trivial
  | litFull b hfull => exact .inr (.inl (by simp [hfull]))
  | copyFull d _ _ hg hfull =>
    have hcap : _ = s.cap := hg.cap_eq
    exact .inr (.inl (by simp [← hcap, hfull]))
  | unpackFull _ hg hfull => exact .inr (.inr (by simp [← hg.cap_eq, hfull]))
  | eob => exact .inl (blockEnd_noNewFault s)
  | lens _ _ _ _ ht => exact .inl (.of_status (congrArg State.status ht :) (congrArg State.err ht :))
  | copy _ _ _ hg => exact .inl (.of_status hg.status_eq (congrArg State.err hg.frame :))
  | unpack _ _ hg => exact .inl (.of_status hg.status_eq (congrArg State.err hg.frame :))
  | fixed | dyn | counts | clc | lit | length | filter => exact .inl (.of_status rfl rfl)

/-- What makes the fetched element raise a kind makes the engine raise it. -/
theorem engineCause_of_element (hf : fetch s = .run i u) (hc : u.cap = s.cap) (h : elementCause i u k) : engineCause s k := by
  cases k with
  | invalidBlockType =>
    obtain ⟨f, rfl | rfl⟩ := h
    · exact ⟨f, u, .inl hf⟩
    · exact ⟨f, u, .inr hf⟩
  | invalidFilterType =>
    obtain ⟨ft, rfl⟩ := h
    exact ⟨ft, u, hf⟩
  | capacityExceeded =>
    rw [elementCause, hc] at h
    exact h
  | malformedBitstream => trivial
  | _ => exact h.elim

/-- A fetched element enters no fault, or the engine met the cause. -/
theorem Effect.engineFaultOrCause (h : Effect i u t) (hf : fetch s = .run i u)
    (hu : u.status = s.status ∧ u.err = s.err ∧ u.cap = s.cap) : NoNewFault s t ∨ engineCause s t.err := by
  obtain ⟨hs, he, hc⟩ := hu
  rcases h.faultOrCause with ⟨herr, hst⟩ | hk
  · exact .inl ⟨herr.trans he, fun hf => hs ▸ hst hf⟩
  · exact .inr (engineCause_of_element hf hc hk)

/-- The engine's move enters no fault, or the engine met the cause of the kind it raised. -/
theorem engineMove_faultOrCause (h : engineMove s = .next t) : NoNewFault s t ∨ engineCause s t.err := by
  cases engineMove_cases h with
  | rest _ ht => exact .inl (.of_status (congrArg State.status ht) (congrArg State.err ht))
  | listBad _ _ _ ht => exact .inr (ht ▸ trivial)
  | listEnd _ _ _ ht => exact .inl (.of_status (congrArg State.status ht :) (congrArg State.err ht :))
  | element _ _ _ d u _ hu hf ht =>
    exact ht.engineFaultOrCause hf (by rw [fetched_frame hu d]; exact ⟨rfl, rfl, rfl⟩)
  | exhausted _ _ u hd _ ht => exact .inr (ht ▸ ⟨u, hd⟩)
  | malformed _ _ _ _ _ ht => exact .inr (ht ▸ trivial)
  | scanline _ _ _ _ _ hf ht => exact ht.engineFaultOrCause hf ⟨rfl, rfl, rfl⟩
  | scanEnd _ hp hl ht =>
    by_cases hr : s.rptr = s.outLen
    · rw [ht, scanEnd_of_eq hr]
      exact .inl ⟨rfl, fun hf => nomatch hf⟩
    · rw [ht, scanEnd_of_ne hr]
      exact .inr ⟨hp, hl, hr⟩
  | unpack _ _ _ _ hf ht => exact ht.engineFaultOrCause hf ⟨rfl, rfl, rfl⟩

end

/-- Settles O48: a move that enters FAULT has the cause of its kind (`engineMove_faultOrCause`). -/
theorem faultKindsAndWhatRaisesThem : Obligations.FaultKindsAndWhatRaisesThem := by
  unfold Obligations.FaultKindsAndWhatRaisesThem
  intro s t hs h ht
  have hcause : engineCause s t.err := (engineMove_faultOrCause h).resolve_left fun hno => hs (hno.2 ht)
  refine ⟨fun hk => ?_, fun hk => ?_, fun hk => ?_, fun hk => ?_⟩ <;> rw [hk] at hcause <;> exact hcause

end Sys2Proof.Machine
end

section
/-! CapacityExceeded (60 R349): a COPY or an UNPACK of more units than fit into its memory raises, each before the write that
would pass the capacity. -/

namespace Sys2Proof.Machine

open Sys2Proof

section
variable {i : Instr} {s : State} {n c d : Nat}

/-- A distance fits into DIST. -/
theorem toNat_ofNat_distance (hd : d ≤ 32768) : (BitVec.ofNat 16 d).toNat = d := Nat.mod_eq_of_lt (by omega)

/-- A distance within the bytes produced is copied step by step (43 R285). -/
theorem copyFrom_within (hd : d ≤ 32768) (h : d ≤ s.outLen) : copyFrom d s =
    (copySteps s.len.toNat { s with dist := BitVec.ofNat 16 d }).andThen fun t => .go { t with point := .symbols } := by
  unfold copyFrom copy
  rw [if_neg (show ¬s.outLen < (BitVec.ofNat 16 d).toNat by rw [toNat_ofNat_distance hd]; omega)]

/-- More steps of COPY than bytes that fit raise. -/
theorem copySteps_full (hd : 1 ≤ s.dist.toNat) (hr : s.dist.toNat ≤ s.outLen) (hc : cellsBelow s.outLen s.out)
    (hcap : s.cap.outCap = some c) (hle : s.outLen ≤ c) (hlt : c < s.outLen + n) :
    ∃ u, copySteps n s = .raise .capacityExceeded u := by
  rcases copySteps_grown n s with ⟨t, -, hg, hlen⟩ | ⟨u, hu, -⟩ | hstop
  · have hfit := hg.room (by rw [hcap]; exact (withinLimit_some _ _).mpr hle)
    rw [hg.cap_eq, hlen, hcap, withinLimit_some] at hfit
    omega
  · exact ⟨u, hu⟩
  · exact absurd hstop (copySteps_runs n s hd hr hc _)

/-- A distance element that reaches no further than the bytes produced and whose LEN bytes do not fit raises (43 R285). -/
theorem distance_raises_full (hi : distanceOf i = some d) (hr : d ≤ s.outLen) (hc : cellsBelow s.outLen s.out)
    (hcap : s.cap.outCap = some c) (hle : s.outLen ≤ c) (hlt : c < s.outLen + s.len.toNat) :
    Raises i s .capacityExceeded := by
  obtain ⟨he, h1, hmax⟩ := exec_distanceOf hi s
  have hdn := toNat_ofNat_distance hmax
  obtain ⟨u, hu⟩ := copySteps_full (s := { s with dist := BitVec.ofNat 16 d }) (h1.trans hdn.ge) (hdn.le.trans hr) hc hcap
    hle hlt
  exact raises_of_act he (by rw [copyFrom_within hmax hr, hu, Act.andThen_raise])

/-- A row of samples that are all there and do not fit into PIX raises (45 R327). -/
theorem unpackRow_full {sample : List Byte → Nat → Option Sample} (he : exec i s = (unpackRow sample n s).outcome)
    (hs : ∀ k, k < n → (sample s.cur k).isSome = true) (hcap : s.cap.pixCap = some c) (hle : s.pixLen ≤ c)
    (hlt : c < s.pixLen + n) : Raises i s .capacityExceeded := by
  rcases emitFrom_emitted (sample s.cur) n 0 s with ⟨t, -, hg, hlen⟩ | ⟨u, hu, -⟩ | hstop
  · have hfit := hg.room (by rw [hcap]; exact (withinLimit_some _ _).mpr hle)
    rw [hg.cap_eq, hlen, hcap, withinLimit_some] at hfit
    omega
  · exact raises_of_act he (by rw [unpackRow, hu, Act.andThen_raise])
  · exact absurd hstop (emitFrom_runs _ n 0 s (fun k hk => hs k (by omega)) _)

end

/-- Settles O34: the two operations are the branches of their test; a fault of this kind needs a finite capacity
(`engineMove_faultOrCause`); the elements raise by `distance_raises_full` and `unpackRow_full`. -/
theorem capacityExceededBeforeTheWrite : Obligations.CapacityExceededBeforeTheWrite := by
  unfold Obligations.CapacityExceededBeforeTheWrite
  refine ⟨fun b s h => if_pos h, fun b s h => if_neg h, fun v s h => if_pos h, fun v s h => if_neg h,
    fun s t ho hp h he hk => ?_, fun i d s c hi hr hc hcap hle hlt => distance_raises_full hi hr hc hcap hle hlt,
    fun i n s c hi hr hcap hle hlt => ?_⟩
  · rcases engineMove_faultOrCause h with ⟨herr, -⟩ | hcause
    · exact he (herr ▸ hk)
    · rw [hk] at hcause
      exact hcause.elim (absurd ho) (absurd hp)
  · rcases hi with ⟨rfl, rfl⟩ | ⟨rfl, rfl⟩ | ⟨rfl, rfl, hb⟩ | ⟨rfl, rfl, hb⟩ | ⟨rfl, rfl, hb⟩
    · exact unpackRow_full (sample := sample8) rfl (fun k hk => isSome_map_getElem? (hr ▸ hk)) hcap hle hlt
    · exact unpackRow_full (sample := sample16) rfl (fun k hk => sample16_isSome (by omega)) hcap hle hlt
    · exact unpackRow_full (sample := sample1) rfl (fun k hk => isSome_map_getElem? (by omega)) hcap hle hlt
    · exact unpackRow_full (sample := sample2) rfl (fun k hk => isSome_map_getElem? (by omega)) hcap hle hlt
    · exact unpackRow_full (sample := sample4) rfl (fun k hk => isSome_map_getElem? (by omega)) hcap hle hlt

end Sys2Proof.Machine
end

section
/-! The host's part of FAULT and START: FAULT is left by RESET alone (60 R354), and START checks CONFIG_OK (60 R347, 70 R384). -/

namespace Sys2Proof.Machine

open Sys2Proof

section
variable {s t : State}

/-- A write of CTRL with the RESET bit is the reset (10 R32). -/
theorem writeCtrl_reset {v : BitVec 2} (hv : v.getLsbD 1 = true) : writeCtrl v s = resetCore s := if_pos hv

/-- In FAULT a write of CTRL without the RESET bit, START or not, does nothing (60 R354). -/
theorem writeCtrl_fault {v : BitVec 2} (hv : v.getLsbD 1 = false) (hs : s.status = .fault) : writeCtrl v s = s :=
  (if_neg (Bool.eq_false_iff.mp hv)).trans (if_neg (by simp [hs]))

/-- In FAULT the engine does nothing (60 R352). -/
theorem eq_of_engineMove_fault (h : engineMove s = .next t) (hs : s.status = .fault) : t = s := by
  rw [engineMove_of_not_running (by simp [running, hs])] at h
  exact (Host.Outcome.next.inj h).symm

/-- In FAULT a move of the host keeps STATE and ERR, unless it writes RESET. -/
theorem hostMove_fault {a : HostAction} (h : hostMove a s = .next t) (hs : s.status = .fault) :
    (t.status = .fault ∧ t.err = s.err) ∨ ∃ v, a = .ctrl v ∧ v.getLsbD 1 = true ∧ t = resetCore s := by
  by_cases ha : ∃ v, a = .ctrl v
  · obtain ⟨v, rfl⟩ := ha
    cases h
    cases hv : v.getLsbD 1 with
    | true => exact .inr ⟨v, rfl, hv, writeCtrl_reset hv⟩
    | false =>
      rw [writeCtrl_fault hv hs]
      exact .inl ⟨hs, rfl⟩
  · obtain ⟨hst, he⟩ := hostMove_status_err h (not_exists.mp ha)
    exact .inl ⟨hst.trans hs, he⟩

/-- The legal values of BITDEPTH (10 R37). -/
theorem legalDepth_iff (d : BitVec 5) : legalDepth d = true ↔ d.toNat ∈ [1, 2, 4, 8, 16] := by
  revert d
  decide

/-- CONFIG_OK as 60 R347 writes it. -/
theorem configOk_iff (s : State) : configOk s = true ↔
    1 ≤ s.width ∧ s.bitdepth.toNat ∈ [1, 2, 4, 8, 16] ∧ 1 ≤ s.planes.toNat ∧ s.planes.toNat ≤ 4 ∧
    (s.bitdepth.toNat < 8 → s.planes.toNat = 1) := by
  have hone : (s.planes == 1) = true ↔ s.planes.toNat = 1 := by rw [beq_iff_eq, BitVec.toNat_eq]; rfl
  rw [← legalDepth_iff]
  simp only [configOk, Bool.and_eq_true, Bool.or_eq_true, decide_eq_true_eq, hone, or_iff_not_imp_left,
    Nat.not_le, and_assoc]

/-- START with SCAN_EN = 1 and an illegal configuration raises (60 R347). -/
theorem start_illegal (hm : s.mode = 1) (hc : ¬configOk s = true) : start s = raise .invalidConfig s :=
  if_pos (by simp [scanEnabled, hm, hc])

/-- START with SCAN_EN = 0 or a legal configuration starts phase INFLATE (70 R384). -/
theorem start_legal (h : s.mode = 0 ∨ configOk s = true) : start s = { s with status := .inflate, point := .header } :=
  if_neg (by rcases h with h | h <;> simp [scanEnabled, h])

end

/-- Settles O49: the engine does nothing in FAULT (`eq_of_engineMove_fault`), and the host resets or keeps STATE and ERR
(`hostMove_fault`). -/
theorem faultIsLeftOnlyByReset : Obligations.FaultIsLeftOnlyByReset := by
  unfold Obligations.FaultIsLeftOnlyByReset
  intro s t hs h
  rcases step_cases h with ⟨-, he⟩ | ⟨q, -, he⟩ | ⟨a, q, hq, -, hh⟩
  · rw [eq_of_engineMove_fault he hs]
    exact .inl ⟨hs, rfl⟩
  · rw [eq_of_engineMove_fault he hs]
    exact .inl ⟨hs, rfl⟩
  · rcases hostMove_fault hh hs with hkept | ⟨v, rfl, hv, ht⟩
    · exact .inl hkept
    · exact .inr ⟨v, q, hq, hv, ht⟩

/-- Settles O50: the step is START (`controlRegisterBits`), which tests CONFIG_OK (`configOk_iff`) and raises or starts
(`start_illegal`, `start_legal`). -/
theorem startChecksTheConfiguration : Obligations.StartChecksTheConfiguration := by
  unfold Obligations.StartChecksTheConfiguration
  intro s rest hq hs
  obtain ⟨hctrl, -⟩ := controlRegisterBits
  obtain ⟨-, hstart, -⟩ := hctrl s 1 rest hq
  rw [hstart rfl hs]
  refine ⟨configOk s = true, configOk_iff s, fun hm hc => ?_, fun h => ?_⟩
  · exact ⟨_, congrArg Host.Outcome.next (start_illegal hm hc), rfl, rfl⟩
  · exact congrArg Host.Outcome.next (start_legal h)

end Sys2Proof.Machine
end

section
/-! The end of a run in DONE (60 R355): the move that enters DONE is an EOB or the end of the scanlines, and the rest is what the
invariant says of DONE. -/

namespace Sys2Proof.Machine

open Sys2Proof

section
variable {i : Instr} {s t : State}

/-- The only element that enters DONE is EOB. -/
theorem Effect.eob_of_done (h : Effect i s t) (ht : t.status = .done) : s.status = .done ∨ i = .eob := by
  cases h with
  | eob => exact .inr rfl
  | header | clcBad | lensBad | litFull | reserved | far | copyFull | filterBad | unpackFull => cases ht
  | fixed | dyn | counts | clc | lit | length | filter => exact .inl ht
  | lens _ _ _ _ hf => exact .inl ((congrArg State.status hf :).symm.trans ht)
  | copy _ _ _ hg => exact .inl (hg.status_eq.symm.trans ht)
  | unpack _ _ hg => exact .inl (hg.status_eq.symm.trans ht)

/-- The engine enters DONE by an EOB or at the end of the scanlines. -/
theorem engineMove_done (h : engineMove s = .next t) (hs : s.status ≠ .done) (ht : t.status = .done) :
    (∃ u, fetch s = .run .eob u) ∨ (running s = true ∧ s.point = .scanline) := by
  have ran {i : Instr} {u : State} (hf : fetch s = .run i u) (hu : u.status = s.status) (he : Effect i u t) :
      ∃ u, fetch s = .run .eob u := by
    obtain rfl := (he.eob_of_done ht).resolve_left (hu ▸ hs)
    exact ⟨u, hf⟩
  cases engineMove_cases h with
  | rest _ hst => exact absurd (hst ▸ ht) hs
  | listEnd _ _ _ hst => exact absurd ((congrArg State.status hst :).symm.trans ht) hs
  | listBad _ _ _ hst | exhausted _ _ _ _ _ hst | malformed _ _ _ _ _ hst =>
    rw [hst] at ht
    cases ht
  | element _ _ _ d _ _ hu hf he => exact .inl (ran hf (fetchedState_status_eq hu d) he)
  | scanline hr hp => exact .inr ⟨hr, hp⟩
  | scanEnd hr hp => exact .inr ⟨hr, hp⟩
  | unpack _ _ _ _ hf he => exact .inl (ran hf rfl he)

end

/-- Settles O60: the state entered meets the invariant (`engineMove_inv`), which speaks of DONE; without phase SCAN the move was
an EOB (`engineMove_done`). -/
theorem doneDeliversTheResult : Obligations.DoneDeliversTheResult := by
  unfold Obligations.DoneDeliversTheResult
  intro s t hinv hs h ht
  have hdone := engineMove_inv h hinv
  refine ⟨hdone.final (.inr ht), fun a => (cellsBelow_isSome hdone.outForm a).mpr, fun hm => ?_, fun hm => ?_⟩
  · refine (engineMove_done h hs ht).resolve_right fun ⟨hr, hp⟩ => ?_
    have hen : s.mode = 1 := by
      simpa [scanEnabled] using (hinv.scanning_of_point hr (by rw [hp]; rfl)).row.enabled
    have hview := engineMove_inputAndConfig h
    simp only [inputAndConfig, Prod.mk.injEq] at hview
    obtain ⟨-, -, hmode, -⟩ := hview
    rw [hmode, hen] at hm
    cases hm
  · obtain ⟨hout, hpix⟩ := hdone.finished ht (by simp [scanEnabled, hm])
    refine ⟨?_, ?_, hpix, fun a => (cellsBelow_isSome hdone.pixForm a).mpr⟩
    · rw [hout, Nat.mul_mod_left]
    · rw [hout, Nat.mul_div_cancel _ (Nat.succ_pos _)]

end Sys2Proof.Machine
end

section
/-! Every element of the stream takes bits (70 R390): what is left behind an element is shorter than what it was read from. -/

namespace Sys2Proof.Machine

open Sys2Proof

section
variable {bits rest : List Bool} {d : Decoded}

/-- A field takes its bits. -/
theorem readField_takes {n v : Nat} (h : readField listReader n bits = .got v rest) : bits.length = n + rest.length := by
  rw [(readField_eq_got h).2, List.length_append, fieldBits_length]

/-- CLCLEN takes three bits per field. -/
theorem readLengths_takes {n : Nat} {fields : List (BitVec 3)} (h : readLengths listReader n bits = .got fields rest) :
    bits.length = 3 * n + rest.length := by
  obtain ⟨rfl, rfl⟩ := readLengths_eq_got h
  simp [Nat.mul_comm]

/-- DECODE takes at least one bit. -/
theorem decodeSymbol_takes {T : List Nat} {maxl : Nat} {w : CodeWord} (h : decodeSymbol listReader T maxl bits = .got w rest) :
    rest.length < bits.length := by
  obtain ⟨-, hlen, hbits⟩ := walkCode_eq_got h
  have := congrArg List.length hbits
  simp only [List.length_append, codeBits_length] at this
  omega

/-- An element with a code in front takes at least the bit of its code. -/
theorem codedElement_takes {T : List Nat} {maxl : Nat} {extra : Nat → Nat} {form : Nat → Nat → Option Instr}
    (h : codedElement listReader T maxl extra form bits = .got d rest) : rest.length < bits.length := by
  obtain ⟨w, t, hw, ht⟩ := Got.andThen_eq_got h
  obtain ⟨e, u, he, hu⟩ := Got.andThen_eq_got ht
  obtain ⟨-, rfl⟩ := selected_eq_got hu
  have := decodeSymbol_takes hw
  have := readField_takes he
  omega

/-- Every element takes at least one bit, but for a CLCLEN of no field, which no DYNHDR asks for (42 R178). -/
theorem decodeBits_takes {c : Context} (hc : c ≠ .clcLengths 0) (h : decodeBits c bits = .got d rest) :
    rest.length < bits.length := by
  have field {n : Nat} {form : Nat → Option Instr} (hn : 0 < n)
      (h : (readField listReader n bits).andThen (fun v t => selected (form v) none t) = .got d rest) :
      rest.length < bits.length := by
    obtain ⟨v, -, -, rfl⟩ := field_eq_got h
    simpa using hn
  cases c with
  | header => exact field (form := fun w => some (headerInstr w)) (by decide) h
  | scanline => exact field (form := fun w => some (scanlineInstr w)) (by decide) h
  | unpack => exact field (form := unpackInstr) (by decide) h
  | dynHeader =>
    obtain ⟨l, t, hl, ht⟩ := Got.andThen_eq_got h
    obtain ⟨e, u, he, hu⟩ := Got.andThen_eq_got ht
    obtain ⟨k, v, hk, hv⟩ := Got.andThen_eq_got hu
    cases hv
    have := readField_takes hl
    have := readField_takes he
    have := readField_takes hk
    omega
  | clcLengths n =>
    obtain ⟨fields, t, hfs, ht⟩ := Got.andThen_eq_got h
    cases ht
    have := readLengths_takes hfs
    have : n ≠ 0 := fun h0 => hc (h0 ▸ rfl)
    omega
  | clSymbol T p => exact codedElement_takes h
  | llSymbol T => exact codedElement_takes h
  | distance T => exact codedElement_takes h

end

section
variable {s t u : State} {d : Decoded}

/-- The unread bits depend on the cursor and IN only. -/
theorem unreadBits_congr (hf : fetchRegisters t = fetchRegisters s) (hc : inputAndConfig t = inputAndConfig s) :
    unreadBits t = unreadBits s := by
  have hb := bitpos_congr hf
  simp only [inputAndConfig, Prod.mk.injEq] at hc
  obtain ⟨hm, hn, -⟩ := hc
  rw [unreadBits, unreadBits, hb, hn, funext (streamBit_congr hm)]

/-- In phase INFLATE a fetched element leaves fewer unread bits. -/
theorem fetch_takes (hi : Inflating s) (hcur : CursorOk s) (hw : InputWritten s) (hd : decode readBit (contextOf s) s = .got d u) :
    (unreadBits (fetchedState d u)).length < (unreadBits s).length := by
  have hc : contextOf s ≠ .clcLengths 0 := by
    unfold contextOf
    cases hp : s.point with
    | clcLengths =>
      have := (hi.clcCount hp).1
      simp only [ne_eq, Context.clcLengths.injEq]
      omega
    | header | dynHeader | codeLengths | symbols | distance | scanline | unpack => exact nofun
  have key := decode_unreadBits_agree (c := contextOf s) hcur hw
  rw [hd] at key
  cases hl : decodeBits (contextOf s) (unreadBits s) with
  | stop w rest => rw [hl] at key; exact key.elim
  | got d' rest =>
    rw [hl] at key
    obtain ⟨-, hr⟩ := key
    have hu : unreadBits (fetchedState d u) = unreadBits u := by
      rw [fetchedState_frame]
      rfl
    rw [hu, hr.unread]
    exact decodeBits_takes hc hl

end

end Sys2Proof.Machine
end

section
/-! Termination (70 R390): every move of the running engine ends the run or leaves fewer moves to make, `engineMove_endsOrGoesOn`.
Phase INFLATE moves on along the bits it has not read, phase SCAN along the rows it has not unpacked. -/

namespace Sys2Proof.Machine

open Sys2Proof

/-- The run is over: DONE or FAULT. -/
def Ended (s : State) : Prop := s.status = .done ∨ s.status = .fault

/-- What is left of phase INFLATE: two moves per unread bit, and the end of a code-length list, which reads none. -/
def inflateLeft (s : State) : Nat := 2 * (unreadBits s).length + if s.point = .codeLengths then 1 else 0

/-- What is left of phase SCAN: two moves per byte behind RPTR, the first of a row being its scanline element. -/
def scanLeft (s : State) : Nat := 2 * (s.outLen - s.rptr) + if s.point = .scanline then 1 else 0

/-- What is left of a run, compared phase first: phase SCAN comes after phase INFLATE. -/
def runLeft (s : State) : Nat ×ₗ Nat :=
  if s.status = .inflate then toLex (1, inflateLeft s) else toLex (0, scanLeft s)

/-- From `s` to `t` the run ended, or it goes on with less left. -/
def EndsOrGoesOn (s t : State) : Prop := Ended t ∨ running t = true ∧ runLeft t < runLeft s

section
variable {i : Instr} {s t u : State}

theorem runLeft_inflate (h : s.status = .inflate) : runLeft s = toLex (1, inflateLeft s) := if_pos h

theorem runLeft_scan (h : s.status = .scan) : runLeft s = toLex (0, scanLeft s) := if_neg (by simp [h])

theorem EndsOrGoesOn.of_fault (h : t.status = .fault) : EndsOrGoesOn s t := .inl (.inr h)

/-- Within phase INFLATE. -/
theorem EndsOrGoesOn.of_inflate (hs : s.status = .inflate) (ht : t.status = .inflate) (h : inflateLeft t < inflateLeft s) :
    EndsOrGoesOn s t := by
  refine .inr ⟨by simp [running, ht], ?_⟩
  rw [runLeft_inflate hs, runLeft_inflate ht, Prod.Lex.toLex_lt_toLex]
  exact .inr ⟨rfl, h⟩

/-- From phase INFLATE to phase SCAN. -/
theorem EndsOrGoesOn.of_scanEntry (hs : s.status = .inflate) (ht : t.status = .scan) : EndsOrGoesOn s t := by
  refine .inr ⟨by simp [running, ht], ?_⟩
  rw [runLeft_inflate hs, runLeft_scan ht, Prod.Lex.toLex_lt_toLex]
  exact .inl Nat.zero_lt_one

/-- Within phase SCAN. -/
theorem EndsOrGoesOn.of_scan (hs : s.status = .scan) (ht : t.status = .scan) (h : scanLeft t < scanLeft s) :
    EndsOrGoesOn s t := by
  refine .inr ⟨by simp [running, ht], ?_⟩
  rw [runLeft_scan hs, runLeft_scan ht, Prod.Lex.toLex_lt_toLex]
  exact .inr ⟨rfl, h⟩

/-! ### Phase INFLATE -/

/-- The block loop goes on, enters phase SCAN or is done. -/
theorem blockEnd_status (s : State) :
    (blockEnd s).status = s.status ∨ (blockEnd s).status = .scan ∨ (blockEnd s).status = .done := by
  unfold blockEnd
  split
  · split
    · exact .inr (.inl rfl)
    · exact .inr (.inr rfl)
  · exact .inl rfl

/-- An element keeps STATE or enters FAULT, SCAN or DONE. -/
theorem Effect.status_cases (h : Effect i s t) :
    t.status = s.status ∨ t.status = .fault ∨ t.status = .scan ∨ t.status = .done := by
  cases h with
  | header | clcBad | lensBad | litFull | reserved | far | copyFull | filterBad | unpackFull => exact .inr (.inl rfl)
  | fixed | dyn | counts | clc | lit | length | filter => exact .inl rfl
  | lens _ _ _ _ ht => exact .inl (congrArg State.status ht :)
  | eob => exact (blockEnd_status s).imp_right .inr
  | copy _ _ _ hg => exact .inl hg.status_eq
  | unpack _ _ hg => exact .inl hg.status_eq

/-- An element fetched from the stream goes on with fewer unread bits, leaves phase INFLATE or faults. -/
theorem Effect.goesOn_of_inflating (h : Effect i u t) (hs : s.status = .inflate) (hu : u.status = .inflate)
    (hb : (unreadBits u).length < (unreadBits s).length) : EndsOrGoesOn s t := by
  rcases h.status_cases with ht | ht | ht | ht
  · refine .of_inflate hs (ht.trans hu) ?_
    obtain ⟨hc, hf, -⟩ := h.views
    unfold inflateLeft
    rw [unreadBits_congr hf hc]
    split_ifs <;> omega
  · exact .of_fault ht
  · exact .of_scanEntry hs ht
  · exact .inl (.inl ht)

/-! ### Phase SCAN -/

/-- A scanline element leaves the UNPACK of its row to do, an UNPACK leaves a row less, or either faults. -/
theorem Effect.goesOn_of_scanning (h : Effect i s t) (hs : s.status = .scan) (hf : i.format = .scanline ∨ i.format = .unpack)
    (hp : i.format = s.point.format) (hl : s.point = .unpack → s.rptr + s.rowbytes + 1 ≤ s.outLen) : EndsOrGoesOn s t := by
  cases h with
  | header | clcBad | lensBad | litFull | reserved | far | copyFull | filterBad | unpackFull => exact .of_fault rfl
  | fixed | dyn | counts | clc | lit | eob => simp [Instr.format] at hf
  | lens hcl => simp [hcl] at hf
  | length _ hll => simp [hll] at hf
  | copy _ hd => simp [format_of_distanceOf hd] at hf
  | filter row hsc =>
    have hpt : s.point = .scanline := Point.format_injective (hp.symm.trans hsc)
    refine .of_scan hs hs ?_
    simp [scanLeft, hpt]
  | unpack n hun hg =>
    have hpt : s.point = .unpack := Point.format_injective (hp.symm.trans
      (by rcases hun with ⟨rfl, -⟩ | ⟨rfl, -⟩ | ⟨rfl | rfl | rfl, -⟩ <;> rfl))
    have hrow := hl hpt
    rw [hg.frame]
    refine .of_scan hs hs ?_
    simp only [scanLeft, rowEnd, hpt, if_true, reduceCtorEq, if_false]
    omega

/-- The end of the scanlines ends the run. -/
theorem scanEnd_ended (s : State) : Ended (scanEnd s) := by
  unfold scanEnd
  split
  · exact .inl rfl
  · exact .inr rfl

/-! ### The engine -/

/-- Every move of the running engine ends the run or leaves less of it. -/
theorem engineMove_endsOrGoesOn (h : engineMove s = .next t) (hinv : Inv s) (hw : InputWritten s) (hr : running s = true) :
    EndsOrGoesOn s t := by
  cases engineMove_cases h with
  | rest hn => rw [hn] at hr; cases hr
  | listBad _ _ _ ht | exhausted _ _ _ _ _ ht | malformed _ _ _ _ _ ht => exact .of_fault (congrArg State.status ht :)
  | listEnd _ hp _ ht =>
    have hs := (hinv.inflating_of_point hr (by rw [hp]; rfl)).status
    subst ht
    refine .of_inflate hs hs ?_
    rw [inflateLeft, inflateLeft, hp]
    exact Nat.lt_succ_self _
  | element _ hp _ d u hd hu _ ht =>
    have hi := hinv.inflating_of_point hr hp
    exact ht.goesOn_of_inflating hi.status ((fetchedState_status_eq hu d).trans hi.status)
      (fetch_takes hi hinv.cursor hw hd)
  | scanline _ hp _ ft _ _ ht =>
    exact ht.goesOn_of_scanning (hinv.scanning_of_point hr (by rw [hp]; rfl)).status (.inl (scanlineInstr_format _))
      ((scanlineInstr_format _).trans (by rw [hp]; rfl)) (fun hu => by rw [hp] at hu; cases hu)
  | scanEnd _ _ _ ht => exact .inl (ht ▸ scanEnd_ended s)
  | unpack _ hp i hi _ ht =>
    have hsc := hinv.scanning_of_point hr (by rw [hp]; rfl)
    exact ht.goesOn_of_scanning hsc.status (.inr (unpackInstr_format hi)) ((unpackInstr_format hi).trans (by rw [hp]; rfl))
      fun hu => (hsc.row.row hu).2

/-- No move of the engine writes the host's fields. -/
theorem engineMove_hostFields (h : engineMove s = .next t) : hostFields t = hostFields s := by
  cases engineMove_cases h with
  | rest _ ht => exact congrArg hostFields ht
  | listBad _ _ _ ht | listEnd _ _ _ ht => exact (congrArg hostFields ht :)
  | element _ _ _ d u _ hu _ ht => exact ht.views.2.2.trans (by rw [fetched_frame hu d]; rfl)
  | exhausted _ _ u _ hu ht | malformed _ _ u _ hu ht => exact (congrArg hostFields ht).trans (congrArg hostFields hu :)
  | scanline _ _ _ _ _ _ ht => exact ht.views.2.2
  | scanEnd _ _ _ ht => exact (congrArg hostFields ht).trans (scanEnd_views s).2.2
  | unpack _ _ _ _ _ ht => exact ht.views.2.2

/-- A move of the engine leaves IN written. -/
theorem engineMove_inputWritten (h : engineMove s = .next t) (hw : InputWritten s) : InputWritten t := by
  have hv := engineMove_inputAndConfig h
  simp only [inputAndConfig, Prod.mk.injEq] at hv
  obtain ⟨hm, hn, -⟩ := hv
  intro a ha
  rw [hm]
  exact hw a (hn ▸ ha)

/-- A run begins with a step. -/
theorem run_succ (h : step s = .next t) (k : Nat) : Host.Core.run Sys2Proof.core (k + 1) s = Host.Core.run Sys2Proof.core k t := by
  have hc : Sys2Proof.core.step s = .next t := h
  simp only [Host.Core.run, hc]

end

/-- Settles O59: by induction on what is left of the run; the engine's move completes (O58), keeps the hypotheses, and ends the
run or leaves less of it (`engineMove_endsOrGoesOn`). -/
theorem everyRunEnds : Obligations.EveryRunEnds := by
  unfold Obligations.EveryRunEnds
  intro s
  induction hm : runLeft s using WellFoundedLT.induction generalizing s with
  | ind m ih =>
    intro hinv hw hq hr
    obtain ⟨t, ht⟩ := engineNeverStopsOnWrittenInput s hinv hw
    have hstep : step s = .next t := (step_nothingPending hq).trans ht
    rcases engineMove_endsOrGoesOn ht hinv hw hr with hend | ⟨hrun, hlt⟩
    · exact ⟨1, t, run_succ hstep 0, hend⟩
    · have hqt : t.hostQueue = [] := (congrArg Prod.fst (engineMove_hostFields ht) :).trans hq
      obtain ⟨k, u, hu, hend⟩ :=
        ih _ (hm ▸ hlt) t rfl (engineMove_inv ht hinv) (engineMove_inputWritten ht hw) hqt hrun
      exact ⟨k + 1, u, (run_succ hstep k).trans hu, hend⟩

end Sys2Proof.Machine
end

section
/-! Reset (70 R380, 10 R47): the values of the reset state, and a START straight after it. -/

namespace Sys2Proof.Machine

open Sys2Proof

/-- With IN empty the first READBIT is exhausted: the engine faults at the header. -/
theorem engineMove_emptyInput :
    engineMove { State.reset with status := .inflate } = .next (raise .truncatedInput { State.reset with status := .inflate }) := rfl

/-- Settles O53: the reset state has the values of R47, CTRL.RESET is `resetCore` (O51), and after START (O50) the engine finds IN
empty. -/
theorem resetLeavesTheResetState : Obligations.ResetLeavesTheResetState := by
  unfold Obligations.ResetLeavesTheResetState
  obtain ⟨hctrl, -⟩ := controlRegisterBits
  refine ⟨?_, fun s rest hq => ?_, ?_⟩
  · rintro s t (rfl | rfl)
    · exact ⟨rfl, rfl, rfl, rfl, rfl, rfl, rfl, rfl, rfl, rfl, rfl, rfl, rfl, fun _ => rfl⟩
    · exact ⟨rfl, rfl, rfl, rfl, rfl, rfl, rfl, rfl, rfl, rfl, rfl, rfl, rfl, fun h => (congrArg State.cap h :)⟩
  · obtain ⟨hreset, -⟩ := hctrl s 2 rest hq
    exact hreset (.inl rfl)
  · obtain ⟨ok, -, -, hstart⟩ := startChecksTheConfiguration { State.reset with hostQueue := [.ctrl 1] } [] rfl rfl
    refine ⟨raise .truncatedInput { State.reset with status := .inflate }, ?_, rfl, rfl⟩
    exact (run_succ (hstart (.inl rfl)) 1).trans (run_succ ((step_nothingPending rfl).trans engineMove_emptyInput) 0)

end Sys2Proof.Machine
end
